-- ==== Sys2Proof/Word.lean ====
section
/-! DEFINITION. The two value types of SPC: the byte and the Bit (spec 00_scope.md R7, 40_bit.md R70). -/

namespace Sys2Proof

/-- A byte: an unsigned integer 0 to 255, eight bits wide, bit 0 the least significant (R7). -/
abbrev Byte := BitVec 8

/-- A Bit: a one-bit unsigned value, 0 or 1. One wire, so no other value exists (R7, R70, D5). -/
abbrev Bit := BitVec 1

end Sys2Proof
end

