-- ==== Sys2Proof/Config.lean ====
section
/-! DEFINITION. What is fixed for the machine (spec 00_scope.md R6, 10_state.md R23) and the free values: the quantities
the spec treats as "any value" (93_implementation_defined.md U8, U9, U10, U17, U18). A free value is an opaque constant
applied to the counter `State.free`; no proof can learn what it is. -/

namespace Sys2Proof.Config

/-- The open parameter MAGIC_BYTES (R6, U1): any four bytes but four zero bytes. The 2^32 - 1 values of this index stand
for the 2^32 - 1 words that are not zero, so the spec's one constraint holds and nothing else is said (log 6). -/
opaque magicIndex : Fin 4294967295

/-- The four magic bytes as one number, the first byte of the stream highest; never zero. -/
def magicWord : BitVec 32 := BitVec.ofNat 32 (magicIndex.val + 1)

/-- The four bytes of a word in stream order, M0 at offset 0 (R6, R51; R39 leaves the host's byte order to the parameter). -/
def bytesOfMagic (w : BitVec 32) : List Byte :=
  [w.extractLsb' 24 8, w.extractLsb' 16 8, w.extractLsb' 8 8, w.extractLsb' 0 8]

/-- MAGIC_BYTES (R6, R51), read by SER.WRITE step 2 and DES.READ step 1. -/
def magicBytes : List Byte := bytesOfMagic magicWord

/-- LEAF_CAP (R6, 90_conflicts.md C1). -/
def leafCap : Nat := 256

/-- SHAPE_MAX = 2 × LEAF_CAP − 1 (R6). -/
def shapeMax : Nat := 2 * leafCap - 1

/-- CHAR_ZERO (R6; the number is marked there as general knowledge, U3, G1; log 7). PRESUMED. -/
def charZero : Int := 48

/-- CHAR_ONE (R6; as CHAR_ZERO). PRESUMED. -/
def charOne : Int := 49

/-- `BW.acc` or `SER.bw.acc` after a failed sink write (U10, U17). -/
opaque anyAcc : Nat → Byte
/-- `BW.cnt` or `SER.bw.cnt` after a failed sink write (U10, U17). -/
opaque anyCnt : Nat → BitVec 3
/-- `BR.cur` after a failed source read (V-R14), `DES.br.cur` after a faulted DES.READ (U9). -/
opaque anyCur : Nat → Byte
/-- `BR.pos` after a failed source read (V-R14), `DES.br.pos` after a faulted DES.READ (U9); 0 to 8 as R15 bounds it. -/
opaque anyPos : Nat → Fin 9
/-- What the sink holds past the accepted bytes once a sink write failed (U8, R33). -/
opaque anySinkTail : Nat → List Byte
/-- `CT.shape` after a fault that leaves CT undefined (U9, U10). -/
opaque anyShape : Nat → List Bit
/-- `CT.leaves` after such a fault, before R17's cap of 256 entries (U9, U10). -/
opaque anyLeaves : Nat → List Byte
/-- `CT.msg` after such a fault (U9, U10). -/
opaque anyMsg : Nat → List Bit
/-- How far the source position stands past the start of a faulted DES.READ, before the bounds that R34 and R133 set (U9). -/
opaque anyAdvance : Nat → Nat
/-- `SER.idx` between commands (U18). -/
opaque anySerIdx : Nat → Nat
/-- `SER.tbcv` between commands (U18). -/
opaque anyTbcv : Nat → BitVec 4
/-- `DES.L` between commands (U18). -/
opaque anyL : Nat → BitVec 9
/-- `DES.tbc` between commands (U18). -/
opaque anyTbc : Nat → Byte
/-- `DES.bitsRemaining` between commands (U18). -/
opaque anyBitsRemaining : Nat → Int
/-- `DES.idx` between commands (U18). -/
opaque anyDesIdx : Nat → Nat

end Sys2Proof.Config
end

