-- ==== Sys2Proof/Syntax.lean ====
section
/-! DEFINITION. What the host can give SPC: the twelve commands (spec 30_encoding.md R62), the command channel they
arrive on (R61), the container (10_state.md R17) and the host's two kinds of action (20_memory.md R38). -/

namespace Sys2Proof

/-- The twelve commands, one constructor per row of the opcode table, with the operands a command uses (R61, R62). -/
inductive Instr where
  /-- SYS.RESET (R160). -/
  | sysReset
  /-- BIT.NEW opv (R71). -/
  | bitNew (opv : Int)
  /-- BIT.EQ opa, opb (R72). -/
  | bitEq (opa opb : Bit)
  /-- BIT.NE opa, opb (R73). -/
  | bitNe (opa opb : Bit)
  /-- BIT.SHOW opa (R74). -/
  | bitShow (opa : Bit)
  /-- BW.OPEN (R81). -/
  | bwOpen
  /-- BW.PUT opa (R82). -/
  | bwPut (opa : Bit)
  /-- BW.CLOSE (R83). -/
  | bwClose
  /-- BR.OPEN (R91). -/
  | brOpen
  /-- BR.GET (R92). -/
  | brGet
  /-- SER.WRITE (R100). -/
  | serWrite
  /-- DES.READ (R120). -/
  | desRead
deriving DecidableEq, Repr

/-- One use of the command channel: the 8-bit code and the three operand inputs (R61). `opv` is an unbounded integer, the
reference choice for VALUE_W (R6, D5; log 8). -/
structure Port where
  cmd : BitVec 8
  opv : Int
  opa : Bit
  opb : Bit
deriving DecidableEq, Repr

/-- A container: tree-shape bits, leaf bytes, message bits, each in FIFO order (R17). Unbounded bit sequences are the
reference choice (R6, D10; log 8). -/
structure Container where
  shape : List Bit
  leaves : List Byte
  msg : List Bit
deriving DecidableEq, Repr

/-- The container store with nothing in it (R27). -/
def Container.empty : Container := { shape := [], leaves := [], msg := [] }

/-- What the host can do to SPC (R5, R38, R46): issue a command, or replace the contents of CT between commands. R46 has the host
position the source before DES.READ, and the spec gives no primitive for that: DESIGN CHOICE (log 27), unsafe: the model has no such
action, so SRC.data and SRC.pos are those of the start state and between commands nothing moves the position. -/
inductive HostAction where
  /-- Issue one command on the command channel (R61). -/
  | issue (p : Port)
  /-- Replace CT (R38; the pseudo-command LOADCT of R64, no command and no code). -/
  | loadCT (c : Container)
deriving DecidableEq, Repr

end Sys2Proof
end

