-- ==== Sys2Proof/WellFormed.lean ====
section
/-! DEFINITION. What a command, a container and a host action must satisfy (spec 10_state.md R17, 30_encoding.md R62, R63,
20_memory.md R38). -/

namespace Sys2Proof

/-- Every command with operands of its types is well formed: a Bit is one wire and holds 0 or 1 (R70), and `opv` is any
integer (R6, VALUE_W at its reference choice). The check is per constructor, so that a new command meets it. -/
def Instr.wellFormed : Instr → Bool
  | .sysReset => true
  | .bitNew _ => true
  | .bitEq _ _ => true
  | .bitNe _ _ => true
  | .bitShow _ => true
  | .bwOpen => true
  | .bwPut _ => true
  | .bwClose => true
  | .brOpen => true
  | .brGet => true
  | .serWrite => true
  | .desRead => true

/-- The twelve assigned codes; the 244 others are reserved (R62, R63). -/
def assignedCodes : List (BitVec 8) :=
  [0x00, 0x10, 0x11, 0x12, 0x13, 0x20, 0x21, 0x22, 0x30, 0x31, 0x40, 0x50]

/-- The code on the command channel is not reserved (R63). -/
def Port.wellFormed (p : Port) : Bool := assignedCodes.contains p.cmd

/-- The container fits the store: at most LEAF_CAP leaves (R17, D9). -/
def Container.fits (c : Container) : Bool := decide (c.leaves.length ≤ Config.leafCap)

/-- The host can put only a container that fits into CT (R38); it may issue any code, a reserved one being refused (R63). -/
def HostAction.wellFormed : HostAction → Bool
  | .issue _ => true
  | .loadCT c => c.fits

end Sys2Proof
end

