-- ==== Sys2Proof/Decode.lean ====
section
/-! DEFINITION. The decoder of the command channel, total on all 256 codes, and the encoder (spec 30_encoding.md R61, R62,
R63). -/

namespace Sys2Proof

/-- What the decoder answers: a command, or the reserved code it was given, by value (R63). -/
inductive Decoded where
  | instr (i : Instr)
  | reserved (code : BitVec 8)
deriving DecidableEq, Repr

/-- `cmd[7:4]`, the unit (R61). -/
def unitField (cmd : BitVec 8) : BitVec 4 := cmd.extractLsb' 4 4

/-- `cmd[3:0]`, the command within the unit (R61). -/
def funcField (cmd : BitVec 8) : BitVec 4 := cmd.extractLsb' 0 4

/-- The decoder on a code and the operand inputs: unit, then function (R62). Operand inputs that a command does not use are
ignored (R63). -/
def decodeCmd (cmd : BitVec 8) (opv : Int) (opa opb : Bit) : Decoded :=
  match (unitField cmd).toNat, (funcField cmd).toNat with
  | 0, 0 => .instr .sysReset
  | 1, 0 => .instr (.bitNew opv)
  | 1, 1 => .instr (.bitEq opa opb)
  | 1, 2 => .instr (.bitNe opa opb)
  | 1, 3 => .instr (.bitShow opa)
  | 2, 0 => .instr .bwOpen
  | 2, 1 => .instr (.bwPut opa)
  | 2, 2 => .instr .bwClose
  | 3, 0 => .instr .brOpen
  | 3, 1 => .instr .brGet
  | 4, 0 => .instr .serWrite
  | 5, 0 => .instr .desRead
  | _, _ => .reserved cmd

/-- The decoder of the command channel (R61, R62, R63). -/
def decode (p : Port) : Decoded := decodeCmd p.cmd p.opv p.opa p.opb

/-- A code from its two fields: `{unit, func}` (R61). -/
def codeOf (unit func : BitVec 4) : BitVec 8 := unit ++ func

/-- The command channel with a code and every operand input at 0. -/
def portOfCode (c : BitVec 8) : Port := { cmd := c, opv := 0, opa := 0, opb := 0 }

/-- The encoder (R61, R62): the code, and on the operand inputs the command's operands; an unused input is driven to 0
(DESIGN CHOICE, log 26: R63 ignores it). -/
def encode : Instr → Port
  | .sysReset => portOfCode (codeOf 0 0)
  | .bitNew v => { portOfCode (codeOf 1 0) with opv := v }
  | .bitEq a b => { portOfCode (codeOf 1 1) with opa := a, opb := b }
  | .bitNe a b => { portOfCode (codeOf 1 2) with opa := a, opb := b }
  | .bitShow a => { portOfCode (codeOf 1 3) with opa := a }
  | .bwOpen => portOfCode (codeOf 2 0)
  | .bwPut a => { portOfCode (codeOf 2 1) with opa := a }
  | .bwClose => portOfCode (codeOf 2 2)
  | .brOpen => portOfCode (codeOf 3 0)
  | .brGet => portOfCode (codeOf 3 1)
  | .serWrite => portOfCode (codeOf 4 0)
  | .desRead => portOfCode (codeOf 5 0)

/-- The instruction the decoder reads from a table word: every command is one 8-bit code (R61); the operand inputs, which
have no bits in the table, are 0. -/
def decodeTableWord (nbits w : Nat) : Option Instr :=
  if nbits = 8 ∧ w < 256 then
    match decode (portOfCode (BitVec.ofNat 8 w)) with
    | .instr i => some i
    | .reserved _ => none
  else none

end Sys2Proof
end

