-- ==== Sys2Proof/Machine/State.lean ====
section
/-! DEFINITION. The state of SPC (spec 10_state.md R10 to R28), its reset, and the reasons a step can stop. -/

namespace Sys2Proof.Machine

/-- A packer's registers (R11, R12; both instances, R16). -/
structure Packer where
  /-- The bits submitted since the last emitted byte, the first at bit 0. -/
  acc : Byte
  /-- How many bits are pending, 0 to 7. -/
  cnt : BitVec 3
deriving DecidableEq, Repr

/-- A packer with nothing pending (R27, R81). -/
def Packer.opened : Packer := { acc := 0x00, cnt := 0 }

/-- An unpacker's registers (R14, R15; both instances, R16). -/
structure Unpacker where
  /-- The byte last pulled from the source. -/
  cur : Byte
  /-- How many of its bits have been yielded, 0 to 8; 8 asks for a new byte. -/
  pos : BitVec 4
deriving DecidableEq, Repr

/-- An unpacker that holds no byte (R27, R91). -/
def Unpacker.opened : Unpacker := { cur := 0x00, pos := 8 }

/-- The phases of SER.WRITE (R20). -/
inductive SerPhase where
  | idle | check | magic | count | leaves | tbc | bits | flush
deriving DecidableEq, Repr

/-- The phases of DES.READ (R20). -/
inductive DesPhase where
  | idle | magic | count | leaves | tbc | measure | shape | msg
deriving DecidableEq, Repr

/-- The serializer's private packer, phase and working registers (R16, R19, R20). -/
structure Serializer where
  bw : Packer
  phase : SerPhase
  idx : Nat
  tbcv : BitVec 4
deriving DecidableEq, Repr

/-- The deserializer's private unpacker, phase and working registers (R16, R20, R21). -/
structure Deserializer where
  br : Unpacker
  phase : DesPhase
  L : BitVec 9
  tbc : Byte
  bitsRemaining : Int
  idx : Nat
deriving DecidableEq, Repr

/-- The fault latch (R22): code 0 while no fault has been raised since reset. -/
structure ErrLatch where
  code : BitVec 4
  sub : BitVec 2
deriving DecidableEq, Repr

/-- The latch with no fault in it (R22, R27). -/
def ErrLatch.clear : ErrLatch := { code := 0, sub := 0 }

/-- The named faults (R140; their codes are `Cause.code` in Machine/Flags.lean). -/
inductive Cause where
  | invalidBitValue
  | characterConfusion
  | invariantViolation
  | notThisFormat
  | truncatedHeader
  | invalidLeafCount
  | truncatedLeafTable
  | unexpectedEndOfInput
  | sinkWriteFailure
  | sourceReadFailure
deriving DecidableEq, Repr

/-- The two byte streams the environment owns (R24, R30): byte a of a space is the element at index a. -/
structure Memory where
  /-- SNK.data, the bytes the sink has accepted. -/
  snk : List Byte
  /-- SRC.data, the bytes of the source; no command changes it. -/
  src : List Byte
  /-- SRC.pos, the index of the next byte to read. -/
  srcPos : Nat
deriving DecidableEq, Repr

/-- The environment's answer to one SinkWrite (R32). -/
inductive WriteAnswer where
  | accepted | failed
deriving DecidableEq, Repr

/-- The environment's answer to one SourceRead of a byte that exists (R35). -/
inductive ReadAnswer where
  | delivered | failed
deriving DecidableEq, Repr

/-- What a command that ends `ok` hands back (R25). -/
inductive Result where
  /-- no result -/
  | nothing
  /-- a Bit: BIT.NEW, BIT.EQ, BIT.NE, BR.GET -/
  | bit (b : Bit)
  /-- a character: BIT.SHOW -/
  | char (c : Char)
deriving DecidableEq, Repr

/-- The outcome of the last command (R7): what the host gets back. The model's own field (log 2). -/
inductive Response where
  /-- no command has ended yet -/
  | nothingYet
  /-- the command ended `ok` -/
  | ok (r : Result)
  /-- the command raised a fault, which is latched (R145) -/
  | fault (c : Cause) (sub : BitVec 2)
  /-- the command was refused and changed nothing (R148) -/
  | refused
deriving DecidableEq, Repr

/-- The reasons the MODEL stops with a fault: none. A fault of SPC is no stop: it is latched and the block goes on answering
commands (R145, R148), so it is a next state; and SPC has no hang of its own (R151). -/
inductive Fault where
deriving DecidableEq, Repr

/-- The reasons the model has no meaning to give. -/
inductive Refusal where
  /-- An instruction that has no meaning yet; raised by `exec` alone. Safe. -/
  | notModelled (mnemonic : String)
  /-- More than LEAF_CAP = 256 leaves in CT, or offered to it: the spec calls this state unrepresentable (R17, D9, U11).
  Raised by `step` on a load of such a container and by SER.WRITE in such a state, which no run reaches. Safe: the model
  stops where the software might go on. -/
  | leavesOverCapacity
deriving DecidableEq, Repr

/-- The whole state: the spec's tuple (R10) and, after it, five fields of the model's own. Plain data. -/
structure State where
  /-- The standalone packer BW (R11, R12). -/
  bw : Packer
  /-- The standalone unpacker BR (R14, R15). -/
  br : Unpacker
  /-- The serializer SER (R16, R19, R20). -/
  ser : Serializer
  /-- The deserializer DES (R16, R20, R21). -/
  des : Deserializer
  /-- The container store CT (R17). -/
  ct : Container
  /-- The fault latch ERR (R22). -/
  err : ErrLatch
  /-- The byte streams SNK and SRC (R24). -/
  mem : Memory
  /-- The environment's coming answers to SinkWrite, the next one first; past its end every answer is accepted (log 5). -/
  snkAns : List WriteAnswer
  /-- The environment's coming answers to SourceRead, the next one first; past its end every answer is delivered (log 5). -/
  srcAns : List ReadAnswer
  /-- What the host does next, in order (log 1). -/
  host : List HostAction
  /-- The outcome of the last command (log 2). -/
  resp : Response
  /-- How many groups of free values have been taken (log 16). -/
  free : Nat
deriving DecidableEq, Repr

/-- The state after power-on (R27, R161). The working registers, which R27 leaves unspecified, are 0 (log 14); the streams,
which reset does not touch, are empty (log 17); the model's own fields are empty (logs 1, 2, 5, 16). -/
def State.reset : State where
  bw := Packer.opened
  br := Unpacker.opened
  ser := { bw := Packer.opened, phase := .idle, idx := 0, tbcv := 0 }
  des := { br := Unpacker.opened, phase := .idle, L := 0, tbc := 0, bitsRemaining := 0, idx := 0 }
  ct := Container.empty
  err := ErrLatch.clear
  mem := { snk := [], src := [], srcPos := 0 }
  snkAns := []
  srcAns := []
  host := []
  resp := .nothingYet
  free := 0

end Sys2Proof.Machine
end

