-- ==== Sys2Proof/Machine/Flags.lean ====
section
/-! DEFINITION. The status the machine keeps: SPC has no condition flags (spec 10_state.md R25); its one status is the fault
latch ERR. The codes and sub-causes it can hold (60_exceptions.md R140, R141). -/

namespace Sys2Proof.Machine

/-- `code(E)`, the value ERR.code takes (R140). -/
def Cause.code : Cause → BitVec 4
  | .invalidBitValue => 1
  | .characterConfusion => 2
  | .invariantViolation => 3
  | .notThisFormat => 4
  | .truncatedHeader => 5
  | .invalidLeafCount => 6
  | .truncatedLeafTable => 7
  | .unexpectedEndOfInput => 8
  | .sinkWriteFailure => 9
  | .sourceReadFailure => 10

/-- The sub-causes a fault can be latched with (R141). -/
def Cause.subs : Cause → List (BitVec 2)
  | .invariantViolation => [1, 2]
  | .notThisFormat => [1, 2]
  | .truncatedHeader => [1, 2]
  | .unexpectedEndOfInput => [0, 1, 2]
  | .invalidBitValue => [0]
  | .characterConfusion => [0]
  | .invalidLeafCount => [0]
  | .truncatedLeafTable => [0]
  | .sinkWriteFailure => [0]
  | .sourceReadFailure => [0]

/-- Every named fault, in the order of its code (R140). -/
def Cause.all : List Cause :=
  [.invalidBitValue, .characterConfusion, .invariantViolation, .notThisFormat, .truncatedHeader, .invalidLeafCount,
    .truncatedLeafTable, .unexpectedEndOfInput, .sinkWriteFailure, .sourceReadFailure]

/-- The latch holds nothing, or a fault of R140 with a sub-cause of R141; the codes 11 to 15 are never latched. -/
def ErrLatch.legal (e : ErrLatch) : Bool :=
  decide (e = ErrLatch.clear) || Cause.all.any fun c => decide (e.code = c.code) && c.subs.contains e.sub

end Sys2Proof.Machine
end

