-- ==== Sys2Proof/Machine/Operands.lean ====
section
/-! DEFINITION. The operand forms of SPC (spec 30_encoding.md R61): the integer operand of BIT.NEW, a Bit shifted into a
byte, a Bit taken out of one, the character of a Bit; and the field arithmetic of R65. -/

namespace Sys2Proof.Machine

/-- What BIT.NEW makes of its integer operand (R71): the whole value is compared, never its low bit or byte. -/
inductive Admission where
  | bit (b : Bit)
  | refuse (c : Cause)
deriving DecidableEq, Repr

/-- The tests of BIT.NEW in the order of its pseudocode: the specific fault is tested before the generic one (R71, R75). -/
def admission (opv : Int) : Admission :=
  if opv = 0 then .bit 0
  else if opv = 1 then .bit 1
  else if opv = Config.charZero ∨ opv = Config.charOne then .refuse .characterConfusion
  else .refuse .invalidBitValue

/-- A truth value as a Bit: 1 for true (R72, R73). -/
def bitOfBool (p : Bool) : Bit := if p then 1 else 0

/-- The rendering of a Bit: '1' or '0' (R74; log 22). -/
def rendering (b : Bit) : Char := if b = 1 then '1' else '0'

/-- The number of a rendering's character: CHAR_ONE for '1', CHAR_ZERO for '0' (R74). -/
def charCode (c : Char) : Int :=
  if c = '1' then Config.charOne else if c = '0' then Config.charZero else (c.toNat : Int)

/-- `zext_8(b) << k`: the Bit at position k of a byte (R82). -/
def bitAt (b : Bit) (k : Nat) : Byte := b.setWidth 8 <<< k

/-- `(v >> k) & 1`: the Bit at position k of a byte (R92). -/
def bitOf (v : Byte) (k : Nat) : Bit := (v >>> k).setWidth 1

/-- The trailing-bit count of n bits: n mod 8, with 0 stored as 8 (R8, R54). -/
def tbc (n : Nat) : Nat := if n % 8 = 0 then 8 else n % 8

/-- The biased leaf count, L − 1 as a byte (R52, R65); used only for 2 ≤ L ≤ 256, where nothing is cut off. -/
def biasedCount (L : Nat) : Byte := BitVec.ofNat 8 (L - 1)

/-- `zext_9(byte) + 1`: the leaf count a biased byte stands for, 1 to 256 (R52, R65, R122). -/
def unbiasedCount (b : Byte) : BitVec 9 := b.setWidth 9 + 1

/-- The tree-shape length of L leaves, 2L − 1 (R18, R65). -/
def shapeLength (L : Nat) : Nat := 2 * L - 1

/-- `(remainingBytes − 1) × 8 + tbc` on mathematical integers (R65, R125, D11). -/
def meaningfulBits (remainingBytes : Nat) (t : Byte) : Int := ((remainingBytes : Int) - 1) * 8 + (t.toNat : Int)

end Sys2Proof.Machine
end

