-- ==== Sys2Proof/Machine/Ops.lean ====
section
/-! DEFINITION. The shared operations: the byte streams (spec 20_memory.md), the environment's answers, packers and unpackers
(41_bit_writer.md, 42_bit_reader.md), taking a fault and reset (60_exceptions.md, 70_reset_and_hazards.md), the free values,
and the frame around every command. -/

namespace Sys2Proof.Machine

/-! ## The byte streams -/

/-- R34's bound on the source position. -/
def Memory.wf (m : Memory) : Bool := decide (m.srcPos ≤ m.src.length)

/-- Byte a of SNK, none where the sink has accepted no such byte (R24, R30). -/
def Memory.snkByte (m : Memory) (a : Nat) : Option Byte := m.snk[a]?

/-- Byte a of SRC, none past the end of the source (R24, R30). -/
def Memory.srcByte (m : Memory) (a : Nat) : Option Byte := m.src[a]?

/-- The address the next sink byte goes to: |SNK.data| (R24, R30). -/
def Memory.snkAddr (m : Memory) : Nat := m.snk.length

/-- `MemWrite(SNK, |SNK.data|, 1, b)`: append one byte (R32). -/
def Memory.append (m : Memory) (b : Byte) : Memory := { m with snk := m.snk ++ [b] }

/-- Advance the source position past one byte (R35). -/
def Memory.advance (m : Memory) : Memory := { m with srcPos := m.srcPos + 1 }

/-- The bytes not yet read, from SRC.pos to the end (R34; `y` of R129). -/
def Memory.unread (m : Memory) : List Byte := m.src.drop m.srcPos

/-- `SourceRemaining()` = |SRC.data| − SRC.pos (R36). -/
def Memory.remaining (m : Memory) : Nat := m.src.length - m.srcPos

/-! ## How a piece of a command ends -/

/-- A piece of a command's pseudocode either goes on, with a value and a state, or raises a fault with a sub-cause (R145). -/
inductive Res (α : Type) where
  | ok (a : α) (s : State)
  | raised (c : Cause) (sub : BitVec 2) (s : State)
deriving DecidableEq, Repr

/-- One piece after another: nothing after a raise is executed (R7, R145). -/
def Res.andThen {α β : Type} (r : Res α) (f : α → State → Res β) : Res β :=
  match r with
  | .ok a s => f a s
  | .raised c sub s => .raised c sub s

/-! ## The two packers and the two unpackers -/

/-- The packer instances (R16). -/
inductive PackerId where
  /-- the standalone packer, of BW.OPEN, BW.PUT, BW.CLOSE -/
  | bw
  /-- the serializer's private packer -/
  | serBw
deriving DecidableEq, Repr

/-- The unpacker instances (R16). -/
inductive UnpackerId where
  /-- the standalone unpacker, of BR.OPEN and BR.GET -/
  | br
  /-- the deserializer's private unpacker -/
  | desBr
deriving DecidableEq, Repr

/-- Read a packer's registers. -/
def State.packer (s : State) : PackerId → Packer
  | .bw => s.bw
  | .serBw => s.ser.bw

/-- Write a packer's registers. -/
def State.setPacker (s : State) : PackerId → Packer → State
  | .bw, p => { s with bw := p }
  | .serBw, p => { s with ser.bw := p }

/-- Read an unpacker's registers. -/
def State.unpacker (s : State) : UnpackerId → Unpacker
  | .br => s.br
  | .desBr => s.des.br

/-- Write an unpacker's registers. -/
def State.setUnpacker (s : State) : UnpackerId → Unpacker → State
  | .br, u => { s with br := u }
  | .desBr, u => { s with des.br := u }

/-! ## Free values: the state the spec treats as "any value" after an event -/

/-- The registers of a packer whose sink write failed (U10, U17; logs 11, 13). -/
def State.losePacker (s : State) (w : PackerId) : State :=
  { s.setPacker w { acc := Config.anyAcc s.free, cnt := Config.anyCnt s.free } with free := s.free + 1 }

/-- The registers of an unpacker after a failed source read, or after a faulted DES.READ (V-R14, U9; logs 12, 15). -/
def State.loseUnpacker (s : State) (u : UnpackerId) : State :=
  { s.setUnpacker u { cur := Config.anyCur s.free, pos := BitVec.ofNat 4 (Config.anyPos s.free).val } with
    free := s.free + 1 }

/-- The sink once a write failed: the accepted bytes, and then anything (U8, R33; log 10). -/
def State.loseSink (s : State) : State :=
  { s with mem.snk := s.mem.snk ++ Config.anySinkTail s.free, free := s.free + 1 }

/-- CT after a fault that leaves it undefined; it never holds more than LEAF_CAP leaves (U9, U10, R17; logs 12, 13). -/
def State.loseContainer (s : State) : State :=
  { s with
    ct := { shape := Config.anyShape s.free
            leaves := (Config.anyLeaves s.free).take Config.leafCap
            msg := Config.anyMsg s.free }
    free := s.free + 1 }

/-- The serializer's working registers between commands (U18, R19; log 14). -/
def State.loseSerWork (s : State) : State :=
  { s with ser.idx := Config.anySerIdx s.free, ser.tbcv := Config.anyTbcv s.free, free := s.free + 1 }

/-- The deserializer's working registers between commands (U18, R21; log 14). -/
def State.loseDesWork (s : State) : State :=
  { s with
    des.L := Config.anyL s.free
    des.tbc := Config.anyTbc s.free
    des.bitsRemaining := Config.anyBitsRemaining s.free
    des.idx := Config.anyDesIdx s.free
    free := s.free + 1 }

/-- The source position after a faulted DES.READ that began at `start`: anywhere from there to `limit` (U9, R24, R34;
log 12). -/
def State.loseSource (s : State) (start limit : Nat) : State :=
  { s with mem.srcPos := start + Config.anyAdvance s.free % (limit - start + 1), free := s.free + 1 }

/-! ## The environment's answers (R28, R32, R35, D21; log 5) -/

/-- The environment's answer to the next SinkWrite. -/
def State.writeAnswer (s : State) : WriteAnswer := s.snkAns.headD .accepted

/-- The environment's answer to the next SourceRead of a byte that exists. -/
def State.readAnswer (s : State) : ReadAnswer := s.srcAns.headD .delivered

/-- The sink accepts a byte. -/
def State.acceptByte (s : State) (b : Byte) : State :=
  { s with mem := s.mem.append b, snkAns := s.snkAns.tail }

/-- The source delivers the byte at its position. -/
def State.takeByte (s : State) : State := { s with mem := s.mem.advance, srcAns := s.srcAns.tail }

/-- `SinkWrite(b)`, the only way SPC writes (R32, R33). -/
def sinkWrite (b : Byte) (s : State) : Res Unit :=
  match s.writeAnswer with
  | .accepted => .ok () (s.acceptByte b)
  | .failed => .raised .sinkWriteFailure 0 { s.loseSink with snkAns := s.snkAns.tail }

/-- `SourceRead()`, the only way SPC reads (R35, R37): none is `exhausted`, which changes nothing and asks the environment
nothing (logs 19, 24). -/
def sourceRead (s : State) : Res (Option Byte) :=
  match s.mem.srcByte s.mem.srcPos with
  | none => .ok none s
  | some b =>
    match s.readAnswer with
    | .delivered => .ok (some b) s.takeByte
    | .failed => .raised .sourceReadFailure 0 { s with srcAns := s.srcAns.tail }

/-! ## Packer operations (R81, R82, R83) -/

/-- `Open(W)` (R81). -/
def packerOpen (w : PackerId) (s : State) : State := s.setPacker w Packer.opened

/-- The packer's accumulator with the new bit at position cnt (R82). -/
def Packer.with (p : Packer) (b : Bit) : Byte := p.acc ||| bitAt b p.cnt.toNat

/-- `Put(W, b)` (R82): the eighth bit of a group writes the byte. -/
def packerPut (w : PackerId) (b : Bit) (s : State) : Res Unit :=
  if (s.packer w).cnt = 7 then
    match sinkWrite ((s.packer w).with b) s with
    | .ok _ t => .ok () (t.setPacker w Packer.opened)
    | .raised c sub t => .raised c sub (t.losePacker w)
  else .ok () (s.setPacker w { acc := (s.packer w).with b, cnt := (s.packer w).cnt + 1 })

/-- `Close(W)` (R83): pending bits are flushed as they are, the unused high bits being zero already (R13). -/
def packerClose (w : PackerId) (s : State) : Res Unit :=
  if (s.packer w).cnt = 0 then .ok () (s.setPacker w Packer.opened)
  else
    match sinkWrite (s.packer w).acc s with
    | .ok _ t => .ok () (t.setPacker w Packer.opened)
    | .raised c sub t => .raised c sub (t.losePacker w)

/-! ## Unpacker operations (R91, R92) -/

/-- `Open(Rd)` (R91). -/
def unpackerOpen (u : UnpackerId) (s : State) : State := s.setUnpacker u Unpacker.opened

/-- The last two lines of `Get(Rd)`: yield the bit at pos and count it (R92). -/
def unpackerYield (u : UnpackerId) (s : State) : Res Bit :=
  .ok (bitOf (s.unpacker u).cur (s.unpacker u).pos.toNat)
    (s.setUnpacker u { cur := (s.unpacker u).cur, pos := (s.unpacker u).pos + 1 })

/-- `Get(Rd)` (R92), with the sub-cause its caller gives UnexpectedEndOfInput (R92, R126, R127). -/
def unpackerGet (u : UnpackerId) (sub : BitVec 2) (s : State) : Res Bit :=
  if (s.unpacker u).pos = 8 then
    match sourceRead s with
    | .ok none t => .raised .unexpectedEndOfInput sub t
    | .ok (some r) t => unpackerYield u (t.setUnpacker u { cur := r, pos := 0 })
    | .raised c sb t => .raised c sb (t.loseUnpacker u)
  else unpackerYield u s

/-! ## Faults, recovery, and the frame around a command -/

/-- `raise E(sub)` (R145): latch the fault, both phases to IDLE, hand back no result. Nothing is saved and there is no
handler to go to. -/
def State.takeFault (s : State) (c : Cause) (sub : BitVec 2) : State :=
  { s with
    err := { code := c.code, sub := sub }
    ser.phase := .idle
    des.phase := .idle
    resp := .fault c sub }

/-- What SYS.RESET writes, the only way back from a fault (R147, R160): the units, CT and the latch, not the streams. -/
def State.resetUnits (s : State) : State :=
  { s with
    bw := Packer.opened
    br := Unpacker.opened
    ser.bw := Packer.opened
    ser.phase := .idle
    des.br := Unpacker.opened
    des.phase := .idle
    ct := Container.empty
    err := ErrLatch.clear }

/-- The state after SYS.RESET (R27, R160): the working registers, which R27 leaves unspecified, are free values (log 14). -/
def State.resetState (s : State) : State := (s.resetUnits.loseSerWork).loseDesWork

/-- The outcome a command hands to the host (R7, R25). -/
def State.respond (s : State) (r : Response) : State := { s with resp := r }

/-- Every command but SYS.RESET: refused, changing nothing, while a fault is latched (R147, R148); otherwise run to its end,
`ok` or by taking a fault (R145). -/
def runCommand (body : State → Res Result) (s : State) : Host.Outcome State Fault Refusal :=
  if s.err.code = 0 then
    match body s with
    | .ok r t => .next (t.respond (.ok r))
    | .raised c sub t => .next (t.takeFault c sub)
  else .next (s.respond .refused)

end Sys2Proof.Machine
end

