-- ==== Sys2Proof/Machine/Channel.lean ====
section
/-! DEFINITION. How a step takes what the host does next (spec 20_memory.md R38, 30_encoding.md R61, R63); Step.lean calls
it. -/

namespace Sys2Proof.Machine

/-- The host's next action is taken off its list. -/
def State.popHost (s : State) : State := { s with host := s.host.tail }

/-- A reserved code: refused, nothing changes, no fault is latched (R63, R148). -/
def refuseCode (s : State) : Host.Outcome State Fault Refusal := .next (s.respond .refused)

/-- The host replaces CT (R38). No command, so a latched fault does not refuse it; the host cannot load more than 256 leaves
(R17, D9, U11). -/
def loadContainer (c : Container) (s : State) : Host.Outcome State Fault Refusal :=
  if c.fits then .next { s with ct := c } else .refused .leavesOverCapacity

/-- No action of the host: nothing happens to SPC (R143). -/
def idleStep (s : State) : Host.Outcome State Fault Refusal := .next s

/-- The command channel with a table word on it, the operand inputs at 0 (R61). -/
def portOfWord (_nbits w : Nat) : Port := portOfCode (BitVec.ofNat 8 w)

/-- The host issues a command next, before anything else it means to do. -/
def State.issueNext (s : State) (p : Port) : State := { s with host := .issue p :: s.host }

end Sys2Proof.Machine
end

