-- ==== Sys2Proof/Machine/BitUnit.lean ====
section
/-! DEFINITION. The Bit unit: BIT.NEW, BIT.EQ, BIT.NE, BIT.SHOW (spec 40_bit.md). No command of it touches SNK, SRC, CT, BW or
BR. -/

namespace Sys2Proof.Machine

/-- BIT.NEW (R71). -/
def bitNew (opv : Int) (s : State) : Res Result :=
  match admission opv with
  | .bit b => .ok (.bit b) s
  | .refuse c => .raised c 0 s

/-- BIT.NEW opv (R71). -/
def execBitNew (opv : Int) (s : State) : Host.Outcome State Fault Refusal := runCommand (bitNew opv) s

/-- BIT.EQ opa, opb (R72). -/
def execBitEq (opa opb : Bit) (s : State) : Host.Outcome State Fault Refusal :=
  runCommand (fun t => .ok (.bit (bitOfBool (opa == opb))) t) s

/-- BIT.NE opa, opb (R73). -/
def execBitNe (opa opb : Bit) (s : State) : Host.Outcome State Fault Refusal :=
  runCommand (fun t => .ok (.bit (bitOfBool (opa != opb))) t) s

/-- BIT.SHOW opa (R74): the character is the command's result and goes nowhere else. -/
def execBitShow (opa : Bit) (s : State) : Host.Outcome State Fault Refusal :=
  runCommand (fun t => .ok (.char (rendering opa)) t) s

end Sys2Proof.Machine
end

