-- ==== Sys2Proof/Machine/Deserializer.lean ====
section
/-! DEFINITION. The container deserializer: DES.READ (spec 44_deserializer.md), phase by phase in the order of R120. -/

namespace Sys2Proof.Machine

/-- `DES.phase <- p`, with the phase's counter DES.idx at 0 (R20, R21; log 4). -/
def State.enterDes (s : State) (p : DesPhase) : State := { s with des.phase := p, des.idx := 0 }

/-- Count one byte or bit of the present phase (R21). -/
def State.countDes (s : State) : State := { s with des.idx := s.des.idx + 1 }

/-- The byte a SourceRead answered, or, for `exhausted`, the fault that the step names (R35). -/
def byteOr (c : Cause) (sub : BitVec 2) (r : Option Byte) (t : State) : Res Byte :=
  match r with
  | none => .raised c sub t
  | some b => .ok b t

/-- SourceRead, with `exhausted` turned into the fault that the step names (R35). -/
def desByte (c : Cause) (sub : BitVec 2) (s : State) : Res Byte := (sourceRead s).andThen (byteOr c sub)

/-- Push a leaf byte to CT.leaves and count it (R123). -/
def State.pushLeaf (s : State) (b : Byte) : State := ({ s with ct.leaves := s.ct.leaves ++ [b] } : State).countDes

/-- Push a bit to CT.shape: one meaningful bit less (R126). -/
def State.pushShape (s : State) (b : Bit) : State :=
  ({ s with ct.shape := s.ct.shape ++ [b], des.bitsRemaining := s.des.bitsRemaining - 1 } : State).countDes

/-- Push a bit to CT.msg: one meaningful bit less (R127). -/
def State.pushMsg (s : State) (b : Bit) : State :=
  ({ s with ct.msg := s.ct.msg ++ [b], des.bitsRemaining := s.des.bitsRemaining - 1 } : State).countDes

/-- The first line of R120: a new container (R128, D25). -/
def State.clearCt (s : State) : State := { s with ct := Container.empty }

/-- Read n bytes of the magic field; a byte that is not there is NotThisFormat(1) (R121). -/
def desMagicBytes : Nat → State → Res (List Byte)
  | 0, s => .ok [] s
  | n + 1, s =>
    (desByte .notThisFormat 1 s).andThen fun b t =>
    (desMagicBytes n t.countDes).andThen fun bs u => .ok (b :: bs) u

/-- Step 1 (R121): four bytes are read before any is compared. -/
def desMagic (magic : List Byte) (s : State) : Res Unit :=
  (desMagicBytes 4 (s.enterDes .magic)).andThen fun g t =>
    if g = magic then .ok () t else .raised .notThisFormat 2 t

/-- Step 2 (R122): the biased leaf count. -/
def desCount (s : State) : Res Unit :=
  (desByte .truncatedHeader 1 (s.enterDes .count)).andThen fun r t =>
    let u := { t.countDes with des.L := unbiasedCount r }
    if u.des.L.toNat < 2 then .raised .invalidLeafCount 0 u else .ok () u

/-- Read n leaf bytes, pushing each to CT.leaves (R123). -/
def desLeafBytes : Nat → State → Res Unit
  | 0, s => .ok () s
  | n + 1, s =>
    (desByte .truncatedLeafTable 0 s).andThen fun b t => desLeafBytes n (t.pushLeaf b)

/-- Step 3 (R123): the leaf table. -/
def desLeaves (s : State) : Res Unit := desLeafBytes s.des.L.toNat (s.enterDes .leaves)

/-- Step 4 (R124): the trailing-bit count, as it is read. -/
def desTbc (s : State) : Res Unit :=
  (desByte .truncatedHeader 2 (s.enterDes .tbc)).andThen fun r t => .ok () { t.countDes with des.tbc := r }

/-- Step 5 (R125): the count of meaningful bits, a mathematical integer. -/
def desMeasure (s : State) : Res Unit :=
  let t := s.enterDes .measure
  .ok () { t with des.bitsRemaining := meaningfulBits t.mem.remaining t.des.tbc }

/-- Read n tree-shape bits, pushing each to CT.shape, while meaningful bits remain (R126, D12). -/
def desShapeBits : Nat → State → Res Unit
  | 0, s => .ok () s
  | n + 1, s =>
    if s.des.bitsRemaining ≤ 0 then .raised .unexpectedEndOfInput 1 s
    else
      (unpackerGet .desBr 1 s).andThen fun b t => desShapeBits n (t.pushShape b)

/-- Step 6, first part (R126): 2L − 1 bits through the private unpacker opened here. -/
def desShape (s : State) : Res Unit :=
  let t := unpackerOpen .desBr (s.enterDes .shape)
  desShapeBits (shapeLength t.des.L.toNat) t

/-- `while DES.bitsRemaining > 0` (R127), run for the number of turns given, one meaningful bit a turn. -/
def desMsgBits : Nat → State → Res Unit
  | 0, s => .ok () s
  | n + 1, s =>
    (unpackerGet .desBr 2 s).andThen fun b t => desMsgBits n (t.pushMsg b)

/-- Step 6, second part (R127): the loop makes bitsRemaining turns, none when it is zero or negative. -/
def desMsg (s : State) : Res Unit :=
  let t := s.enterDes .msg
  desMsgBits t.des.bitsRemaining.toNat t

/-- Steps 1 to 6 (R120). -/
def desStream (magic : List Byte) (s : State) : Res Unit :=
  (desMagic magic s).andThen fun _ s1 =>
  (desCount s1).andThen fun _ s2 =>
  (desLeaves s2).andThen fun _ s3 =>
  (desTbc s3).andThen fun _ s4 =>
  (desMeasure s4).andThen fun _ s5 =>
  (desShape s5).andThen fun _ s6 =>
  desMsg s6

/-- Step 7 (R128): DES.phase back to IDLE; the working registers carry nothing on (R21, U18). -/
def State.endDes (s : State) : State := { s.loseDesWork with des.phase := .idle }

/-- How far a faulted DES.READ may have moved the source: to its end, and after NotThisFormat not past the magic field
(R24, R34, R133). -/
def sourceLimit (c : Cause) (m : Memory) (start : Nat) : Nat :=
  if c = .notThisFormat then min (start + 4) m.src.length else m.src.length

/-- What a fault leaves of a DES.READ that began at `start`: CT, DES.br, the working registers and, within its limit, SRC.pos
are any value (R128, R133, U9, U18, 90_conflicts.md C8). -/
def State.abandonDes (s : State) (c : Cause) (start : Nat) : State :=
  (((s.loseContainer).loseUnpacker .desBr).loseDesWork).loseSource start (sourceLimit c s.mem start)

/-- DES.READ for given magic bytes (R120). -/
def desRead (magic : List Byte) (s : State) : Res Result :=
  match desStream magic s.clearCt with
  | .ok _ t => .ok .nothing t.endDes
  | .raised c sub t => .raised c sub (t.abandonDes c s.mem.srcPos)

/-- DES.READ (R120). -/
def execDesRead (s : State) : Host.Outcome State Fault Refusal := runCommand (desRead Config.magicBytes) s

end Sys2Proof.Machine
end

