-- ==== Sys2Proof/Machine/Reader.lean ====
section
/-! DEFINITION. The bit-stream reader: BR.OPEN, BR.GET on the standalone unpacker (spec 42_bit_reader.md). -/

namespace Sys2Proof.Machine

/-- BR.OPEN (R91): no byte is pulled; unread bits of the byte held are dropped. -/
def execBrOpen (s : State) : Host.Outcome State Fault Refusal :=
  runCommand (fun t => .ok .nothing (unpackerOpen .br t)) s

/-- BR.GET (R92); the standalone reader's UnexpectedEndOfInput has sub-cause 0 (R141). -/
def execBrGet (s : State) : Host.Outcome State Fault Refusal :=
  runCommand (fun t => (unpackerGet .br 0 t).andThen fun b u => .ok (.bit b) u) s

end Sys2Proof.Machine
end

