-- ==== Sys2Proof/Machine/Serializer.lean ====
section
/-! DEFINITION. The container serializer: SER.WRITE (spec 43_serializer.md), phase by phase in the order of R100. -/

namespace Sys2Proof.Machine

/-- `SER.phase <- p`, with the phase's counter SER.idx at 0 (R19, R20; log 4). -/
def State.enterSer (s : State) (p : SerPhase) : State := { s with ser.phase := p, ser.idx := 0 }

/-- Count one byte or bit of the present phase (R19). -/
def State.countSer (s : State) : State := { s with ser.idx := s.ser.idx + 1 }

/-- Step 1 (R101): L ≥ 2 is tested first, then the tree-shape length; nothing is written or popped. -/
def serCheck (s : State) : Res Unit :=
  let t := s.enterSer .check
  if t.ct.leaves.length < 2 then .raised .invariantViolation 1 t
  else if t.ct.shape.length ≠ shapeLength t.ct.leaves.length then .raised .invariantViolation 2 t
  else .ok () t

/-- Some bytes to the sink, one SinkWrite each, in order (R32, D4). -/
def serWriteBytes : List Byte → State → Res Unit
  | [], s => .ok () s
  | b :: bs, s => (sinkWrite b s).andThen fun _ t => serWriteBytes bs t.countSer

/-- Step 2 (R102): the four magic bytes, M0 first. -/
def serMagic (magic : List Byte) (s : State) : Res Unit := serWriteBytes magic (s.enterSer .magic)

/-- Step 3 (R103): the byte L − 1, L being the occupancy before the leaves are drained. -/
def serCount (s : State) : Res Unit := sinkWrite (biasedCount s.ct.leaves.length) (s.enterSer .count)

/-- Pop each of these leaves, which are what CT.leaves holds, and write it (R104). -/
def serDrainLeaves : List Byte → State → Res Unit
  | [], s => .ok () s
  | b :: bs, s =>
    (sinkWrite b { s with ct.leaves := bs }).andThen fun _ t => serDrainLeaves bs t.countSer

/-- Step 4 (R104): the leaf bytes, draining CT.leaves. -/
def serLeaves (s : State) : Res Unit := serDrainLeaves s.ct.leaves (s.enterSer .leaves)

/-- SER.tbcv from the two occupancies, before any bit is drained (R105). -/
def State.computeTbc (s : State) : State :=
  { s with ser.tbcv := BitVec.ofNat 4 (tbc (s.ct.shape.length + s.ct.msg.length)) }

/-- Step 5 (R105): the trailing-bit count, one byte. -/
def serTbc (s : State) : Res Unit :=
  let t := (s.enterSer .tbc).computeTbc
  sinkWrite (t.ser.tbcv.setWidth 8) t

/-- Pop each of these bits, which are what CT.shape holds, and put it (R106). -/
def serDrainShape : List Bit → State → Res Unit
  | [], s => .ok () s
  | b :: bs, s =>
    (packerPut .serBw b { s with ct.shape := bs }).andThen fun _ t => serDrainShape bs t.countSer

/-- Pop each of these bits, which are what CT.msg holds, and put it (R106). -/
def serDrainMsg : List Bit → State → Res Unit
  | [], s => .ok () s
  | b :: bs, s =>
    (packerPut .serBw b { s with ct.msg := bs }).andThen fun _ t => serDrainMsg bs t.countSer

/-- Step 6, the bits (R106): every tree-shape bit, then every message bit, through the private packer opened here. -/
def serBits (s : State) : Res Unit :=
  let t := packerOpen .serBw (s.enterSer .bits)
  (serDrainShape t.ct.shape t).andThen fun _ u => serDrainMsg u.ct.msg u

/-- Step 6, disposal (R107). -/
def serFlush (s : State) : Res Unit := packerClose .serBw (s.enterSer .flush)

/-- Steps 2 to 6 (R100). -/
def serStream (magic : List Byte) (s : State) : Res Unit :=
  (serMagic magic s).andThen fun _ s2 =>
  (serCount s2).andThen fun _ s3 =>
  (serLeaves s3).andThen fun _ s4 =>
  (serTbc s4).andThen fun _ s5 =>
  (serBits s5).andThen fun _ s6 =>
  serFlush s6

/-- SER.phase back to IDLE at a successful end (R100); the working registers carry nothing on (R19, U18). -/
def State.endSer (s : State) : State := { s.loseSerWork with ser.phase := .idle }

/-- What a failed sink write leaves of SER.WRITE: CT, SER.bw and the working registers are any value (R110, U10, U18). -/
def State.abandonSer (s : State) : State := ((s.loseContainer).losePacker .serBw).loseSerWork

/-- SER.WRITE for given magic bytes (R100). A container that fails step 1 changes nothing but ERR (R101, R108), so nothing is
lost there; a fault of a later step is a failed sink write (R110). -/
def serWrite (magic : List Byte) (s : State) : Res Result :=
  match serCheck s with
  | .raised c sub _ => .raised c sub s
  | .ok _ t =>
    match serStream magic t with
    | .ok _ u => .ok .nothing u.endSer
    | .raised c sub u => .raised c sub u.abandonSer

/-- SER.WRITE (R100). With more than 256 leaves in CT, a state the spec calls unrepresentable, the model refuses (U11). -/
def execSerWrite (s : State) : Host.Outcome State Fault Refusal :=
  if s.err.code = 0 ∧ s.ct.fits = false then .refused .leavesOverCapacity
  else runCommand (serWrite Config.magicBytes) s

end Sys2Proof.Machine
end

