-- ==== Sys2Proof/Machine/Sys.lean ====
section
/-! DEFINITION. The SYS unit: SYS.RESET (spec 70_reset_and_hazards.md). -/

namespace Sys2Proof.Machine

/-- SYS.RESET (R160): never refused, never faults; the only command that runs while a fault is latched (R147). -/
def execSysReset (s : State) : Host.Outcome State Fault Refusal :=
  .next (s.resetState.respond (.ok .nothing))

end Sys2Proof.Machine
end

