-- ==== Sys2Proof/Machine/Writer.lean ====
section
/-! DEFINITION. The bit-stream writer: BW.OPEN, BW.PUT, BW.CLOSE on the standalone packer (spec 41_bit_writer.md). -/

namespace Sys2Proof.Machine

/-- BW.OPEN (R81): pending bits are dropped, the sink is not touched. -/
def execBwOpen (s : State) : Host.Outcome State Fault Refusal :=
  runCommand (fun t => .ok .nothing (packerOpen .bw t)) s

/-- BW.PUT opa (R82). -/
def execBwPut (opa : Bit) (s : State) : Host.Outcome State Fault Refusal :=
  runCommand (fun t => (packerPut .bw opa t).andThen fun _ u => .ok .nothing u) s

/-- BW.CLOSE (R83). -/
def execBwClose (s : State) : Host.Outcome State Fault Refusal :=
  runCommand (fun t => (packerClose .bw t).andThen fun _ u => .ok .nothing u) s

end Sys2Proof.Machine
end

