-- ==== Sys2Proof/Machine/Dispatch.lean ====
section
/-! DEFINITION. One arm per command. -/

namespace Sys2Proof.Machine

def exec (i : Instr) (s : State) : Host.Outcome State Fault Refusal :=
  match i with
  | .sysReset => Sys2Proof.Machine.execSysReset s
  | .bitNew opv => Sys2Proof.Machine.execBitNew opv s
  | .bitEq opa opb => Sys2Proof.Machine.execBitEq opa opb s
  | .bitNe opa opb => Sys2Proof.Machine.execBitNe opa opb s
  | .bitShow opa => Sys2Proof.Machine.execBitShow opa s
  | .bwOpen => Sys2Proof.Machine.execBwOpen s
  | .bwPut opa => Sys2Proof.Machine.execBwPut opa s
  | .bwClose => Sys2Proof.Machine.execBwClose s
  | .brOpen => Sys2Proof.Machine.execBrOpen s
  | .brGet => Sys2Proof.Machine.execBrGet s
  | .serWrite => Sys2Proof.Machine.execSerWrite s
  | .desRead => Sys2Proof.Machine.execDesRead s

end Sys2Proof.Machine
end

