-- ==== Sys2Proof/Machine/Step.lean ====
section
/-! DEFINITION. One step: the host's next action, a command run from its decoding to its end or a replacement of CT
(spec 00_scope.md R5, 30_encoding.md R61; logs 1, 3, 25). -/

namespace Sys2Proof.Machine

/-- One step of SPC. -/
def step (s : State) : Host.Outcome State Fault Refusal :=
  match s.host with
  | [] => idleStep s
  | .loadCT c :: _ => loadContainer c s.popHost
  | .issue p :: _ =>
    match decode p with
    | .instr i => exec i s.popHost
    | .reserved _ => refuseCode s.popHost

/-- `s` with an instruction's word where the next step takes its command from: the head of the host's list (log 1). -/
def State.withFetchWord (s : State) (nbits w : Nat) : State := s.issueNext (portOfWord nbits w)

end Sys2Proof.Machine
end

