-- ==== Sys2Proof/Machine/Format.lean ====
section
/-! DEFINITION. The container format as pure functions of the spec (00_scope.md R8, 30_encoding.md R50, 44_deserializer.md
R129): pack, unpack, valid, encode, decode. The machine does not call them; statements compare it with them. -/

namespace Sys2Proof.Machine

/-- `byte_j` of pack: the sum of the group's bits, each at its place; a group cut short has zeros above (R8, R57, R58). -/
def packByte (bits : List Bit) (j : Nat) : Byte :=
  ((List.range 8).map fun i => bitAt (bits.getD (8 * j + i) 0) i).sum

/-- `pack(bits)`: ceil(n / 8) bytes (R8). -/
def pack (bits : List Bit) : List Byte := (List.range ((bits.length + 7) / 8)).map (packByte bits)

/-- `unpack(bytes, n)`: the first n bits, bit k being bit k mod 8 of byte k div 8 (R8); used for n ≤ 8 × |bytes|. -/
def unpack (bytes : List Byte) (n : Nat) : List Bit :=
  (List.range n).map fun k => bitOf (bytes.getD (k / 8) 0) (k % 8)

/-- `valid(c)`, the container invariant (R8, R18). -/
def containerValid (c : Container) : Bool :=
  decide (2 ≤ c.leaves.length) && decide (c.shape.length = shapeLength c.leaves.length)

/-- The total number of bits of a container, T (R50). -/
def containerBits (c : Container) : Nat := c.shape.length + c.msg.length

/-- `encode(c)` for given magic bytes (R8, R50); used for a valid container of at most 256 leaves. -/
def encodeContainer (magic : List Byte) (c : Container) : List Byte :=
  magic ++ [biasedCount c.leaves.length] ++ c.leaves ++ [BitVec.ofNat 8 (tbc (containerBits c))] ++ pack (c.shape ++ c.msg)

/-- The outcome of DES.READ as a function of the source (R129). -/
inductive Decoding where
  | ok (c : Container)
  | fault (c : Cause) (sub : BitVec 2)
deriving DecidableEq, Repr

/-- L of R129: the biased byte at offset 4, plus one. -/
def leafCountOf (y : List Byte) : Nat := (y.getD 4 0).toNat + 1

/-- n of R129: how many bytes the bitstream region has. -/
def regionBytes (y : List Byte) : Nat := y.length - (6 + leafCountOf y)

/-- B of R129: how many meaningful bits the region is said to have. -/
def regionBits (y : List Byte) : Int := meaningfulBits (regionBytes y) (y.getD (5 + leafCountOf y) 0)

/-- The container that R129's last line reads. -/
def regionContainer (y : List Byte) : Container :=
  let L := leafCountOf y
  let bits := unpack (y.drop (6 + L)) (regionBits y).toNat
  { shape := bits.take (shapeLength L), leaves := (y.drop 5).take L, msg := bits.drop (shapeLength L) }

/-- `decode(y)` for given magic bytes, line by line (R129). -/
def decodeContainer (magic y : List Byte) : Decoding :=
  let L := leafCountOf y
  if y.length < 4 then .fault .notThisFormat 1
  else if y.take 4 ≠ magic then .fault .notThisFormat 2
  else if y.length < 5 then .fault .truncatedHeader 1
  else if L < 2 then .fault .invalidLeafCount 0
  else if y.length < 5 + L then .fault .truncatedLeafTable 0
  else if y.length < 6 + L then .fault .truncatedHeader 2
  else if min (regionBits y) (8 * (regionBytes y : Int)) < (shapeLength L : Int) then .fault .unexpectedEndOfInput 1
  else if regionBits y > 8 * (regionBytes y : Int) then .fault .unexpectedEndOfInput 2
  else .ok (regionContainer y)

/-- How many bytes DES.READ asks the source for before it ends as `decode` says, the read that finds the source at its end apart
(R120, R132, R133): all there are, the four of a foreign magic, or the header, the leaf table and as much of the bitstream region
as holds the bits it reads. -/
def bytesTaken (magic y : List Byte) : Nat :=
  if y.length < 4 then y.length
  else if y.take 4 ≠ magic ∨ y.length < 5 then 4
  else if leafCountOf y < 2 then 5
  else if y.length < 6 + leafCountOf y then y.length
  else 6 + leafCountOf y + ((min (regionBits y) (8 * (regionBytes y : Int))).toNat + 7) / 8

end Sys2Proof.Machine
end

