-- ==== Sys2Proof/Safety.lean ====
section
/-! DEFINITION. The terms claims about SPC use: when a run has not gone wrong (spec 60_exceptions.md R151), the launch premises
about the environment (20_memory.md R33, R37), the invariant of the state, and short runs of commands. -/

namespace Sys2Proof.Machine

/-- No fault is latched: the premise every claim about a run takes (R151). -/
abbrev State.Unlatched (s : State) : Prop := s.err.code = 0

/-- The launch premise SinkNeverFails: every answer to a SinkWrite is *accepted* (R33, D21). -/
abbrev State.SinkNeverFails (s : State) : Prop := ∀ a ∈ s.snkAns, a = .accepted

/-- The launch premise SourceNeverFails: no answer to a SourceRead is *failed* (R37, D21). -/
abbrev State.SourceNeverFails (s : State) : Prop := ∀ a ∈ s.srcAns, a = .delivered

/-- R13: every bit of the accumulator at position cnt or higher is zero. -/
abbrev Packer.Clean (p : Packer) : Prop := p.acc >>> p.cnt.toNat = 0

/-- R15: pos is 0 to 8. -/
abbrev Unpacker.InRange (u : Unpacker) : Prop := u.pos.toNat ≤ 8

/-- What holds between commands of every state a run reaches: the source position is inside the source (R34), CT holds at
most 256 leaves (R17), both phases are IDLE (R20), ERR holds nothing or a fault of R140 with a sub-cause of R141, the
unpackers' positions are 0 to 8 (R15), and, unless a SinkWriteFailure (code 9) has left the packers undefined (U10, U17), the
standalone packer is clean (R13) and the serializer's is empty (R16; log 21). -/
abbrev State.Inv (s : State) : Prop :=
  s.mem.wf = true ∧ s.ct.fits = true ∧ s.ser.phase = .idle ∧ s.des.phase = .idle ∧ s.err.legal = true ∧
  s.br.InRange ∧ s.des.br.InRange ∧
  (s.err.code ≠ Cause.sinkWriteFailure.code → s.bw.Clean ∧ s.ser.bw = Packer.opened)

/-- Commands one after the other, each from the state the one before left. -/
def execAll : List Instr → State → Host.Outcome State Fault Refusal
  | [], s => .next s
  | i :: is, s =>
    match exec i s with
    | .next t => execAll is t
    | .fault r => .fault r
    | .refused r => .refused r

/-- `BR.GETN n` (R64): the results of n BR.GET in order and the state after the last, none when one of them does not hand
back a Bit. -/
def getBits : Nat → State → Option (List Bit × State)
  | 0, s => some ([], s)
  | n + 1, s =>
    match exec .brGet s with
    | .next t =>
      match t.resp with
      | .ok (.bit b) => (getBits n t).map fun r => (b :: r.1, r.2)
      | _ => none
    | _ => none

/-- The same state but for the registers that carry nothing from one command to the next (R19, R21, U18). -/
def State.withWork (s w : State) : State :=
  { s with
    ser.idx := w.ser.idx
    ser.tbcv := w.ser.tbcv
    des.L := w.des.L
    des.tbc := w.des.tbc
    des.bitsRemaining := w.des.bitsRemaining
    des.idx := w.des.idx }

end Sys2Proof.Machine
end

