-- ==== Sys2Proof/Certificates/Slice0/Obligations.lean ====
section
/-! DEFINITION. The statements for the provers, in the order of OBLIGATIONS.json. Each docstring names the rule it follows; a
clause that rests on a choice of the model says so and names the log entry. -/

open Sys2Proof Sys2Proof.Machine

/-! ## The command channel -/

/-- R62: each of the twelve codes is its command, with the operands that stand on the operand inputs. -/
def Obligations.AssignedCodesDecode : Prop :=
  ∀ (v : Int) (a b : Bit),
    decode ⟨0x00, v, a, b⟩ = .instr .sysReset ∧
    decode ⟨0x10, v, a, b⟩ = .instr (.bitNew v) ∧
    decode ⟨0x11, v, a, b⟩ = .instr (.bitEq a b) ∧
    decode ⟨0x12, v, a, b⟩ = .instr (.bitNe a b) ∧
    decode ⟨0x13, v, a, b⟩ = .instr (.bitShow a) ∧
    decode ⟨0x20, v, a, b⟩ = .instr .bwOpen ∧
    decode ⟨0x21, v, a, b⟩ = .instr (.bwPut a) ∧
    decode ⟨0x22, v, a, b⟩ = .instr .bwClose ∧
    decode ⟨0x30, v, a, b⟩ = .instr .brOpen ∧
    decode ⟨0x31, v, a, b⟩ = .instr .brGet ∧
    decode ⟨0x40, v, a, b⟩ = .instr .serWrite ∧
    decode ⟨0x50, v, a, b⟩ = .instr .desRead

/-- R63: a code outside the table is refused, whatever state SPC is in, and nothing but the model's own fields (the host's list
moves on, the response says `refused`: logs 1, 2, 3) changes; 244 codes are so; and operands a command does not use are
ignored. -/
def Obligations.ReservedCodesAreRefused : Prop :=
  (∀ (s : State) (p : Port) (rest : List HostAction), s.host = .issue p :: rest → p.cmd ∉ assignedCodes →
    step s = .next { s with host := rest, resp := .refused }) ∧
  ((List.range 256).filter fun n => !assignedCodes.contains (BitVec.ofNat 8 n)).length = 244 ∧
  (∀ p q : Port, p.cmd = q.cmd →
    (p.cmd ∈ [0x00, 0x20, 0x22, 0x30, 0x31, 0x40, 0x50] → decode p = decode q) ∧
    (p.cmd = 0x10 → p.opv = q.opv → decode p = decode q) ∧
    (p.cmd ∈ [0x13, 0x21] → p.opa = q.opa → decode p = decode q) ∧
    (p.cmd ∈ [0x11, 0x12] → p.opa = q.opa → p.opb = q.opb → decode p = decode q))

/-- R61, R62: decoding an encoded command gives it back with every operand, and a port that decodes to a command carries that
command's code. -/
def Obligations.DecodeAndEncodeAgree : Prop :=
  (∀ i : Instr, i.wellFormed = true → decode (encode i) = .instr i) ∧
  (∀ (p : Port) (i : Instr), decode p = .instr i → p.wellFormed = true ∧ (encode i).cmd = p.cmd)

/-- The model's step (log 1): when the host's next action issues a port that decodes to i, the step is exec of i, the action
taken off the host's list. -/
def Obligations.StepRunsTheDecodedCommand : Prop :=
  ∀ (s : State) (p : Port) (i : Instr) (rest : List HostAction), s.host = .issue p :: rest → decode p = .instr i →
    step s = exec i { s with host := rest }

/-- R38 and the model's step (logs 1, 9, 25): a load replaces CT whole and touches nothing else, latched fault or not; one of more
than 256 leaves is refused by the model; with no action of the host nothing happens. -/
def Obligations.HostLoadsReplaceCt : Prop :=
  ∀ (s : State) (c : Container) (rest : List HostAction),
    (s.host = .loadCT c :: rest → c.leaves.length ≤ 256 → step s = .next { s with host := rest, ct := c }) ∧
    (s.host = .loadCT c :: rest → 256 < c.leaves.length → step s = .refused .leavesOverCapacity) ∧
    (s.host = [] → step s = .next s)

/-! ## Reset -/

/-- R160: what SYS.RESET writes, and that it writes nothing else; it runs in every state, and it is the only command that does
something while a fault is latched. Of the working registers, which R27 leaves unspecified, nothing is said. -/
def Obligations.SysResetResult : Prop :=
  ∀ s : State,
    (∃ t : State, exec .sysReset s = .next t ∧
      t = { s with
            bw := ⟨0x00, 0⟩
            ser := { t.ser with bw := ⟨0x00, 0⟩, phase := .idle }
            br := ⟨0x00, 8⟩
            des := { t.des with br := ⟨0x00, 8⟩, phase := .idle }
            ct := ⟨[], [], []⟩
            err := ⟨0, 0⟩
            free := t.free
            resp := .ok .nothing }) ∧
    ∀ i : Instr, i ≠ .sysReset → s.err.code ≠ 0 → exec i s = .next { s with resp := .refused }

/-- R27, R161: power-on leaves every element that R27 gives a value at that value, and SYS.RESET leaves any state at the values
of the power-on state; the first command may be any command. (The working registers and the streams, to which R27 gives no value, are no part of it: logs 14, 17.) -/
def Obligations.PowerOnIsTheResetState : Prop :=
  (State.reset.bw = ⟨0x00, 0⟩ ∧ State.reset.ser.bw = ⟨0x00, 0⟩ ∧ State.reset.br = ⟨0x00, 8⟩ ∧
    State.reset.des.br = ⟨0x00, 8⟩ ∧ State.reset.ser.phase = .idle ∧ State.reset.des.phase = .idle ∧
    State.reset.ct = ⟨[], [], []⟩ ∧ State.reset.err = ⟨0, 0⟩) ∧
  (∀ s : State, ∃ t : State, exec .sysReset s = .next t ∧
    t.bw = State.reset.bw ∧ t.ser.bw = State.reset.ser.bw ∧ t.br = State.reset.br ∧ t.des.br = State.reset.des.br ∧
    t.ser.phase = State.reset.ser.phase ∧ t.des.phase = State.reset.des.phase ∧ t.ct = State.reset.ct ∧
    t.err = State.reset.err ∧ t.mem = s.mem) ∧
  ∀ i : Instr, ∃ t : State, exec i State.reset = .next t ∧ t.resp ≠ .refused

/-! ## The Bit unit -/

/-- R71: BIT.NEW admits exactly 0 and 1, faults with CharacterConfusion exactly on CHAR_ZERO and CHAR_ONE and with
InvalidBitValue on every other integer; on `ok` no state is written, on a fault the latch alone (and the phases, R145). -/
def Obligations.BitNewResult : Prop :=
  ∀ (s : State) (v : Int), s.Unlatched →
    exec (.bitNew v) s = .next
      (if v = 0 then { s with resp := .ok (.bit 0) }
       else if v = 1 then { s with resp := .ok (.bit 1) }
       else if v = Config.charZero ∨ v = Config.charOne then
         { s with err := ⟨2, 0⟩, ser.phase := .idle, des.phase := .idle, resp := .fault .characterConfusion 0 }
       else { s with err := ⟨1, 0⟩, ser.phase := .idle, des.phase := .idle, resp := .fault .invalidBitValue 0 })

/-- The numbers 48 and 49 (R6 marks them as general knowledge: log 7): they alone are the character codes, whole values being
compared, so that 256, 257 and 304 are invalid. -/
def Obligations.CharacterCodesAre48And49 : Prop :=
  ∀ s : State, s.Unlatched →
    (∀ v : Int, v ∈ [48, 49] → ∃ t, exec (.bitNew v) s = .next t ∧ t.resp = .fault .characterConfusion 0) ∧
    (∀ v : Int, v < 0 ∨ 2 ≤ v ∧ v ≤ 47 ∨ 50 ≤ v → ∃ t, exec (.bitNew v) s = .next t ∧ t.resp = .fault .invalidBitValue 0)

/-- R72, R73: equality and inequality of two Bits, the one the complement of the other; no state is written. -/
def Obligations.BitComparisonResults : Prop :=
  ∀ (s : State) (a b : Bit), s.Unlatched →
    exec (.bitEq a b) s = .next { s with resp := .ok (.bit (if a = b then 1 else 0)) } ∧
    exec (.bitNe a b) s = .next { s with resp := .ok (.bit (if a = b then 0 else 1)) }

/-- R74: the rendering is '1' or '0', the command's result, and nothing is written; its number is CHAR_ONE or CHAR_ZERO. -/
def Obligations.BitShowResult : Prop :=
  ∀ (s : State) (b : Bit), s.Unlatched →
    exec (.bitShow b) s = .next { s with resp := .ok (.char (if b = 1 then '1' else '0')) } ∧
    charCode '1' = Config.charOne ∧ charCode '0' = Config.charZero

/-- R76: the character code of a rendering, fed back into BIT.NEW, is the fault CharacterConfusion, for both Bits. -/
def Obligations.RenderingFedBackIsConfusion : Prop :=
  ∀ (s : State) (b : Bit), s.Unlatched →
    ∃ (t u : State) (c : Char), exec (.bitShow b) s = .next t ∧ t.resp = .ok (.char c) ∧
      exec (.bitNew (charCode c)) t = .next u ∧ u.resp = .fault .characterConfusion 0 ∧ u.err = ⟨2, 0⟩

/-! ## The bit-stream writer -/

/-- R81: BW.OPEN clears the packer's registers, dropping pending bits, and touches nothing else; a put and a close are accepted
in any unfaulted state, opened or not. -/
def Obligations.BwOpenResult : Prop :=
  ∀ s : State, s.Unlatched →
    exec .bwOpen s = .next { s with bw := ⟨0x00, 0⟩, resp := .ok .nothing } ∧
    ∀ i : Instr, i ∈ [.bwPut 0, .bwPut 1, .bwClose] → ∃ t : State, exec i s = .next t ∧ t.resp ≠ .refused

/-- R82: the new bit goes to position cnt; the put that makes a group complete writes the byte and empties the packer; when the
sink refuses that byte the fault is SinkWriteFailure, the bytes accepted before it stay, and of the packer nothing is said; bits
above the new bit that are zero before are zero after. -/
def Obligations.BwPutResult : Prop :=
  ∀ (s : State) (b : Bit), s.Unlatched →
    (s.bw.cnt ≠ 7 →
      exec (.bwPut b) s = .next
        { s with bw := ⟨s.bw.acc ||| b.setWidth 8 <<< s.bw.cnt.toNat, s.bw.cnt + 1⟩, resp := .ok .nothing }) ∧
    (s.bw.cnt = 7 → s.writeAnswer = .accepted →
      exec (.bwPut b) s = .next
        { s with
          bw := ⟨0x00, 0⟩
          mem.snk := s.mem.snk ++ [s.bw.acc ||| b.setWidth 8 <<< 7]
          snkAns := s.snkAns.tail
          resp := .ok .nothing }) ∧
    (s.bw.cnt = 7 → s.writeAnswer = .failed →
      ∃ t : State, exec (.bwPut b) s = .next t ∧ s.mem.snk <+: t.mem.snk ∧
        t = { s with
              bw := t.bw
              mem.snk := t.mem.snk
              err := ⟨9, 0⟩
              ser.phase := .idle
              des.phase := .idle
              snkAns := s.snkAns.tail
              free := t.free
              resp := .fault .sinkWriteFailure 0 }) ∧
    ∀ t : State, s.bw.Clean → exec (.bwPut b) s = .next t → t.resp = .ok .nothing → t.bw.Clean

/-- R83: BW.CLOSE writes nothing when nothing is pending, and otherwise one byte, the accumulator as it is. -/
def Obligations.BwCloseResult : Prop :=
  ∀ s : State, s.Unlatched →
    (s.bw.cnt = 0 → exec .bwClose s = .next { s with bw := ⟨0x00, 0⟩, resp := .ok .nothing }) ∧
    (s.bw.cnt ≠ 0 → s.writeAnswer = .accepted →
      exec .bwClose s = .next
        { s with
          bw := ⟨0x00, 0⟩
          mem.snk := s.mem.snk ++ [s.bw.acc]
          snkAns := s.snkAns.tail
          resp := .ok .nothing }) ∧
    (s.bw.cnt ≠ 0 → s.writeAnswer = .failed →
      ∃ t : State, exec .bwClose s = .next t ∧ s.mem.snk <+: t.mem.snk ∧
        t = { s with
              bw := t.bw
              mem.snk := t.mem.snk
              err := ⟨9, 0⟩
              ser.phase := .idle
              des.phase := .idle
              snkAns := s.snkAns.tail
              free := t.free
              resp := .fault .sinkWriteFailure 0 })

/-- R84, the law of the packer: open, n puts and a close append exactly pack of the n bits, that is ceil(n / 8) bytes, and leave
the packer open and empty and everything else as it was. -/
def Obligations.PackerLaw : Prop :=
  ∀ (s : State) (bits : List Bit), s.Unlatched → s.SinkNeverFails →
    execAll (.bwOpen :: bits.map .bwPut ++ [.bwClose]) s = .next
      { s with
        bw := ⟨0x00, 0⟩
        mem.snk := s.mem.snk ++ pack bits
        snkAns := s.snkAns.drop ((bits.length + 7) / 8)
        resp := .ok .nothing } ∧
    (pack bits).length = (bits.length + 7) / 8

/-- R84, before the close: the sink has the bytes of the whole groups, cnt is n mod 8, and the accumulator holds the bits of the
group cut short, the first at bit 0. -/
def Obligations.PendingBitsBeforeTheClose : Prop :=
  ∀ (s : State) (bits : List Bit), s.Unlatched → s.SinkNeverFails →
    execAll (.bwOpen :: bits.map .bwPut) s = .next
      { s with
        bw := ⟨packByte bits (bits.length / 8), BitVec.ofNat 3 (bits.length % 8)⟩
        mem.snk := s.mem.snk ++ pack (bits.take (8 * (bits.length / 8)))
        snkAns := s.snkAns.drop (bits.length / 8)
        resp := .ok .nothing }

/-! ## The bit-stream reader -/

/-- R91: BR.OPEN leaves the unpacker holding no byte; the source is not touched. -/
def Obligations.BrOpenResult : Prop :=
  ∀ s : State, s.Unlatched → exec .brOpen s = .next { s with br := ⟨0x00, 8⟩, resp := .ok .nothing }

/-- R92: a bit of the byte held when one is left; otherwise one byte is pulled first; UnexpectedEndOfInput(0), changing neither
BR nor SRC, when the source has none; SourceReadFailure, with SRC.pos unchanged, when the environment fails the pull (of BR
nothing is said there: log 15). -/
def Obligations.BrGetResult : Prop :=
  ∀ s : State, s.Unlatched →
    (s.br.pos ≠ 8 →
      exec .brGet s = .next
        { s with br := ⟨s.br.cur, s.br.pos + 1⟩, resp := .ok (.bit ((s.br.cur >>> s.br.pos.toNat).setWidth 1)) }) ∧
    (∀ b : Byte, s.br.pos = 8 → s.mem.srcByte s.mem.srcPos = some b → s.readAnswer = .delivered →
      exec .brGet s = .next
        { s with
          br := ⟨b, 1⟩
          mem.srcPos := s.mem.srcPos + 1
          srcAns := s.srcAns.tail
          resp := .ok (.bit (b.setWidth 1)) }) ∧
    (s.br.pos = 8 → s.mem.srcPos = s.mem.src.length →
      exec .brGet s = .next
        { s with
          err := ⟨8, 0⟩
          ser.phase := .idle
          des.phase := .idle
          resp := .fault .unexpectedEndOfInput 0 }) ∧
    (∀ b : Byte, s.br.pos = 8 → s.mem.srcByte s.mem.srcPos = some b → s.readAnswer = .failed →
      ∃ t : State, exec .brGet s = .next t ∧
        t = { s with
              br := t.br
              err := ⟨10, 0⟩
              ser.phase := .idle
              des.phase := .idle
              srcAns := s.srcAns.tail
              free := t.free
              resp := .fault .sourceReadFailure 0 })

/-- R93, the law of the unpacker: after BR.OPEN, n gets with n at most eight for each byte left return the first n bits of
those bytes and pull ceil(n / 8) of them; the get after the last bit of the last byte is UnexpectedEndOfInput(0). -/
def Obligations.UnpackerLaw : Prop :=
  ∀ (s : State) (n : Nat), s.Unlatched → s.SourceNeverFails → n ≤ 8 * s.mem.remaining →
    ∃ o t : State, exec .brOpen s = .next o ∧ getBits n o = some (unpack s.mem.unread n, t) ∧
      t.mem.srcPos = s.mem.srcPos + (n + 7) / 8 ∧ t.err = s.err ∧
      (n = 8 * s.mem.remaining → ∃ u : State, exec .brGet t = .next u ∧ u.resp = .fault .unexpectedEndOfInput 0)

/-- R8, R93: unpacking what was packed gives the bits back, and after them the zeros of the padding. -/
def Obligations.UnpackInvertsPack : Prop :=
  ∀ bits : List Bit,
    unpack (pack bits) bits.length = bits ∧
    unpack (pack bits) (8 * (pack bits).length) = bits ++ List.replicate (8 * (pack bits).length - bits.length) 0

/-! ## Faults, the latch, refusal -/

/-- R148: a command is refused when a fault is latched and it is not SYS.RESET, or when its code is reserved, and a refused
command changes nothing (the response says so and the host's list moves on: logs 1, 3); no other command is refused. -/
def Obligations.LatchedCommandsAreRefused : Prop :=
  (∀ (i : Instr) (s : State), s.err.code ≠ 0 → i ≠ .sysReset → exec i s = .next { s with resp := .refused }) ∧
  (∀ (s : State) (p : Port) (rest : List HostAction), s.host = .issue p :: rest → p.cmd ∉ assignedCodes →
    step s = .next { s with host := rest, resp := .refused }) ∧
  ∀ (i : Instr) (s t : State), exec i s = .next t → t.resp = .refused → s.err.code ≠ 0 ∧ i ≠ .sysReset

/-- R140: the codes of the ten faults; no two are equal, none is 0 and none is one of the reserved codes 11 to 15. -/
def Obligations.FaultCodes : Prop :=
  [Cause.invalidBitValue, .characterConfusion, .invariantViolation, .notThisFormat, .truncatedHeader, .invalidLeafCount,
    .truncatedLeafTable, .unexpectedEndOfInput, .sinkWriteFailure, .sourceReadFailure].map Cause.code =
      [1, 2, 3, 4, 5, 6, 7, 8, 9, 10] ∧
  (∀ c d : Cause, c.code = d.code → c = d) ∧ ∀ c : Cause, 1 ≤ c.code.toNat ∧ c.code.toNat ≤ 10

/-- R145: a command that raises a fault latches its code and sub-cause and leaves both phases IDLE; a command that raises none
leaves the latch as it was, SYS.RESET apart. -/
def Obligations.RaisingAFaultLatchesIt : Prop :=
  ∀ (i : Instr) (s t : State), exec i s = .next t →
    (∀ (c : Cause) (sub : BitVec 2), t.resp = .fault c sub →
      t.err = ⟨c.code, sub⟩ ∧ t.ser.phase = .idle ∧ t.des.phase = .idle) ∧
    ((∀ (c : Cause) (sub : BitVec 2), t.resp ≠ .fault c sub) → i ≠ .sysReset → t.err = s.err)

/-- R142, with the sub-causes of R141: which command can raise which fault. -/
def Obligations.FaultMatrix : Prop :=
  ∀ (i : Instr) (s t : State) (c : Cause) (sub : BitVec 2), exec i s = .next t → t.resp = .fault c sub →
    match i with
    | .bitNew _ => (c, sub) ∈ [(.invalidBitValue, 0), (.characterConfusion, 0)]
    | .bwPut _ => (c, sub) = (.sinkWriteFailure, 0)
    | .bwClose => (c, sub) = (.sinkWriteFailure, 0)
    | .brGet => (c, sub) ∈ [(.unexpectedEndOfInput, 0), (.sourceReadFailure, 0)]
    | .serWrite => (c, sub) ∈ [(.invariantViolation, 1), (.invariantViolation, 2), (.sinkWriteFailure, 0)]
    | .desRead => (c, sub) ∈ [(.notThisFormat, 1), (.notThisFormat, 2), (.truncatedHeader, 1), (.truncatedHeader, 2),
        (.invalidLeafCount, 0), (.truncatedLeafTable, 0), (.unexpectedEndOfInput, 1), (.unexpectedEndOfInput, 2),
        (.sourceReadFailure, 0)]
    | .sysReset | .bitEq _ _ | .bitNe _ _ | .bitShow _ | .bwOpen | .brOpen => False

/-- R147: a latch that holds a fault is changed only by SYS.RESET, which clears it, whatever the host does next. -/
def Obligations.OnlyResetClearsTheLatch : Prop :=
  ∀ s t : State, step s = .next t → s.err.code ≠ 0 → t.err ≠ s.err →
    t.err = ⟨0, 0⟩ ∧ ∃ (p : Port) (rest : List HostAction), s.host = .issue p :: rest ∧ decode p = .instr .sysReset

/-- R151, under the premise that R151, U20 and D21 ask a claim of an end to name: the environment answers every transfer. That
premise is built into State (DEDUCED, log 20, unsafe: a transfer that is never answered is not represented). Then no command stops
the model: in a state whose CT holds at most 256 leaves every command ends in a next state; and with more, a state the spec calls
unrepresentable, SER.WRITE alone is refused by the model (log 9). -/
def Obligations.EveryCommandEnds : Prop :=
  (∀ (i : Instr) (s : State), s.ct.leaves.length ≤ 256 → ∃ t : State, exec i s = .next t) ∧
  (∀ (i : Instr) (s : State), 256 < s.ct.leaves.length → s.Unlatched →
    (i = .serWrite → exec i s = .refused .leavesOverCapacity) ∧ (i ≠ .serWrite → ∃ t : State, exec i s = .next t))

/-! ## The container format -/

/-- R50, R52, R54, R56: the five fields of a container of 2 to 256 leaves, each at its offset, and the container's length. -/
def Obligations.ContainerFields : Prop :=
  ∀ (magic : List Byte) (c : Container), magic.length = 4 → containerValid c = true → c.leaves.length ≤ 256 →
    (encodeContainer magic c).length = 6 + c.leaves.length + (containerBits c + 7) / 8 ∧
    (encodeContainer magic c).take 4 = magic ∧
    (∃ b : Byte, (encodeContainer magic c)[4]? = some b ∧ b.toNat = c.leaves.length - 1) ∧
    ((encodeContainer magic c).drop 5).take c.leaves.length = c.leaves ∧
    (∃ b : Byte, (encodeContainer magic c)[5 + c.leaves.length]? = some b ∧ 1 ≤ b.toNat ∧ b.toNat ≤ 8 ∧
      b.toNat % 8 = containerBits c % 8) ∧
    (encodeContainer magic c).drop (6 + c.leaves.length) = pack (c.shape ++ c.msg)

/-- R65: the biased count read back is L for every L from 2 to 256, and the byte 0 alone gives a count below 2. -/
def Obligations.LeafCountFieldArithmetic : Prop :=
  (∀ L : Nat, 2 ≤ L → L ≤ 256 → (unbiasedCount (biasedCount L)).toNat = L ∧ (biasedCount L).toNat = L - 1) ∧
  (∀ b : Byte, (unbiasedCount b).toNat = b.toNat + 1 ∧ ((unbiasedCount b).toNat < 2 ↔ b = 0))

/-- R130, the round trip of the format: for every valid container of at most 256 leaves, whatever the length of its message. -/
def Obligations.DecodeOfEncodeIsTheContainer : Prop :=
  ∀ (magic : List Byte) (c : Container), magic.length = 4 → containerValid c = true → c.leaves.length ≤ 256 →
    decodeContainer magic (encodeContainer magic c) = .ok c

/-- R131, what is not detected: k whole bytes cut off the end of a container, 2L − 1 meaningful bits remaining, read as the same
container with the last 8k message bits gone. -/
def Obligations.ShortenedContainerReads : Prop :=
  ∀ (magic : List Byte) (c : Container) (k : Nat), magic.length = 4 → containerValid c = true → c.leaves.length ≤ 256 →
    8 * k ≤ c.msg.length →
    decodeContainer magic ((encodeContainer magic c).take ((encodeContainer magic c).length - k)) =
      .ok { c with msg := c.msg.take (c.msg.length - 8 * k) }

/-- R131, what is detected: the fault for a container cut to its first k bytes, by where the cut falls. -/
def Obligations.DetectedCuts : Prop :=
  ∀ (magic : List Byte) (c : Container) (k : Nat), magic.length = 4 → containerValid c = true → c.leaves.length ≤ 256 →
    k < (encodeContainer magic c).length →
    (k < 4 → decodeContainer magic ((encodeContainer magic c).take k) = .fault .notThisFormat 1) ∧
    (k = 4 → decodeContainer magic ((encodeContainer magic c).take k) = .fault .truncatedHeader 1) ∧
    (5 ≤ k → k < 5 + c.leaves.length →
      decodeContainer magic ((encodeContainer magic c).take k) = .fault .truncatedLeafTable 0) ∧
    (k = 5 + c.leaves.length → decodeContainer magic ((encodeContainer magic c).take k) = .fault .truncatedHeader 2) ∧
    (6 + c.leaves.length ≤ k → c.msg.length < 8 * ((encodeContainer magic c).length - k) →
      decodeContainer magic ((encodeContainer magic c).take k) = .fault .unexpectedEndOfInput 1)

/-- R163: bytes after a container are taken as bitstream, no fault: the padding of the last byte becomes message bits, and of the
bits that follow the last trailing-bit-count are the low ones of the last byte. -/
def Obligations.BytesAfterAContainerAreRead : Prop :=
  ∀ (magic : List Byte) (c : Container) (extra : List Byte), magic.length = 4 → containerValid c = true →
    c.leaves.length ≤ 256 →
    decodeContainer magic (encodeContainer magic c ++ extra) =
      .ok { c with
            msg := (unpack (pack (c.shape ++ c.msg) ++ extra) (containerBits c + 8 * extra.length)).drop c.shape.length }

/-! ## The serializer -/

/-- R101: a container that breaks the invariant is InvariantViolation, L < 2 tested first; no byte is written, nothing is popped,
and only ERR changes (and the phases, R145). Nothing else is validated: of a container that meets it the only fault is a failed
sink write. -/
def Obligations.SerWriteRejectsInvalidContainers : Prop :=
  ∀ s : State, s.Unlatched →
    (s.ct.leaves.length < 2 →
      exec .serWrite s = .next
        { s with err := ⟨3, 1⟩, ser.phase := .idle, des.phase := .idle, resp := .fault .invariantViolation 1 }) ∧
    (2 ≤ s.ct.leaves.length → s.ct.leaves.length ≤ 256 → s.ct.shape.length ≠ 2 * s.ct.leaves.length - 1 →
      exec .serWrite s = .next
        { s with err := ⟨3, 2⟩, ser.phase := .idle, des.phase := .idle, resp := .fault .invariantViolation 2 }) ∧
    ∀ (t : State) (c : Cause) (sub : BitVec 2), 2 ≤ s.ct.leaves.length →
      s.ct.shape.length = 2 * s.ct.leaves.length - 1 → exec .serWrite s = .next t → t.resp = .fault c sub →
      c = .sinkWriteFailure

/-- R108, R109, R112: for a valid container, and a sink that accepts that many bytes, SER.WRITE appends encode of CT to the sink,
one answer of the environment for each byte, leaves CT empty and SER.bw open and empty, and changes nothing else but the
serializer's working registers, which are any value (log 14). -/
def Obligations.SerWriteAppendsTheContainer : Prop :=
  ∀ s : State, s.Unlatched → containerValid s.ct = true → s.ct.leaves.length ≤ 256 →
    (∀ a ∈ s.snkAns.take (encodeContainer Config.magicBytes s.ct).length, a = .accepted) →
    ∃ t : State, exec .serWrite s = .next t ∧
      t = { s with
            mem.snk := s.mem.snk ++ encodeContainer Config.magicBytes s.ct
            snkAns := s.snkAns.drop (encodeContainer Config.magicBytes s.ct).length
            ct := ⟨[], [], []⟩
            ser := { bw := ⟨0x00, 0⟩, phase := .idle, idx := t.ser.idx, tbcv := t.ser.tbcv }
            free := t.free
            resp := .ok .nothing }

/-- R108, R110: when the sink fails at byte k + 1 of the container, the first k were appended, the fault is SinkWriteFailure, and
of CT, SER.bw, the working registers and the sink past those bytes nothing is said; nothing else changes. -/
def Obligations.SerWriteFailsAtAByte : Prop :=
  ∀ (s : State) (k : Nat), s.Unlatched → containerValid s.ct = true → s.ct.leaves.length ≤ 256 →
    k < (encodeContainer Config.magicBytes s.ct).length →
    (∀ a ∈ s.snkAns.take k, a = .accepted) → s.snkAns[k]? = some .failed →
    ∃ t : State, exec .serWrite s = .next t ∧
      s.mem.snk ++ (encodeContainer Config.magicBytes s.ct).take k <+: t.mem.snk ∧
      t = { s with
            mem.snk := t.mem.snk
            snkAns := s.snkAns.drop (k + 1)
            ct := t.ct
            ser := { t.ser with phase := .idle }
            des.phase := .idle
            err := ⟨9, 0⟩
            free := t.free
            resp := .fault .sinkWriteFailure 0 }

/-- R111: the phases of SER.WRITE in their order, how many sink bytes each has written at its end and what it has popped. -/
def Obligations.SerPhases : Prop :=
  ∀ s : State, containerValid s.ct = true → s.ct.leaves.length ≤ 256 → s.SinkNeverFails →
    ∃ s1 s2 s3 s4 s5 s6 s7 : State,
      serCheck s = .ok () s1 ∧ serMagic Config.magicBytes s1 = .ok () s2 ∧ serCount s2 = .ok () s3 ∧
      serLeaves s3 = .ok () s4 ∧ serTbc s4 = .ok () s5 ∧ serBits s5 = .ok () s6 ∧ serFlush s6 = .ok () s7 ∧
      (s1.ser.phase = .check ∧ s1.mem.snkAddr = s.mem.snkAddr ∧ s1.ct = s.ct) ∧
      (s2.ser.phase = .magic ∧ s2.mem.snkAddr = s.mem.snkAddr + 4 ∧ s2.ct = s.ct) ∧
      (s3.ser.phase = .count ∧ s3.mem.snkAddr = s.mem.snkAddr + 5 ∧ s3.ct = s.ct) ∧
      (s4.ser.phase = .leaves ∧ s4.mem.snkAddr = s.mem.snkAddr + 5 + s.ct.leaves.length ∧
        s4.ct = { s.ct with leaves := [] }) ∧
      (s5.ser.phase = .tbc ∧ s5.mem.snkAddr = s.mem.snkAddr + 6 + s.ct.leaves.length ∧
        s5.ct = { s.ct with leaves := [] } ∧ s5.ser.tbcv.toNat = tbc (containerBits s.ct)) ∧
      (s6.ser.phase = .bits ∧ s6.mem.snkAddr = s.mem.snkAddr + 6 + s.ct.leaves.length + containerBits s.ct / 8 ∧
        s6.ct = ⟨[], [], []⟩) ∧
      (s7.ser.phase = .flush ∧ s7.ct = ⟨[], [], []⟩ ∧
        s7.mem.snkAddr = s6.mem.snkAddr + if containerBits s.ct % 8 = 0 then 0 else 1)

/-! ## The deserializer -/

/-- R129, R133: where decode of the unread bytes is a container, and the environment delivers the 6 + L + ceil(B / 8) bytes that this
command takes, one answer for each (log 24), DES.READ leaves exactly that container in CT and has consumed those bytes; nothing else
changes but the deserializer's own unpacker and working registers. -/
def Obligations.DesReadReadsTheContainer : Prop :=
  ∀ (s : State) (c : Container), s.Unlatched → decodeContainer Config.magicBytes s.mem.unread = .ok c →
    (∀ a ∈ s.srcAns.take (6 + c.leaves.length + (containerBits c + 7) / 8), a = .delivered) →
    ∃ t : State, exec .desRead s = .next t ∧
      t = { s with
            ct := c
            mem.srcPos := s.mem.srcPos + 6 + c.leaves.length + (containerBits c + 7) / 8
            srcAns := s.srcAns.drop (6 + c.leaves.length + (containerBits c + 7) / 8)
            des := { t.des with phase := .idle }
            free := t.free
            resp := .ok .nothing }

/-- R129, R128: where decode of the unread bytes is a fault, and the environment delivers the bytes that the command takes before
it, one answer for each (log 24), DES.READ raises exactly that fault with that sub-cause; of CT, DES.br and the working registers
nothing is said; nothing else changes but the source position. That the position is not behind its start is no rule: R133, U9 and C8
leave it any value, and the bound is the model's choice (DEDUCED, log 12). -/
def Obligations.DesReadRaisesTheFault : Prop :=
  ∀ (s : State) (c : Cause) (sub : BitVec 2), s.Unlatched →
    decodeContainer Config.magicBytes s.mem.unread = .fault c sub →
    (∀ a ∈ s.srcAns.take (bytesTaken Config.magicBytes s.mem.unread), a = .delivered) →
    ∃ t : State, exec .desRead s = .next t ∧ s.mem.srcPos ≤ t.mem.srcPos ∧
      t = { s with
            ct := t.ct
            mem.srcPos := t.mem.srcPos
            srcAns := s.srcAns.drop (bytesTaken Config.magicBytes s.mem.unread)
            ser.phase := .idle
            des := { t.des with phase := .idle }
            err := ⟨c.code, sub⟩
            free := t.free
            resp := .fault c sub }

/-- R35, R37, R144, R145: whatever the bytes of the source decode to, a container or any fault, a read that the environment fails
among those DES.READ asks for, the ones before it delivered, is SourceReadFailure(0), in whatever phase and in place of any check that
would have come after it; of CT, the source position, DES.br and the working registers nothing is said, and nothing else changes.
That each byte takes one answer is log 24. -/
def Obligations.DesReadFailsAtAByte : Prop :=
  ∀ (s : State) (k : Nat), s.Unlatched → k < bytesTaken Config.magicBytes s.mem.unread →
    (∀ a ∈ s.srcAns.take k, a = .delivered) → s.srcAns[k]? = some .failed →
    ∃ t : State, exec .desRead s = .next t ∧
      t = { s with
            ct := t.ct
            mem.srcPos := t.mem.srcPos
            srcAns := s.srcAns.drop (k + 1)
            ser.phase := .idle
            des := { t.des with phase := .idle }
            err := ⟨10, 0⟩
            free := t.free
            resp := .fault .sourceReadFailure 0 }

/-- R121, R133: after NotThisFormat no byte past the four of the magic field was read, the upper bounds. The lower one, that the
position is not behind its start, is no rule: R133, U9 and C8 leave the position after a fault any value, and the bound is the
model's choice (DEDUCED, log 12). -/
def Obligations.NotThisFormatReadsNothingMore : Prop :=
  ∀ (s t : State) (sub : BitVec 2), s.mem.wf = true → exec .desRead s = .next t → t.resp = .fault .notThisFormat sub →
    s.mem.srcPos ≤ t.mem.srcPos ∧ t.mem.srcPos ≤ s.mem.srcPos + 4 ∧ t.mem.srcPos ≤ s.mem.src.length

/-- R132: the phases of DES.READ in their order, how many source bytes each has read at its end and what it has pushed; and R21:
DES.idx, how many bytes or bits each has done (when it is written is the model's choice, log 4). -/
def Obligations.DesPhases : Prop :=
  ∀ (s : State) (c : Container), s.SourceNeverFails → decodeContainer Config.magicBytes s.mem.unread = .ok c →
    ∃ s1 s2 s3 s4 s5 s6 s7 : State,
      desMagic Config.magicBytes s.clearCt = .ok () s1 ∧ desCount s1 = .ok () s2 ∧ desLeaves s2 = .ok () s3 ∧
      desTbc s3 = .ok () s4 ∧ desMeasure s4 = .ok () s5 ∧ desShape s5 = .ok () s6 ∧ desMsg s6 = .ok () s7 ∧
      (s1.des.phase = .magic ∧ s1.mem.srcPos = s.mem.srcPos + 4 ∧ s1.ct = ⟨[], [], []⟩ ∧ s1.des.idx = 4) ∧
      (s2.des.phase = .count ∧ s2.mem.srcPos = s.mem.srcPos + 5 ∧ s2.ct = ⟨[], [], []⟩ ∧
        s2.des.L.toNat = c.leaves.length ∧ s2.des.idx = 1) ∧
      (s3.des.phase = .leaves ∧ s3.mem.srcPos = s.mem.srcPos + 5 + c.leaves.length ∧ s3.ct = ⟨[], c.leaves, []⟩ ∧
        s3.des.idx = c.leaves.length) ∧
      (s4.des.phase = .tbc ∧ s4.mem.srcPos = s.mem.srcPos + 6 + c.leaves.length ∧ s4.ct = ⟨[], c.leaves, []⟩ ∧
        s4.des.idx = 1) ∧
      (s5.des.phase = .measure ∧ s5.mem.srcPos = s4.mem.srcPos ∧ s5.ct = ⟨[], c.leaves, []⟩ ∧
        s5.des.bitsRemaining = containerBits c ∧ s5.des.idx = 0) ∧
      (s6.des.phase = .shape ∧ s6.mem.srcPos = s4.mem.srcPos + (c.leaves.length + 3) / 4 ∧
        s6.ct = ⟨c.shape, c.leaves, []⟩ ∧ s6.des.bitsRemaining = c.msg.length ∧
        s6.des.idx = 2 * c.leaves.length - 1) ∧
      (s7.des.phase = .msg ∧ s7.mem.srcPos = s4.mem.srcPos + (containerBits c + 7) / 8 ∧ s7.ct = c ∧
        s7.des.bitsRemaining = 0 ∧ s7.des.idx = c.msg.length)

/-- R130, the round trip of the machine: a source that holds, from its position to its end, the bytes SER.WRITE appended is read
back by DES.READ as the container that was written, to the source's end; the environment accepts and delivers the bytes of that
container, one answer for each (log 24). -/
def Obligations.WriteThenReadBack : Prop :=
  ∀ s t u : State, s.Unlatched → containerValid s.ct = true → s.ct.leaves.length ≤ 256 →
    (∀ a ∈ s.snkAns.take (encodeContainer Config.magicBytes s.ct).length, a = .accepted) →
    exec .serWrite s = .next t → u.Unlatched →
    (∀ a ∈ u.srcAns.take (encodeContainer Config.magicBytes s.ct).length, a = .delivered) →
    u.mem.unread = t.mem.snk.drop s.mem.snk.length →
    ∃ v : State, exec .desRead u = .next v ∧ v.ct = s.ct ∧ v.resp = .ok .nothing ∧ v.err = u.err ∧
      v.mem.srcPos = u.mem.src.length

/-- R128, R167: DES.READ's outcome does not depend on what CT held, nor, when it ends ok, do the container read and the source
position. -/
def Obligations.DesReadIgnoresTheOldContainer : Prop :=
  ∀ (s : State) (c : Container), s.Unlatched →
    ∃ t u : State, exec .desRead s = .next t ∧ exec .desRead { s with ct := c } = .next u ∧
      u.resp = t.resp ∧ u.err = t.err ∧ (t.resp = .ok .nothing → u.ct = t.ct ∧ u.mem = t.mem)

/-! ## Frames and whole-machine rules -/

/-- R11, R14, R16, R24, R86, R95: which commands can change which state. (That SYS.RESET leaves the working registers any value is
R27, that no other command of another unit touches them R19, R21.) -/
def Obligations.WhoWritesWhat : Prop :=
  ∀ (i : Instr) (s t : State), exec i s = .next t →
    (t.bw ≠ s.bw → i ∈ [.sysReset, .bwOpen, .bwPut 0, .bwPut 1, .bwClose]) ∧
    (t.br ≠ s.br → i ∈ [.sysReset, .brOpen, .brGet]) ∧
    (t.ser.bw ≠ s.ser.bw → i ∈ [.sysReset, .serWrite]) ∧
    (t.ser.idx ≠ s.ser.idx ∨ t.ser.tbcv ≠ s.ser.tbcv → i ∈ [.sysReset, .serWrite]) ∧
    (t.des.br ≠ s.des.br → i ∈ [.sysReset, .desRead]) ∧
    (t.des.L ≠ s.des.L ∨ t.des.tbc ≠ s.des.tbc ∨ t.des.bitsRemaining ≠ s.des.bitsRemaining ∨ t.des.idx ≠ s.des.idx →
      i ∈ [.sysReset, .desRead]) ∧
    (t.ct ≠ s.ct → i ∈ [.sysReset, .serWrite, .desRead]) ∧
    (t.mem.snk ≠ s.mem.snk ∨ t.snkAns ≠ s.snkAns → i ∈ [.bwPut 0, .bwPut 1, .bwClose, .serWrite]) ∧
    (t.mem.srcPos ≠ s.mem.srcPos ∨ t.srcAns ≠ s.srcAns → i ∈ [.brGet, .desRead]) ∧
    t.mem.src = s.mem.src ∧ t.host = s.host

/-- R24, R30, R32, R35: over any step, commands and loads alike, the sink only grows at its end, the source does not change, and
its position never goes back. Two parts of the last clause are no rule but the model's choice: that it does not go back after a
faulted DES.READ either, where R133, U9 and C8 leave it any value (DEDUCED, log 12), and that the host has no action that positions
the source (log 27). -/
def Obligations.StreamsOnlyGoForward : Prop :=
  ∀ s t : State, step s = .next t →
    s.mem.snk <+: t.mem.snk ∧ t.mem.src = s.mem.src ∧ s.mem.srcPos ≤ t.mem.srcPos

/-- The frame of the commands that store nothing (R71 to R74, R81, R91, R92, R120, R160), byte by byte, and of the registers and
CT: what each leaves as it was. The fault latch and the phases are what R145 says on a fault. -/
def Obligations.FrameOfNonStoringCommands : Prop :=
  ∀ (i : Instr) (s t : State), exec i s = .next t →
    (i ∉ [Instr.bwPut 0, .bwPut 1, .bwClose, .serWrite] →
      ∀ a : Nat, t.mem.snkByte a = s.mem.snkByte a ∧ t.mem.srcByte a = s.mem.srcByte a) ∧
    ((∃ v, i = .bitNew v) ∨ (∃ a b, i = .bitEq a b) ∨ (∃ a b, i = .bitNe a b) ∨ (∃ a, i = .bitShow a) →
      t = { s with err := t.err, ser.phase := t.ser.phase, des.phase := t.des.phase, resp := t.resp } ∧
        ((∀ v, i ≠ .bitNew v) → t = { s with resp := t.resp })) ∧
    (i = .brGet →
      t = { s with
            br := t.br, mem.srcPos := t.mem.srcPos, err := t.err, ser.phase := t.ser.phase, des.phase := t.des.phase
            srcAns := t.srcAns, free := t.free, resp := t.resp }) ∧
    (i = .desRead →
      t = { s with
            ct := t.ct, mem.srcPos := t.mem.srcPos, err := t.err, ser.phase := t.ser.phase, des := t.des
            srcAns := t.srcAns, free := t.free, resp := t.resp })

/-- The frame of the commands that store (R82, R83, R100), byte by byte: where each stores, that every byte already in the sink and
every byte of the source reads as before, and what else each leaves as it was. A put or close stores at the sink's address
|SNK.data| one byte, or none; once a SinkWriteFailure is latched the addresses from there on are not claimed (R33). -/
def Obligations.FrameOfStoringCommands : Prop :=
  ∀ (i : Instr) (s t : State), exec i s = .next t →
    (i ∈ [Instr.bwPut 0, .bwPut 1, .bwClose] →
      t = { s with
            bw := t.bw, mem.snk := t.mem.snk, err := t.err, ser.phase := t.ser.phase, des.phase := t.des.phase
            snkAns := t.snkAns, free := t.free, resp := t.resp } ∧
      (∀ a : Nat, a ≠ s.mem.snkAddr → t.resp ≠ .fault .sinkWriteFailure 0 → t.mem.snkByte a = s.mem.snkByte a)) ∧
    (∀ b : Bit, i = .bwPut b → s.bw.cnt ≠ 7 → ∀ a : Nat, t.mem.snkByte a = s.mem.snkByte a) ∧
    (i = .bwClose → s.bw.cnt = 0 → ∀ a : Nat, t.mem.snkByte a = s.mem.snkByte a) ∧
    (i = .serWrite →
      t = { s with
            ct := t.ct, ser := t.ser, mem.snk := t.mem.snk, err := t.err, des.phase := t.des.phase
            snkAns := t.snkAns, free := t.free, resp := t.resp } ∧
      (t.resp = .ok .nothing → ∀ a : Nat,
        a < s.mem.snkAddr ∨ s.mem.snkAddr + (encodeContainer Config.magicBytes s.ct).length ≤ a →
          t.mem.snkByte a = s.mem.snkByte a)) ∧
    (∀ a : Nat, a < s.mem.snkAddr → t.mem.snkByte a = s.mem.snkByte a) ∧
    (∀ a : Nat, t.mem.srcByte a = s.mem.srcByte a)

/-- R25: no command reads the outcome or result of the one before (free values being taken at the same count: log 16). -/
def Obligations.ResultsAreNotState : Prop :=
  ∀ (i : Instr) (s : State) (r : Response), exec i { s with resp := r } = exec i s

/-- R19, R21, U18: the working registers carry nothing from one command to the next: states that differ in them alone end in states
that differ in them alone, with the same outcome (free values being taken at the same count: log 16). -/
def Obligations.WorkingRegistersCarryNothing : Prop :=
  ∀ (i : Instr) (s t w : State), exec i s = .next t → ∃ v : State, exec i (s.withWork w) = .next (t.withWork v)

/-- R13, R15, R16, R17, R20, R34, R140: the invariant of the state, kept by every step from every state that meets it. -/
def Obligations.StepKeepsTheInvariant : Prop :=
  ∀ s t : State, s.Inv → step s = .next t → t.Inv

/-- The invariant holds at power-on. -/
def Obligations.PowerOnMeetsTheInvariant : Prop := State.reset.Inv
end

