-- ==== Sys2Proof/Laws/Decode.lean ====
section
/-! SUPPORT. The decoder by code: what `decodeCmd` answers on an assigned code is by definition; on a reserved one it is that
code. -/

namespace Sys2Proof

/-- The two fields of a reserved code are no row of the table (R62). -/
theorem fields_of_reserved : ∀ cmd : BitVec 8, cmd ∉ assignedCodes →
    ((unitField cmd).toNat, (funcField cmd).toNat) ∉
      [(0, 0), (1, 0), (1, 1), (1, 2), (1, 3), (2, 0), (2, 1), (2, 2), (3, 0), (3, 1), (4, 0), (5, 0)] := by
  have key : ∀ n : Fin 256, BitVec.ofFin (w := 8) n ∉ assignedCodes →
      ((unitField (BitVec.ofFin (w := 8) n)).toNat, (funcField (BitVec.ofFin (w := 8) n)).toNat) ∉
        [(0, 0), (1, 0), (1, 1), (1, 2), (1, 3), (2, 0), (2, 1), (2, 2), (3, 0), (3, 1), (4, 0), (5, 0)] := by
    set_option maxRecDepth 8000 in decide
  exact fun cmd => key cmd.toFin

/-- A reserved code decodes to itself (R63). -/
theorem decodeCmd_reserved {cmd : BitVec 8} (h : cmd ∉ assignedCodes) (opv : Int) (opa opb : Bit) :
    decodeCmd cmd opv opa opb = .reserved cmd := by
  have key := fields_of_reserved cmd h
  unfold decodeCmd
  generalize (unitField cmd).toNat = u at key
  generalize (funcField cmd).toNat = f at key
  simp only [List.mem_cons, Prod.mk.injEq, List.not_mem_nil, or_false, not_or] at key
  split <;> simp_all

end Sys2Proof
end

