-- ==== Sys2Proof/Laws/Bits.lean ====
section
/-! SUPPORT. The pure functions of R8: how pack splits into groups of eight, unpack as a map over bit indexes, and that unpacking
inverts packing. -/

namespace Sys2Proof.Machine

/-- Bit k of a bit stream held in bytes: bit k mod 8 of byte k div 8 (R57). -/
def bitAtIndex (bytes : List Byte) (k : Nat) : Bit := bitOf (bytes.getD (k / 8) 0) (k % 8)

theorem unpack_eq_map (bytes : List Byte) (n : Nat) : unpack bytes n = (List.range n).map (bitAtIndex bytes) := rfl

@[simp] theorem unpack_length (bytes : List Byte) (n : Nat) : (unpack bytes n).length = n := by
  simp [unpack_eq_map]

theorem unpack_take (bytes : List Byte) (n k : Nat) : (unpack bytes n).take k = unpack bytes (min k n) := by
  simp [unpack_eq_map, ← List.map_take, List.take_range]

theorem unpack_drop (bytes : List Byte) (n k : Nat) :
    (unpack bytes n).drop k = (List.range' k (n - k)).map (bitAtIndex bytes) := by
  rw [unpack_eq_map, ← List.map_drop, List.range_eq_range', List.drop_range']
  simp

@[simp] theorem pack_length (bits : List Bit) : (pack bits).length = (bits.length + 7) / 8 := by
  simp [pack]

theorem pack_getElem? (bits : List Bit) (j : Nat) (h : j < (bits.length + 7) / 8) :
    (pack bits)[j]? = some (packByte bits j) := by
  simp [pack, h]

/-- The i-th bit of a packed byte is the i-th bit of its group. -/
theorem bitOf_packByte (bits : List Bit) (j i : Nat) (h : i < 8) :
    bitOf (packByte bits j) i = bits.getD (8 * j + i) 0 := by
  have key : ∀ b0 b1 b2 b3 b4 b5 b6 b7 : Bit, ∀ k : Fin 8,
      bitOf ([bitAt b0 0, bitAt b1 1, bitAt b2 2, bitAt b3 3, bitAt b4 4, bitAt b5 5, bitAt b6 6, bitAt b7 7].sum) k.val =
        [b0, b1, b2, b3, b4, b5, b6, b7].getD k.val 0 := by decide
  have h8 : List.range 8 = [0, 1, 2, 3, 4, 5, 6, 7] := rfl
  rw [packByte, h8]
  simp only [List.map_cons, List.map_nil]
  rw [key _ _ _ _ _ _ _ _ ⟨i, h⟩]
  match i, h with
  | 0, _ | 1, _ | 2, _ | 3, _ | 4, _ | 5, _ | 6, _ | 7, _ => rfl

/-- Bit k of the packed bits is bit k, and zero past their end (R8, R58). -/
theorem bitAtIndex_pack (bits : List Bit) (k : Nat) (h : k < 8 * (pack bits).length) :
    bitAtIndex (pack bits) k = bits.getD k 0 := by
  rw [pack_length] at h
  have hk : k / 8 < (bits.length + 7) / 8 := by omega
  rw [bitAtIndex, List.getD_eq_getElem?_getD, pack_getElem? bits _ hk, Option.getD_some,
    bitOf_packByte _ _ _ (Nat.mod_lt _ (by decide)), Nat.div_add_mod]

theorem bitAtIndex_append (xs ys : List Byte) (k : Nat) (h : k < 8 * xs.length) :
    bitAtIndex (xs ++ ys) k = bitAtIndex xs k := by
  have : k / 8 < xs.length := by omega
  simp [bitAtIndex, List.getD_eq_getElem?_getD, List.getElem?_append_left this]

theorem bitAtIndex_take (xs : List Byte) (n k : Nat) (h : k < 8 * n) :
    bitAtIndex (xs.take n) k = bitAtIndex xs k := by
  have : k / 8 < n := by omega
  simp [bitAtIndex, List.getD_eq_getElem?_getD, this]

/-- The accumulator's cut-short group, bit by bit: a packed byte with nothing in its group is zero. -/
theorem packByte_of_length_le (bits : List Bit) (j : Nat) (h : bits.length ≤ 8 * j) : packByte bits j = 0 := by
  have h8 : List.range 8 = [0, 1, 2, 3, 4, 5, 6, 7] := rfl
  have hz : ∀ i, bits.getD (8 * j + i) 0 = 0 := fun i => by
    rw [List.getD_eq_getElem?_getD, List.getElem?_eq_none (by omega)]; rfl
  rw [packByte, h8]
  simp only [List.map_cons, List.map_nil, hz]
  decide

/-- One more bit put at its place of the last group (R82). -/
theorem packByte_concat (bits : List Bit) (b : Bit) (j : Nat) (hj : bits.length / 8 = j) :
    packByte (bits ++ [b]) j = packByte bits j ||| bitAt b (bits.length % 8) := by
  have key : ∀ b0 b1 b2 b3 b4 b5 b6 b7 c : Bit, ∀ k : Fin 8, (∀ i : Fin 8, k ≤ i →
        [b0, b1, b2, b3, b4, b5, b6, b7].getD i.val 0 = 0) →
      [bitAt (if 0 = k.val then c else b0) 0, bitAt (if 1 = k.val then c else b1) 1, bitAt (if 2 = k.val then c else b2) 2,
        bitAt (if 3 = k.val then c else b3) 3, bitAt (if 4 = k.val then c else b4) 4, bitAt (if 5 = k.val then c else b5) 5,
        bitAt (if 6 = k.val then c else b6) 6, bitAt (if 7 = k.val then c else b7) 7].sum =
        [bitAt b0 0, bitAt b1 1, bitAt b2 2, bitAt b3 3, bitAt b4 4, bitAt b5 5, bitAt b6 6, bitAt b7 7].sum |||
          bitAt c k.val := by decide
  have h8 : List.range 8 = [0, 1, 2, 3, 4, 5, 6, 7] := rfl
  have hget : ∀ i, i < 8 → (bits ++ [b]).getD (8 * j + i) 0 = if i = bits.length % 8 then b else bits.getD (8 * j + i) 0 := by
    intro i hi
    simp only [List.getD_eq_getElem?_getD]
    by_cases h1 : 8 * j + i < bits.length
    · rw [List.getElem?_append_left h1, if_neg (by omega)]
    · rw [List.getElem?_append_right (by omega)]
      by_cases h2 : i = bits.length % 8
      · rw [if_pos h2, show 8 * j + i - bits.length = 0 by omega]; rfl
      · rw [if_neg h2, List.getElem?_eq_none (l := [b]) (by simp; omega), List.getElem?_eq_none (l := bits) (by omega)]
  have hk := key (bits.getD (8 * j + 0) 0) (bits.getD (8 * j + 1) 0) (bits.getD (8 * j + 2) 0) (bits.getD (8 * j + 3) 0)
    (bits.getD (8 * j + 4) 0) (bits.getD (8 * j + 5) 0) (bits.getD (8 * j + 6) 0) (bits.getD (8 * j + 7) 0) b
    ⟨bits.length % 8, Nat.mod_lt _ (by decide)⟩ (by
      intro i hi
      have hz : bits.getD (8 * j + i.val) 0 = 0 := by
        have : bits.length % 8 ≤ i.val := hi
        rw [List.getD_eq_getElem?_getD, List.getElem?_eq_none (by omega)]; rfl
      match i with
      | 0 | 1 | 2 | 3 | 4 | 5 | 6 | 7 => exact hz)
  rw [packByte, packByte, h8]
  simp only [List.map_cons, List.map_nil]
  rw [hget 0 (by decide), hget 1 (by decide), hget 2 (by decide), hget 3 (by decide), hget 4 (by decide), hget 5 (by decide),
    hget 6 (by decide), hget 7 (by decide)]
  exact hk

/-- A group that is already complete is not touched by what follows. -/
theorem packByte_append (bits more : List Bit) (j : Nat) (h : 8 * j + 8 ≤ bits.length) :
    packByte (bits ++ more) j = packByte bits j := by
  unfold packByte
  congr 1
  apply List.map_congr_left
  intro i hi
  have : i < 8 := List.mem_range.mp hi
  simp only [List.getD_eq_getElem?_getD]
  rw [List.getElem?_append_left (by omega)]

end Sys2Proof.Machine
end

