-- ==== Sys2Proof/Laws/State.lean ====
section
/-! SUPPORT. One lemma per field of State for every named update of it, each true by definition. -/

namespace Sys2Proof.Machine

@[simp] theorem setPacker_bw_bw (s : State) (p : Packer) : (s.setPacker .bw p).bw = p := rfl
@[simp] theorem setPacker_bw_br (s : State) (p : Packer) : (s.setPacker .bw p).br = s.br := rfl
@[simp] theorem setPacker_bw_ser (s : State) (p : Packer) : (s.setPacker .bw p).ser = s.ser := rfl
@[simp] theorem setPacker_bw_des (s : State) (p : Packer) : (s.setPacker .bw p).des = s.des := rfl
@[simp] theorem setPacker_bw_ct (s : State) (p : Packer) : (s.setPacker .bw p).ct = s.ct := rfl
@[simp] theorem setPacker_bw_err (s : State) (p : Packer) : (s.setPacker .bw p).err = s.err := rfl
@[simp] theorem setPacker_bw_mem (s : State) (p : Packer) : (s.setPacker .bw p).mem = s.mem := rfl
@[simp] theorem setPacker_bw_snkAns (s : State) (p : Packer) : (s.setPacker .bw p).snkAns = s.snkAns := rfl
@[simp] theorem setPacker_bw_srcAns (s : State) (p : Packer) : (s.setPacker .bw p).srcAns = s.srcAns := rfl
@[simp] theorem setPacker_bw_host (s : State) (p : Packer) : (s.setPacker .bw p).host = s.host := rfl
@[simp] theorem setPacker_bw_resp (s : State) (p : Packer) : (s.setPacker .bw p).resp = s.resp := rfl
@[simp] theorem setPacker_bw_free (s : State) (p : Packer) : (s.setPacker .bw p).free = s.free := rfl

@[simp] theorem setPacker_serBw_bw (s : State) (p : Packer) : (s.setPacker .serBw p).bw = s.bw := rfl
@[simp] theorem setPacker_serBw_br (s : State) (p : Packer) : (s.setPacker .serBw p).br = s.br := rfl
@[simp] theorem setPacker_serBw_ser (s : State) (p : Packer) :
    (s.setPacker .serBw p).ser = { s.ser with bw := p } := rfl
@[simp] theorem setPacker_serBw_des (s : State) (p : Packer) : (s.setPacker .serBw p).des = s.des := rfl
@[simp] theorem setPacker_serBw_ct (s : State) (p : Packer) : (s.setPacker .serBw p).ct = s.ct := rfl
@[simp] theorem setPacker_serBw_err (s : State) (p : Packer) : (s.setPacker .serBw p).err = s.err := rfl
@[simp] theorem setPacker_serBw_mem (s : State) (p : Packer) : (s.setPacker .serBw p).mem = s.mem := rfl
@[simp] theorem setPacker_serBw_snkAns (s : State) (p : Packer) : (s.setPacker .serBw p).snkAns = s.snkAns := rfl
@[simp] theorem setPacker_serBw_srcAns (s : State) (p : Packer) : (s.setPacker .serBw p).srcAns = s.srcAns := rfl
@[simp] theorem setPacker_serBw_host (s : State) (p : Packer) : (s.setPacker .serBw p).host = s.host := rfl
@[simp] theorem setPacker_serBw_resp (s : State) (p : Packer) : (s.setPacker .serBw p).resp = s.resp := rfl
@[simp] theorem setPacker_serBw_free (s : State) (p : Packer) : (s.setPacker .serBw p).free = s.free := rfl

@[simp] theorem setUnpacker_br_bw (s : State) (u : Unpacker) : (s.setUnpacker .br u).bw = s.bw := rfl
@[simp] theorem setUnpacker_br_br (s : State) (u : Unpacker) : (s.setUnpacker .br u).br = u := rfl
@[simp] theorem setUnpacker_br_ser (s : State) (u : Unpacker) : (s.setUnpacker .br u).ser = s.ser := rfl
@[simp] theorem setUnpacker_br_des (s : State) (u : Unpacker) : (s.setUnpacker .br u).des = s.des := rfl
@[simp] theorem setUnpacker_br_ct (s : State) (u : Unpacker) : (s.setUnpacker .br u).ct = s.ct := rfl
@[simp] theorem setUnpacker_br_err (s : State) (u : Unpacker) : (s.setUnpacker .br u).err = s.err := rfl
@[simp] theorem setUnpacker_br_mem (s : State) (u : Unpacker) : (s.setUnpacker .br u).mem = s.mem := rfl
@[simp] theorem setUnpacker_br_snkAns (s : State) (u : Unpacker) : (s.setUnpacker .br u).snkAns = s.snkAns := rfl
@[simp] theorem setUnpacker_br_srcAns (s : State) (u : Unpacker) : (s.setUnpacker .br u).srcAns = s.srcAns := rfl
@[simp] theorem setUnpacker_br_host (s : State) (u : Unpacker) : (s.setUnpacker .br u).host = s.host := rfl
@[simp] theorem setUnpacker_br_resp (s : State) (u : Unpacker) : (s.setUnpacker .br u).resp = s.resp := rfl
@[simp] theorem setUnpacker_br_free (s : State) (u : Unpacker) : (s.setUnpacker .br u).free = s.free := rfl

@[simp] theorem setUnpacker_desBr_bw (s : State) (u : Unpacker) : (s.setUnpacker .desBr u).bw = s.bw := rfl
@[simp] theorem setUnpacker_desBr_br (s : State) (u : Unpacker) : (s.setUnpacker .desBr u).br = s.br := rfl
@[simp] theorem setUnpacker_desBr_ser (s : State) (u : Unpacker) : (s.setUnpacker .desBr u).ser = s.ser := rfl
@[simp] theorem setUnpacker_desBr_des (s : State) (u : Unpacker) :
    (s.setUnpacker .desBr u).des = { s.des with br := u } := rfl
@[simp] theorem setUnpacker_desBr_ct (s : State) (u : Unpacker) : (s.setUnpacker .desBr u).ct = s.ct := rfl
@[simp] theorem setUnpacker_desBr_err (s : State) (u : Unpacker) : (s.setUnpacker .desBr u).err = s.err := rfl
@[simp] theorem setUnpacker_desBr_mem (s : State) (u : Unpacker) : (s.setUnpacker .desBr u).mem = s.mem := rfl
@[simp] theorem setUnpacker_desBr_snkAns (s : State) (u : Unpacker) : (s.setUnpacker .desBr u).snkAns = s.snkAns := rfl
@[simp] theorem setUnpacker_desBr_srcAns (s : State) (u : Unpacker) : (s.setUnpacker .desBr u).srcAns = s.srcAns := rfl
@[simp] theorem setUnpacker_desBr_host (s : State) (u : Unpacker) : (s.setUnpacker .desBr u).host = s.host := rfl
@[simp] theorem setUnpacker_desBr_resp (s : State) (u : Unpacker) : (s.setUnpacker .desBr u).resp = s.resp := rfl
@[simp] theorem setUnpacker_desBr_free (s : State) (u : Unpacker) : (s.setUnpacker .desBr u).free = s.free := rfl

@[simp] theorem losePacker_bw_bw (s : State) :
    (s.losePacker .bw).bw = { acc := Config.anyAcc s.free, cnt := Config.anyCnt s.free } := rfl
@[simp] theorem losePacker_bw_br (s : State) : (s.losePacker .bw).br = s.br := rfl
@[simp] theorem losePacker_bw_ser (s : State) : (s.losePacker .bw).ser = s.ser := rfl
@[simp] theorem losePacker_bw_des (s : State) : (s.losePacker .bw).des = s.des := rfl
@[simp] theorem losePacker_bw_ct (s : State) : (s.losePacker .bw).ct = s.ct := rfl
@[simp] theorem losePacker_bw_err (s : State) : (s.losePacker .bw).err = s.err := rfl
@[simp] theorem losePacker_bw_mem (s : State) : (s.losePacker .bw).mem = s.mem := rfl
@[simp] theorem losePacker_bw_snkAns (s : State) : (s.losePacker .bw).snkAns = s.snkAns := rfl
@[simp] theorem losePacker_bw_srcAns (s : State) : (s.losePacker .bw).srcAns = s.srcAns := rfl
@[simp] theorem losePacker_bw_host (s : State) : (s.losePacker .bw).host = s.host := rfl
@[simp] theorem losePacker_bw_resp (s : State) : (s.losePacker .bw).resp = s.resp := rfl
@[simp] theorem losePacker_bw_free (s : State) : (s.losePacker .bw).free = s.free + 1 := rfl

@[simp] theorem losePacker_serBw_bw (s : State) : (s.losePacker .serBw).bw = s.bw := rfl
@[simp] theorem losePacker_serBw_br (s : State) : (s.losePacker .serBw).br = s.br := rfl
@[simp] theorem losePacker_serBw_ser (s : State) :
    (s.losePacker .serBw).ser = { s.ser with bw := { acc := Config.anyAcc s.free, cnt := Config.anyCnt s.free } } := rfl
@[simp] theorem losePacker_serBw_des (s : State) : (s.losePacker .serBw).des = s.des := rfl
@[simp] theorem losePacker_serBw_ct (s : State) : (s.losePacker .serBw).ct = s.ct := rfl
@[simp] theorem losePacker_serBw_err (s : State) : (s.losePacker .serBw).err = s.err := rfl
@[simp] theorem losePacker_serBw_mem (s : State) : (s.losePacker .serBw).mem = s.mem := rfl
@[simp] theorem losePacker_serBw_snkAns (s : State) : (s.losePacker .serBw).snkAns = s.snkAns := rfl
@[simp] theorem losePacker_serBw_srcAns (s : State) : (s.losePacker .serBw).srcAns = s.srcAns := rfl
@[simp] theorem losePacker_serBw_host (s : State) : (s.losePacker .serBw).host = s.host := rfl
@[simp] theorem losePacker_serBw_resp (s : State) : (s.losePacker .serBw).resp = s.resp := rfl
@[simp] theorem losePacker_serBw_free (s : State) : (s.losePacker .serBw).free = s.free + 1 := rfl

@[simp] theorem loseUnpacker_br_bw (s : State) : (s.loseUnpacker .br).bw = s.bw := rfl
@[simp] theorem loseUnpacker_br_br (s : State) :
    (s.loseUnpacker .br).br = { cur := Config.anyCur s.free, pos := BitVec.ofNat 4 (Config.anyPos s.free).val } := rfl
@[simp] theorem loseUnpacker_br_ser (s : State) : (s.loseUnpacker .br).ser = s.ser := rfl
@[simp] theorem loseUnpacker_br_des (s : State) : (s.loseUnpacker .br).des = s.des := rfl
@[simp] theorem loseUnpacker_br_ct (s : State) : (s.loseUnpacker .br).ct = s.ct := rfl
@[simp] theorem loseUnpacker_br_err (s : State) : (s.loseUnpacker .br).err = s.err := rfl
@[simp] theorem loseUnpacker_br_mem (s : State) : (s.loseUnpacker .br).mem = s.mem := rfl
@[simp] theorem loseUnpacker_br_snkAns (s : State) : (s.loseUnpacker .br).snkAns = s.snkAns := rfl
@[simp] theorem loseUnpacker_br_srcAns (s : State) : (s.loseUnpacker .br).srcAns = s.srcAns := rfl
@[simp] theorem loseUnpacker_br_host (s : State) : (s.loseUnpacker .br).host = s.host := rfl
@[simp] theorem loseUnpacker_br_resp (s : State) : (s.loseUnpacker .br).resp = s.resp := rfl
@[simp] theorem loseUnpacker_br_free (s : State) : (s.loseUnpacker .br).free = s.free + 1 := rfl

@[simp] theorem loseUnpacker_desBr_bw (s : State) : (s.loseUnpacker .desBr).bw = s.bw := rfl
@[simp] theorem loseUnpacker_desBr_br (s : State) : (s.loseUnpacker .desBr).br = s.br := rfl
@[simp] theorem loseUnpacker_desBr_ser (s : State) : (s.loseUnpacker .desBr).ser = s.ser := rfl
@[simp] theorem loseUnpacker_desBr_des (s : State) :
    (s.loseUnpacker .desBr).des = { s.des with br := { cur := Config.anyCur s.free, pos := BitVec.ofNat 4 (Config.anyPos s.free).val } } := rfl
@[simp] theorem loseUnpacker_desBr_ct (s : State) : (s.loseUnpacker .desBr).ct = s.ct := rfl
@[simp] theorem loseUnpacker_desBr_err (s : State) : (s.loseUnpacker .desBr).err = s.err := rfl
@[simp] theorem loseUnpacker_desBr_mem (s : State) : (s.loseUnpacker .desBr).mem = s.mem := rfl
@[simp] theorem loseUnpacker_desBr_snkAns (s : State) : (s.loseUnpacker .desBr).snkAns = s.snkAns := rfl
@[simp] theorem loseUnpacker_desBr_srcAns (s : State) : (s.loseUnpacker .desBr).srcAns = s.srcAns := rfl
@[simp] theorem loseUnpacker_desBr_host (s : State) : (s.loseUnpacker .desBr).host = s.host := rfl
@[simp] theorem loseUnpacker_desBr_resp (s : State) : (s.loseUnpacker .desBr).resp = s.resp := rfl
@[simp] theorem loseUnpacker_desBr_free (s : State) : (s.loseUnpacker .desBr).free = s.free + 1 := rfl

@[simp] theorem loseSink_bw (s : State) : (s.loseSink).bw = s.bw := rfl
@[simp] theorem loseSink_br (s : State) : (s.loseSink).br = s.br := rfl
@[simp] theorem loseSink_ser (s : State) : (s.loseSink).ser = s.ser := rfl
@[simp] theorem loseSink_des (s : State) : (s.loseSink).des = s.des := rfl
@[simp] theorem loseSink_ct (s : State) : (s.loseSink).ct = s.ct := rfl
@[simp] theorem loseSink_err (s : State) : (s.loseSink).err = s.err := rfl
@[simp] theorem loseSink_mem (s : State) :
    (s.loseSink).mem = { s.mem with snk := s.mem.snk ++ Config.anySinkTail s.free } := rfl
@[simp] theorem loseSink_snkAns (s : State) : (s.loseSink).snkAns = s.snkAns := rfl
@[simp] theorem loseSink_srcAns (s : State) : (s.loseSink).srcAns = s.srcAns := rfl
@[simp] theorem loseSink_host (s : State) : (s.loseSink).host = s.host := rfl
@[simp] theorem loseSink_resp (s : State) : (s.loseSink).resp = s.resp := rfl
@[simp] theorem loseSink_free (s : State) : (s.loseSink).free = s.free + 1 := rfl

@[simp] theorem loseContainer_bw (s : State) : (s.loseContainer).bw = s.bw := rfl
@[simp] theorem loseContainer_br (s : State) : (s.loseContainer).br = s.br := rfl
@[simp] theorem loseContainer_ser (s : State) : (s.loseContainer).ser = s.ser := rfl
@[simp] theorem loseContainer_des (s : State) : (s.loseContainer).des = s.des := rfl
@[simp] theorem loseContainer_ct (s : State) :
    (s.loseContainer).ct = { shape := Config.anyShape s.free, leaves := (Config.anyLeaves s.free).take Config.leafCap, msg := Config.anyMsg s.free } := rfl
@[simp] theorem loseContainer_err (s : State) : (s.loseContainer).err = s.err := rfl
@[simp] theorem loseContainer_mem (s : State) : (s.loseContainer).mem = s.mem := rfl
@[simp] theorem loseContainer_snkAns (s : State) : (s.loseContainer).snkAns = s.snkAns := rfl
@[simp] theorem loseContainer_srcAns (s : State) : (s.loseContainer).srcAns = s.srcAns := rfl
@[simp] theorem loseContainer_host (s : State) : (s.loseContainer).host = s.host := rfl
@[simp] theorem loseContainer_resp (s : State) : (s.loseContainer).resp = s.resp := rfl
@[simp] theorem loseContainer_free (s : State) : (s.loseContainer).free = s.free + 1 := rfl

@[simp] theorem loseSerWork_bw (s : State) : (s.loseSerWork).bw = s.bw := rfl
@[simp] theorem loseSerWork_br (s : State) : (s.loseSerWork).br = s.br := rfl
@[simp] theorem loseSerWork_ser (s : State) :
    (s.loseSerWork).ser = { s.ser with idx := Config.anySerIdx s.free, tbcv := Config.anyTbcv s.free } := rfl
@[simp] theorem loseSerWork_des (s : State) : (s.loseSerWork).des = s.des := rfl
@[simp] theorem loseSerWork_ct (s : State) : (s.loseSerWork).ct = s.ct := rfl
@[simp] theorem loseSerWork_err (s : State) : (s.loseSerWork).err = s.err := rfl
@[simp] theorem loseSerWork_mem (s : State) : (s.loseSerWork).mem = s.mem := rfl
@[simp] theorem loseSerWork_snkAns (s : State) : (s.loseSerWork).snkAns = s.snkAns := rfl
@[simp] theorem loseSerWork_srcAns (s : State) : (s.loseSerWork).srcAns = s.srcAns := rfl
@[simp] theorem loseSerWork_host (s : State) : (s.loseSerWork).host = s.host := rfl
@[simp] theorem loseSerWork_resp (s : State) : (s.loseSerWork).resp = s.resp := rfl
@[simp] theorem loseSerWork_free (s : State) : (s.loseSerWork).free = s.free + 1 := rfl

@[simp] theorem loseDesWork_bw (s : State) : (s.loseDesWork).bw = s.bw := rfl
@[simp] theorem loseDesWork_br (s : State) : (s.loseDesWork).br = s.br := rfl
@[simp] theorem loseDesWork_ser (s : State) : (s.loseDesWork).ser = s.ser := rfl
@[simp] theorem loseDesWork_des (s : State) :
    (s.loseDesWork).des = { s.des with L := Config.anyL s.free, tbc := Config.anyTbc s.free, bitsRemaining := Config.anyBitsRemaining s.free, idx := Config.anyDesIdx s.free } := rfl
@[simp] theorem loseDesWork_ct (s : State) : (s.loseDesWork).ct = s.ct := rfl
@[simp] theorem loseDesWork_err (s : State) : (s.loseDesWork).err = s.err := rfl
@[simp] theorem loseDesWork_mem (s : State) : (s.loseDesWork).mem = s.mem := rfl
@[simp] theorem loseDesWork_snkAns (s : State) : (s.loseDesWork).snkAns = s.snkAns := rfl
@[simp] theorem loseDesWork_srcAns (s : State) : (s.loseDesWork).srcAns = s.srcAns := rfl
@[simp] theorem loseDesWork_host (s : State) : (s.loseDesWork).host = s.host := rfl
@[simp] theorem loseDesWork_resp (s : State) : (s.loseDesWork).resp = s.resp := rfl
@[simp] theorem loseDesWork_free (s : State) : (s.loseDesWork).free = s.free + 1 := rfl

@[simp] theorem loseSource_bw (s : State) (start limit : Nat) : (s.loseSource start limit).bw = s.bw := rfl
@[simp] theorem loseSource_br (s : State) (start limit : Nat) : (s.loseSource start limit).br = s.br := rfl
@[simp] theorem loseSource_ser (s : State) (start limit : Nat) : (s.loseSource start limit).ser = s.ser := rfl
@[simp] theorem loseSource_des (s : State) (start limit : Nat) : (s.loseSource start limit).des = s.des := rfl
@[simp] theorem loseSource_ct (s : State) (start limit : Nat) : (s.loseSource start limit).ct = s.ct := rfl
@[simp] theorem loseSource_err (s : State) (start limit : Nat) : (s.loseSource start limit).err = s.err := rfl
@[simp] theorem loseSource_mem (s : State) (start limit : Nat) :
    (s.loseSource start limit).mem = { s.mem with srcPos := start + Config.anyAdvance s.free % (limit - start + 1) } := rfl
@[simp] theorem loseSource_snkAns (s : State) (start limit : Nat) : (s.loseSource start limit).snkAns = s.snkAns := rfl
@[simp] theorem loseSource_srcAns (s : State) (start limit : Nat) : (s.loseSource start limit).srcAns = s.srcAns := rfl
@[simp] theorem loseSource_host (s : State) (start limit : Nat) : (s.loseSource start limit).host = s.host := rfl
@[simp] theorem loseSource_resp (s : State) (start limit : Nat) : (s.loseSource start limit).resp = s.resp := rfl
@[simp] theorem loseSource_free (s : State) (start limit : Nat) : (s.loseSource start limit).free = s.free + 1 := rfl

@[simp] theorem acceptByte_bw (s : State) (b : Byte) : (s.acceptByte b).bw = s.bw := rfl
@[simp] theorem acceptByte_br (s : State) (b : Byte) : (s.acceptByte b).br = s.br := rfl
@[simp] theorem acceptByte_ser (s : State) (b : Byte) : (s.acceptByte b).ser = s.ser := rfl
@[simp] theorem acceptByte_des (s : State) (b : Byte) : (s.acceptByte b).des = s.des := rfl
@[simp] theorem acceptByte_ct (s : State) (b : Byte) : (s.acceptByte b).ct = s.ct := rfl
@[simp] theorem acceptByte_err (s : State) (b : Byte) : (s.acceptByte b).err = s.err := rfl
@[simp] theorem acceptByte_mem (s : State) (b : Byte) : (s.acceptByte b).mem = s.mem.append b := rfl
@[simp] theorem acceptByte_snkAns (s : State) (b : Byte) : (s.acceptByte b).snkAns = s.snkAns.tail := rfl
@[simp] theorem acceptByte_srcAns (s : State) (b : Byte) : (s.acceptByte b).srcAns = s.srcAns := rfl
@[simp] theorem acceptByte_host (s : State) (b : Byte) : (s.acceptByte b).host = s.host := rfl
@[simp] theorem acceptByte_resp (s : State) (b : Byte) : (s.acceptByte b).resp = s.resp := rfl
@[simp] theorem acceptByte_free (s : State) (b : Byte) : (s.acceptByte b).free = s.free := rfl

@[simp] theorem takeByte_bw (s : State) : (s.takeByte).bw = s.bw := rfl
@[simp] theorem takeByte_br (s : State) : (s.takeByte).br = s.br := rfl
@[simp] theorem takeByte_ser (s : State) : (s.takeByte).ser = s.ser := rfl
@[simp] theorem takeByte_des (s : State) : (s.takeByte).des = s.des := rfl
@[simp] theorem takeByte_ct (s : State) : (s.takeByte).ct = s.ct := rfl
@[simp] theorem takeByte_err (s : State) : (s.takeByte).err = s.err := rfl
@[simp] theorem takeByte_mem (s : State) : (s.takeByte).mem = s.mem.advance := rfl
@[simp] theorem takeByte_snkAns (s : State) : (s.takeByte).snkAns = s.snkAns := rfl
@[simp] theorem takeByte_srcAns (s : State) : (s.takeByte).srcAns = s.srcAns.tail := rfl
@[simp] theorem takeByte_host (s : State) : (s.takeByte).host = s.host := rfl
@[simp] theorem takeByte_resp (s : State) : (s.takeByte).resp = s.resp := rfl
@[simp] theorem takeByte_free (s : State) : (s.takeByte).free = s.free := rfl

@[simp] theorem takeFault_bw (s : State) (c : Cause) (sub : BitVec 2) : (s.takeFault c sub).bw = s.bw := rfl
@[simp] theorem takeFault_br (s : State) (c : Cause) (sub : BitVec 2) : (s.takeFault c sub).br = s.br := rfl
@[simp] theorem takeFault_ser (s : State) (c : Cause) (sub : BitVec 2) :
    (s.takeFault c sub).ser = { s.ser with phase := .idle } := rfl
@[simp] theorem takeFault_des (s : State) (c : Cause) (sub : BitVec 2) :
    (s.takeFault c sub).des = { s.des with phase := .idle } := rfl
@[simp] theorem takeFault_ct (s : State) (c : Cause) (sub : BitVec 2) : (s.takeFault c sub).ct = s.ct := rfl
@[simp] theorem takeFault_err (s : State) (c : Cause) (sub : BitVec 2) :
    (s.takeFault c sub).err = { code := c.code, sub := sub } := rfl
@[simp] theorem takeFault_mem (s : State) (c : Cause) (sub : BitVec 2) : (s.takeFault c sub).mem = s.mem := rfl
@[simp] theorem takeFault_snkAns (s : State) (c : Cause) (sub : BitVec 2) : (s.takeFault c sub).snkAns = s.snkAns := rfl
@[simp] theorem takeFault_srcAns (s : State) (c : Cause) (sub : BitVec 2) : (s.takeFault c sub).srcAns = s.srcAns := rfl
@[simp] theorem takeFault_host (s : State) (c : Cause) (sub : BitVec 2) : (s.takeFault c sub).host = s.host := rfl
@[simp] theorem takeFault_resp (s : State) (c : Cause) (sub : BitVec 2) : (s.takeFault c sub).resp = .fault c sub := rfl
@[simp] theorem takeFault_free (s : State) (c : Cause) (sub : BitVec 2) : (s.takeFault c sub).free = s.free := rfl

@[simp] theorem resetUnits_bw (s : State) : (s.resetUnits).bw = Packer.opened := rfl
@[simp] theorem resetUnits_br (s : State) : (s.resetUnits).br = Unpacker.opened := rfl
@[simp] theorem resetUnits_ser (s : State) :
    (s.resetUnits).ser = { s.ser with bw := Packer.opened, phase := .idle } := rfl
@[simp] theorem resetUnits_des (s : State) :
    (s.resetUnits).des = { s.des with br := Unpacker.opened, phase := .idle } := rfl
@[simp] theorem resetUnits_ct (s : State) : (s.resetUnits).ct = Container.empty := rfl
@[simp] theorem resetUnits_err (s : State) : (s.resetUnits).err = ErrLatch.clear := rfl
@[simp] theorem resetUnits_mem (s : State) : (s.resetUnits).mem = s.mem := rfl
@[simp] theorem resetUnits_snkAns (s : State) : (s.resetUnits).snkAns = s.snkAns := rfl
@[simp] theorem resetUnits_srcAns (s : State) : (s.resetUnits).srcAns = s.srcAns := rfl
@[simp] theorem resetUnits_host (s : State) : (s.resetUnits).host = s.host := rfl
@[simp] theorem resetUnits_resp (s : State) : (s.resetUnits).resp = s.resp := rfl
@[simp] theorem resetUnits_free (s : State) : (s.resetUnits).free = s.free := rfl
@[simp] theorem resetState_bw (s : State) : (s.resetState).bw = Packer.opened := rfl
@[simp] theorem resetState_br (s : State) : (s.resetState).br = Unpacker.opened := rfl
@[simp] theorem resetState_ct (s : State) : (s.resetState).ct = Container.empty := rfl
@[simp] theorem resetState_err (s : State) : (s.resetState).err = ErrLatch.clear := rfl
@[simp] theorem resetState_mem (s : State) : (s.resetState).mem = s.mem := rfl
@[simp] theorem resetState_snkAns (s : State) : (s.resetState).snkAns = s.snkAns := rfl
@[simp] theorem resetState_srcAns (s : State) : (s.resetState).srcAns = s.srcAns := rfl
@[simp] theorem resetState_host (s : State) : (s.resetState).host = s.host := rfl
@[simp] theorem resetState_resp (s : State) : (s.resetState).resp = s.resp := rfl
@[simp] theorem resetState_serBw (s : State) : (s.resetState).ser.bw = Packer.opened := rfl
@[simp] theorem resetState_serPhase (s : State) : (s.resetState).ser.phase = .idle := rfl
@[simp] theorem resetState_desBr (s : State) : (s.resetState).des.br = Unpacker.opened := rfl
@[simp] theorem resetState_desPhase (s : State) : (s.resetState).des.phase = .idle := rfl

@[simp] theorem respond_bw (s : State) (r : Response) : (s.respond r).bw = s.bw := rfl
@[simp] theorem respond_br (s : State) (r : Response) : (s.respond r).br = s.br := rfl
@[simp] theorem respond_ser (s : State) (r : Response) : (s.respond r).ser = s.ser := rfl
@[simp] theorem respond_des (s : State) (r : Response) : (s.respond r).des = s.des := rfl
@[simp] theorem respond_ct (s : State) (r : Response) : (s.respond r).ct = s.ct := rfl
@[simp] theorem respond_err (s : State) (r : Response) : (s.respond r).err = s.err := rfl
@[simp] theorem respond_mem (s : State) (r : Response) : (s.respond r).mem = s.mem := rfl
@[simp] theorem respond_snkAns (s : State) (r : Response) : (s.respond r).snkAns = s.snkAns := rfl
@[simp] theorem respond_srcAns (s : State) (r : Response) : (s.respond r).srcAns = s.srcAns := rfl
@[simp] theorem respond_host (s : State) (r : Response) : (s.respond r).host = s.host := rfl
@[simp] theorem respond_resp (s : State) (r : Response) : (s.respond r).resp = r := rfl
@[simp] theorem respond_free (s : State) (r : Response) : (s.respond r).free = s.free := rfl

@[simp] theorem enterSer_bw (s : State) (p : SerPhase) : (s.enterSer p).bw = s.bw := rfl
@[simp] theorem enterSer_br (s : State) (p : SerPhase) : (s.enterSer p).br = s.br := rfl
@[simp] theorem enterSer_ser (s : State) (p : SerPhase) :
    (s.enterSer p).ser = { s.ser with phase := p, idx := 0 } := rfl
@[simp] theorem enterSer_des (s : State) (p : SerPhase) : (s.enterSer p).des = s.des := rfl
@[simp] theorem enterSer_ct (s : State) (p : SerPhase) : (s.enterSer p).ct = s.ct := rfl
@[simp] theorem enterSer_err (s : State) (p : SerPhase) : (s.enterSer p).err = s.err := rfl
@[simp] theorem enterSer_mem (s : State) (p : SerPhase) : (s.enterSer p).mem = s.mem := rfl
@[simp] theorem enterSer_snkAns (s : State) (p : SerPhase) : (s.enterSer p).snkAns = s.snkAns := rfl
@[simp] theorem enterSer_srcAns (s : State) (p : SerPhase) : (s.enterSer p).srcAns = s.srcAns := rfl
@[simp] theorem enterSer_host (s : State) (p : SerPhase) : (s.enterSer p).host = s.host := rfl
@[simp] theorem enterSer_resp (s : State) (p : SerPhase) : (s.enterSer p).resp = s.resp := rfl
@[simp] theorem enterSer_free (s : State) (p : SerPhase) : (s.enterSer p).free = s.free := rfl

@[simp] theorem countSer_bw (s : State) : (s.countSer).bw = s.bw := rfl
@[simp] theorem countSer_br (s : State) : (s.countSer).br = s.br := rfl
@[simp] theorem countSer_ser (s : State) : (s.countSer).ser = { s.ser with idx := s.ser.idx + 1 } := rfl
@[simp] theorem countSer_des (s : State) : (s.countSer).des = s.des := rfl
@[simp] theorem countSer_ct (s : State) : (s.countSer).ct = s.ct := rfl
@[simp] theorem countSer_err (s : State) : (s.countSer).err = s.err := rfl
@[simp] theorem countSer_mem (s : State) : (s.countSer).mem = s.mem := rfl
@[simp] theorem countSer_snkAns (s : State) : (s.countSer).snkAns = s.snkAns := rfl
@[simp] theorem countSer_srcAns (s : State) : (s.countSer).srcAns = s.srcAns := rfl
@[simp] theorem countSer_host (s : State) : (s.countSer).host = s.host := rfl
@[simp] theorem countSer_resp (s : State) : (s.countSer).resp = s.resp := rfl
@[simp] theorem countSer_free (s : State) : (s.countSer).free = s.free := rfl

@[simp] theorem computeTbc_bw (s : State) : (s.computeTbc).bw = s.bw := rfl
@[simp] theorem computeTbc_br (s : State) : (s.computeTbc).br = s.br := rfl
@[simp] theorem computeTbc_ser (s : State) :
    (s.computeTbc).ser = { s.ser with tbcv := BitVec.ofNat 4 (tbc (s.ct.shape.length + s.ct.msg.length)) } := rfl
@[simp] theorem computeTbc_des (s : State) : (s.computeTbc).des = s.des := rfl
@[simp] theorem computeTbc_ct (s : State) : (s.computeTbc).ct = s.ct := rfl
@[simp] theorem computeTbc_err (s : State) : (s.computeTbc).err = s.err := rfl
@[simp] theorem computeTbc_mem (s : State) : (s.computeTbc).mem = s.mem := rfl
@[simp] theorem computeTbc_snkAns (s : State) : (s.computeTbc).snkAns = s.snkAns := rfl
@[simp] theorem computeTbc_srcAns (s : State) : (s.computeTbc).srcAns = s.srcAns := rfl
@[simp] theorem computeTbc_host (s : State) : (s.computeTbc).host = s.host := rfl
@[simp] theorem computeTbc_resp (s : State) : (s.computeTbc).resp = s.resp := rfl
@[simp] theorem computeTbc_free (s : State) : (s.computeTbc).free = s.free := rfl

@[simp] theorem enterDes_bw (s : State) (p : DesPhase) : (s.enterDes p).bw = s.bw := rfl
@[simp] theorem enterDes_br (s : State) (p : DesPhase) : (s.enterDes p).br = s.br := rfl
@[simp] theorem enterDes_ser (s : State) (p : DesPhase) : (s.enterDes p).ser = s.ser := rfl
@[simp] theorem enterDes_des (s : State) (p : DesPhase) :
    (s.enterDes p).des = { s.des with phase := p, idx := 0 } := rfl
@[simp] theorem enterDes_ct (s : State) (p : DesPhase) : (s.enterDes p).ct = s.ct := rfl
@[simp] theorem enterDes_err (s : State) (p : DesPhase) : (s.enterDes p).err = s.err := rfl
@[simp] theorem enterDes_mem (s : State) (p : DesPhase) : (s.enterDes p).mem = s.mem := rfl
@[simp] theorem enterDes_snkAns (s : State) (p : DesPhase) : (s.enterDes p).snkAns = s.snkAns := rfl
@[simp] theorem enterDes_srcAns (s : State) (p : DesPhase) : (s.enterDes p).srcAns = s.srcAns := rfl
@[simp] theorem enterDes_host (s : State) (p : DesPhase) : (s.enterDes p).host = s.host := rfl
@[simp] theorem enterDes_resp (s : State) (p : DesPhase) : (s.enterDes p).resp = s.resp := rfl
@[simp] theorem enterDes_free (s : State) (p : DesPhase) : (s.enterDes p).free = s.free := rfl

@[simp] theorem countDes_bw (s : State) : (s.countDes).bw = s.bw := rfl
@[simp] theorem countDes_br (s : State) : (s.countDes).br = s.br := rfl
@[simp] theorem countDes_ser (s : State) : (s.countDes).ser = s.ser := rfl
@[simp] theorem countDes_des (s : State) : (s.countDes).des = { s.des with idx := s.des.idx + 1 } := rfl
@[simp] theorem countDes_ct (s : State) : (s.countDes).ct = s.ct := rfl
@[simp] theorem countDes_err (s : State) : (s.countDes).err = s.err := rfl
@[simp] theorem countDes_mem (s : State) : (s.countDes).mem = s.mem := rfl
@[simp] theorem countDes_snkAns (s : State) : (s.countDes).snkAns = s.snkAns := rfl
@[simp] theorem countDes_srcAns (s : State) : (s.countDes).srcAns = s.srcAns := rfl
@[simp] theorem countDes_host (s : State) : (s.countDes).host = s.host := rfl
@[simp] theorem countDes_resp (s : State) : (s.countDes).resp = s.resp := rfl
@[simp] theorem countDes_free (s : State) : (s.countDes).free = s.free := rfl

@[simp] theorem clearCt_bw (s : State) : (s.clearCt).bw = s.bw := rfl
@[simp] theorem clearCt_br (s : State) : (s.clearCt).br = s.br := rfl
@[simp] theorem clearCt_ser (s : State) : (s.clearCt).ser = s.ser := rfl
@[simp] theorem clearCt_des (s : State) : (s.clearCt).des = s.des := rfl
@[simp] theorem clearCt_ct (s : State) : (s.clearCt).ct = Container.empty := rfl
@[simp] theorem clearCt_err (s : State) : (s.clearCt).err = s.err := rfl
@[simp] theorem clearCt_mem (s : State) : (s.clearCt).mem = s.mem := rfl
@[simp] theorem clearCt_snkAns (s : State) : (s.clearCt).snkAns = s.snkAns := rfl
@[simp] theorem clearCt_srcAns (s : State) : (s.clearCt).srcAns = s.srcAns := rfl
@[simp] theorem clearCt_host (s : State) : (s.clearCt).host = s.host := rfl
@[simp] theorem clearCt_resp (s : State) : (s.clearCt).resp = s.resp := rfl
@[simp] theorem clearCt_free (s : State) : (s.clearCt).free = s.free := rfl

@[simp] theorem popHost_bw (s : State) : (s.popHost).bw = s.bw := rfl
@[simp] theorem popHost_br (s : State) : (s.popHost).br = s.br := rfl
@[simp] theorem popHost_ser (s : State) : (s.popHost).ser = s.ser := rfl
@[simp] theorem popHost_des (s : State) : (s.popHost).des = s.des := rfl
@[simp] theorem popHost_ct (s : State) : (s.popHost).ct = s.ct := rfl
@[simp] theorem popHost_err (s : State) : (s.popHost).err = s.err := rfl
@[simp] theorem popHost_mem (s : State) : (s.popHost).mem = s.mem := rfl
@[simp] theorem popHost_snkAns (s : State) : (s.popHost).snkAns = s.snkAns := rfl
@[simp] theorem popHost_srcAns (s : State) : (s.popHost).srcAns = s.srcAns := rfl
@[simp] theorem popHost_host (s : State) : (s.popHost).host = s.host.tail := rfl
@[simp] theorem popHost_resp (s : State) : (s.popHost).resp = s.resp := rfl
@[simp] theorem popHost_free (s : State) : (s.popHost).free = s.free := rfl

@[simp] theorem issueNext_bw (s : State) (p : Port) : (s.issueNext p).bw = s.bw := rfl
@[simp] theorem issueNext_br (s : State) (p : Port) : (s.issueNext p).br = s.br := rfl
@[simp] theorem issueNext_ser (s : State) (p : Port) : (s.issueNext p).ser = s.ser := rfl
@[simp] theorem issueNext_des (s : State) (p : Port) : (s.issueNext p).des = s.des := rfl
@[simp] theorem issueNext_ct (s : State) (p : Port) : (s.issueNext p).ct = s.ct := rfl
@[simp] theorem issueNext_err (s : State) (p : Port) : (s.issueNext p).err = s.err := rfl
@[simp] theorem issueNext_mem (s : State) (p : Port) : (s.issueNext p).mem = s.mem := rfl
@[simp] theorem issueNext_snkAns (s : State) (p : Port) : (s.issueNext p).snkAns = s.snkAns := rfl
@[simp] theorem issueNext_srcAns (s : State) (p : Port) : (s.issueNext p).srcAns = s.srcAns := rfl
@[simp] theorem issueNext_host (s : State) (p : Port) : (s.issueNext p).host = .issue p :: s.host := rfl
@[simp] theorem issueNext_resp (s : State) (p : Port) : (s.issueNext p).resp = s.resp := rfl
@[simp] theorem issueNext_free (s : State) (p : Port) : (s.issueNext p).free = s.free := rfl

@[simp] theorem packer_bw (s : State) : s.packer .bw = s.bw := rfl
@[simp] theorem packer_serBw (s : State) : s.packer .serBw = s.ser.bw := rfl
@[simp] theorem unpacker_br (s : State) : s.unpacker .br = s.br := rfl
@[simp] theorem unpacker_desBr (s : State) : s.unpacker .desBr = s.des.br := rfl

theorem fits_iff (c : Container) : c.fits = true ↔ c.leaves.length ≤ 256 := by
  rw [Container.fits, decide_eq_true_eq]; rfl

theorem containerValid_iff (c : Container) :
    containerValid c = true ↔ 2 ≤ c.leaves.length ∧ c.shape.length = 2 * c.leaves.length - 1 := by
  rw [containerValid, Bool.and_eq_true, decide_eq_true_eq, decide_eq_true_eq]; rfl

end Sys2Proof.Machine
end

