-- ==== Sys2Proof/Laws/Ops.lean ====
section
/-! SUPPORT. One lemma per shared operation that says everything it can do; what a piece of a command keeps; and the two exact
descriptions of a piece: the bytes it writes (`Emits`) and the bytes it reads (`Reads`), under any answers of the environment. -/

namespace Sys2Proof.Machine

/-! ## Pieces of commands -/

/-- The state a piece of a command carries on, whichever way it ends. -/
def Res.state {α : Type} : Res α → State
  | .ok _ s => s
  | .raised _ _ s => s

/-- Every fault a piece can raise meets P. -/
def Res.Raises {α : Type} (P : Cause → BitVec 2 → Prop) : Res α → Prop
  | .ok _ _ => True
  | .raised c sub _ => P c sub

@[simp] theorem state_ok {α : Type} (a : α) (s : State) : (Res.ok a s).state = s := rfl
@[simp] theorem state_raised {α : Type} (c : Cause) (sub : BitVec 2) (s : State) :
    (Res.raised c sub s : Res α).state = s := rfl
@[simp] theorem andThen_ok {α β : Type} (a : α) (s : State) (f : α → State → Res β) : (Res.ok a s).andThen f = f a s := rfl
@[simp] theorem andThen_raised {α β : Type} (c : Cause) (sub : BitVec 2) (s : State) (f : α → State → Res β) :
    (Res.raised c sub s : Res α).andThen f = .raised c sub s := rfl
@[simp] theorem raises_ok {α : Type} (P : Cause → BitVec 2 → Prop) (a : α) (s : State) : (Res.ok a s).Raises P := trivial
@[simp] theorem raises_raised {α : Type} (P : Cause → BitVec 2 → Prop) (c : Cause) (sub : BitVec 2) (s : State) :
    (Res.raised c sub s : Res α).Raises P ↔ P c sub := Iff.rfl

/-- What both pieces keep, the two after each other keep. -/
theorem Res.keeps_andThen {α β : Type} {R : State → Prop} {r : Res α} {f : α → State → Res β} (h : R r.state)
    (hf : ∀ a s, R s → R (f a s).state) : R (r.andThen f).state := by
  cases r with
  | ok a s => exact hf a s h
  | raised c sub s => exact h

theorem Res.raises_andThen {α β : Type} {P : Cause → BitVec 2 → Prop} {r : Res α} {f : α → State → Res β}
    (h : r.Raises P) (hf : ∀ a s, (f a s).Raises P) : (r.andThen f).Raises P := by
  cases r with
  | ok a s => exact hf a s
  | raised c sub s => exact h

theorem Res.andThen_eq_ok {α β : Type} {r : Res α} {f : α → State → Res β} {b : β} {t : State}
    (h : r.andThen f = .ok b t) : ∃ a s, r = .ok a s ∧ f a s = .ok b t := by
  cases r with
  | ok a s => exact ⟨a, s, rfl, h⟩
  | raised c sub s => cases h

/-- Everything a command other than SYS.RESET can do. -/
theorem runCommand_cases (body : State → Res Result) (s : State) :
    (s.err.code ≠ 0 ∧ runCommand body s = .next (s.respond .refused)) ∨
    (s.err.code = 0 ∧ ∃ r t, body s = .ok r t ∧ runCommand body s = .next (t.respond (.ok r))) ∨
    (s.err.code = 0 ∧ ∃ c sub t, body s = .raised c sub t ∧ runCommand body s = .next (t.takeFault c sub)) := by
  unfold runCommand
  by_cases h : s.err.code = 0
  · rw [if_pos h]
    cases body s with
    | ok r t => exact .inr (.inl ⟨h, r, t, rfl, rfl⟩)
    | raised c sub t => exact .inr (.inr ⟨h, c, sub, t, rfl, rfl⟩)
  · rw [if_neg h]; exact .inl ⟨h, rfl⟩

theorem runCommand_ok {body : State → Res Result} {s t : State} {r : Result} (hs : s.err.code = 0) (h : body s = .ok r t) :
    runCommand body s = .next (t.respond (.ok r)) := by
  rw [runCommand, if_pos hs, h]

theorem runCommand_raised {body : State → Res Result} {s t : State} {c : Cause} {sub : BitVec 2} (hs : s.err.code = 0)
    (h : body s = .raised c sub t) : runCommand body s = .next (t.takeFault c sub) := by
  rw [runCommand, if_pos hs, h]

theorem runCommand_latched (body : State → Res Result) {s : State} (hs : s.err.code ≠ 0) :
    runCommand body s = .next (s.respond .refused) := by
  rw [runCommand, if_neg hs]

/-! ## The streams -/

theorem append_wf (m : Memory) (b : Byte) (h : m.wf = true) : (m.append b).wf = true := h

theorem advance_wf (m : Memory) (b : Byte) (h : m.srcByte m.srcPos = some b) : m.advance.wf = true := by
  have : m.srcPos < m.src.length := (List.getElem?_eq_some_iff.mp h).1
  exact decide_eq_true this

theorem loseSource_wf (s : State) (start limit : Nat) (h : start ≤ limit) (hl : limit ≤ s.mem.src.length) :
    (s.loseSource start limit).mem.wf = true := by
  have := Nat.mod_lt (Config.anyAdvance s.free) (show limit - start + 1 > 0 by omega)
  exact decide_eq_true (show start + Config.anyAdvance s.free % (limit - start + 1) ≤ s.mem.src.length by omega)

theorem loseSink_wf (s : State) (h : s.mem.wf = true) : s.loseSink.mem.wf = true := h

theorem reset_wf : State.reset.mem.wf = true := rfl

theorem unread_cons {m : Memory} {b : Byte} {rest : List Byte} (h : m.unread = b :: rest) :
    m.srcByte m.srcPos = some b ∧ m.advance.unread = rest := by
  unfold Memory.unread at h
  constructor
  · rw [Memory.srcByte, ← Nat.add_zero m.srcPos, ← List.getElem?_drop, h]; rfl
  · rw [Memory.unread, Memory.advance, ← List.drop_drop, h]; rfl

theorem unread_nil {m : Memory} (h : m.unread = []) : m.srcByte m.srcPos = none := by
  rw [Memory.srcByte, List.getElem?_eq_none_iff]
  exact List.drop_eq_nil_iff.mp h

theorem unread_length (m : Memory) : m.unread.length = m.remaining := by
  simp [Memory.unread, Memory.remaining]

theorem writeAnswer_eq (s : State) : s.writeAnswer = .accepted ∨ s.writeAnswer = .failed := by
  cases s.writeAnswer <;> simp

/-! ## SinkWrite, SourceRead -/

/-- Everything SinkWrite can do (R32, R33). -/
theorem sinkWrite_cases (b : Byte) (s : State) :
    (s.writeAnswer = .accepted ∧ sinkWrite b s = .ok () (s.acceptByte b)) ∨
    (s.writeAnswer = .failed ∧
      sinkWrite b s = .raised .sinkWriteFailure 0 { s.loseSink with snkAns := s.snkAns.tail }) := by
  unfold sinkWrite
  cases h : s.writeAnswer <;> simp

/-- Everything SourceRead can do (R35, R37). -/
theorem sourceRead_cases (s : State) :
    (s.mem.srcByte s.mem.srcPos = none ∧ sourceRead s = .ok none s) ∨
    (∃ b, s.mem.srcByte s.mem.srcPos = some b ∧ s.readAnswer = .delivered ∧ sourceRead s = .ok (some b) s.takeByte) ∨
    (∃ b, s.mem.srcByte s.mem.srcPos = some b ∧ s.readAnswer = .failed ∧
      sourceRead s = .raised .sourceReadFailure 0 { s with srcAns := s.srcAns.tail }) := by
  unfold sourceRead
  cases h : s.mem.srcByte s.mem.srcPos with
  | none => simp
  | some b => cases h' : s.readAnswer <;> simp

/-! ## Packers and unpackers -/

/-- Everything Put can do (R82). -/
theorem packerPut_cases (w : PackerId) (b : Bit) (s : State) :
    ((s.packer w).cnt ≠ 7 ∧ packerPut w b s =
      .ok () (s.setPacker w { acc := (s.packer w).with b, cnt := (s.packer w).cnt + 1 })) ∨
    ((s.packer w).cnt = 7 ∧ s.writeAnswer = .accepted ∧ packerPut w b s =
      .ok () ((s.acceptByte ((s.packer w).with b)).setPacker w Packer.opened)) ∨
    ((s.packer w).cnt = 7 ∧ s.writeAnswer = .failed ∧ packerPut w b s =
      .raised .sinkWriteFailure 0 (({ s.loseSink with snkAns := s.snkAns.tail } : State).losePacker w)) := by
  unfold packerPut
  by_cases h : (s.packer w).cnt = 7
  · rcases sinkWrite_cases ((s.packer w).with b) s with ⟨ha, hw⟩ | ⟨ha, hw⟩
    · exact .inr (.inl ⟨h, ha, by rw [if_pos h, hw]⟩)
    · exact .inr (.inr ⟨h, ha, by rw [if_pos h, hw]⟩)
  · exact .inl ⟨h, by rw [if_neg h]⟩

/-- Everything Close can do (R83). -/
theorem packerClose_cases (w : PackerId) (s : State) :
    ((s.packer w).cnt = 0 ∧ packerClose w s = .ok () (s.setPacker w Packer.opened)) ∨
    ((s.packer w).cnt ≠ 0 ∧ s.writeAnswer = .accepted ∧ packerClose w s =
      .ok () ((s.acceptByte (s.packer w).acc).setPacker w Packer.opened)) ∨
    ((s.packer w).cnt ≠ 0 ∧ s.writeAnswer = .failed ∧ packerClose w s =
      .raised .sinkWriteFailure 0 (({ s.loseSink with snkAns := s.snkAns.tail } : State).losePacker w)) := by
  unfold packerClose
  by_cases h : (s.packer w).cnt = 0
  · exact .inl ⟨h, by rw [if_pos h]⟩
  · rcases sinkWrite_cases (s.packer w).acc s with ⟨ha, hw⟩ | ⟨ha, hw⟩
    · exact .inr (.inl ⟨h, ha, by rw [if_neg h, hw]⟩)
    · exact .inr (.inr ⟨h, ha, by rw [if_neg h, hw]⟩)

/-- Everything Get can do (R92). -/
theorem unpackerGet_cases (u : UnpackerId) (sub : BitVec 2) (s : State) :
    ((s.unpacker u).pos ≠ 8 ∧ unpackerGet u sub s = unpackerYield u s) ∨
    ((s.unpacker u).pos = 8 ∧ s.mem.srcByte s.mem.srcPos = none ∧
      unpackerGet u sub s = .raised .unexpectedEndOfInput sub s) ∨
    (∃ b, (s.unpacker u).pos = 8 ∧ s.mem.srcByte s.mem.srcPos = some b ∧ s.readAnswer = .delivered ∧
      unpackerGet u sub s = unpackerYield u (s.takeByte.setUnpacker u { cur := b, pos := 0 })) ∨
    (∃ b, (s.unpacker u).pos = 8 ∧ s.mem.srcByte s.mem.srcPos = some b ∧ s.readAnswer = .failed ∧
      unpackerGet u sub s =
        .raised .sourceReadFailure 0 (({ s with srcAns := s.srcAns.tail } : State).loseUnpacker u)) := by
  unfold unpackerGet
  by_cases h : (s.unpacker u).pos = 8
  · rcases sourceRead_cases s with ⟨hb, hr⟩ | ⟨b, hb, ha, hr⟩ | ⟨b, hb, ha, hr⟩
    · exact .inr (.inl ⟨h, hb, by rw [if_pos h, hr]⟩)
    · exact .inr (.inr (.inl ⟨b, h, hb, ha, by rw [if_pos h, hr]⟩))
    · exact .inr (.inr (.inr ⟨b, h, hb, ha, by rw [if_pos h, hr]⟩))
  · exact .inl ⟨h, by rw [if_neg h]⟩

/-! ## What the serializer's and the deserializer's pieces keep -/

/-- What no piece of SER.WRITE changes, and that the sink only grows at its end. -/
structure SerFrame (s t : State) : Prop where
  bw : t.bw = s.bw
  br : t.br = s.br
  des : t.des = s.des
  err : t.err = s.err
  src : t.mem.src = s.mem.src
  srcPos : t.mem.srcPos = s.mem.srcPos
  srcAns : t.srcAns = s.srcAns
  host : t.host = s.host
  resp : t.resp = s.resp
  snk : s.mem.snk <+: t.mem.snk

theorem SerFrame.refl (s : State) : SerFrame s s := ⟨rfl, rfl, rfl, rfl, rfl, rfl, rfl, rfl, rfl, List.prefix_refl _⟩

theorem SerFrame.trans {s t u : State} (h : SerFrame s t) (k : SerFrame t u) : SerFrame s u :=
  ⟨k.bw.trans h.bw, k.br.trans h.br, k.des.trans h.des, k.err.trans h.err, k.src.trans h.src, k.srcPos.trans h.srcPos,
    k.srcAns.trans h.srcAns, k.host.trans h.host, k.resp.trans h.resp, h.snk.trans k.snk⟩

theorem acceptByte_frame (s : State) (b : Byte) : SerFrame s (s.acceptByte b) :=
  ⟨rfl, rfl, rfl, rfl, rfl, rfl, rfl, rfl, rfl, List.prefix_append _ _⟩

theorem loseSink_frame (s : State) (l : List WriteAnswer) : SerFrame s { s.loseSink with snkAns := l } :=
  ⟨rfl, rfl, rfl, rfl, rfl, rfl, rfl, rfl, rfl, List.prefix_append _ _⟩

theorem sinkWrite_frame (b : Byte) (s : State) : SerFrame s (sinkWrite b s).state := by
  rcases sinkWrite_cases b s with ⟨-, h⟩ | ⟨-, h⟩ <;> rw [h]
  · exact acceptByte_frame s b
  · exact loseSink_frame s _

theorem setSerBw_frame (s : State) (p : Packer) : SerFrame s (s.setPacker .serBw p) :=
  ⟨rfl, rfl, rfl, rfl, rfl, rfl, rfl, rfl, rfl, List.prefix_refl _⟩

theorem loseSerBw_frame (s : State) : SerFrame s (s.losePacker .serBw) :=
  ⟨rfl, rfl, rfl, rfl, rfl, rfl, rfl, rfl, rfl, List.prefix_refl _⟩

theorem serPut_frame (b : Bit) (s : State) : SerFrame s (packerPut .serBw b s).state := by
  rcases packerPut_cases .serBw b s with ⟨-, h⟩ | ⟨-, -, h⟩ | ⟨-, -, h⟩ <;> rw [h]
  · exact setSerBw_frame s _
  · exact (acceptByte_frame s _).trans (setSerBw_frame _ _)
  · exact (loseSink_frame s _).trans (loseSerBw_frame _)

theorem serClose_frame (s : State) : SerFrame s (packerClose .serBw s).state := by
  rcases packerClose_cases .serBw s with ⟨-, h⟩ | ⟨-, -, h⟩ | ⟨-, -, h⟩ <;> rw [h]
  · exact setSerBw_frame s _
  · exact (acceptByte_frame s _).trans (setSerBw_frame _ _)
  · exact (loseSink_frame s _).trans (loseSerBw_frame _)

/-- What no piece of DES.READ changes, and that the source position goes forward inside the source. -/
structure DesFrame (s t : State) : Prop where
  bw : t.bw = s.bw
  br : t.br = s.br
  ser : t.ser = s.ser
  err : t.err = s.err
  snk : t.mem.snk = s.mem.snk
  src : t.mem.src = s.mem.src
  snkAns : t.snkAns = s.snkAns
  host : t.host = s.host
  resp : t.resp = s.resp
  srcPos : s.mem.srcPos ≤ t.mem.srcPos
  wf : s.mem.wf = true → t.mem.wf = true

theorem DesFrame.refl (s : State) : DesFrame s s := ⟨rfl, rfl, rfl, rfl, rfl, rfl, rfl, rfl, rfl, Nat.le_refl _, id⟩

theorem DesFrame.trans {s t u : State} (h : DesFrame s t) (k : DesFrame t u) : DesFrame s u :=
  ⟨k.bw.trans h.bw, k.br.trans h.br, k.ser.trans h.ser, k.err.trans h.err, k.snk.trans h.snk, k.src.trans h.src,
    k.snkAns.trans h.snkAns, k.host.trans h.host, k.resp.trans h.resp, h.srcPos.trans k.srcPos, k.wf ∘ h.wf⟩

theorem takeByte_frame {s : State} {b : Byte} (h : s.mem.srcByte s.mem.srcPos = some b) : DesFrame s s.takeByte :=
  ⟨rfl, rfl, rfl, rfl, rfl, rfl, rfl, rfl, rfl, Nat.le_succ _, fun _ => advance_wf _ b h⟩

theorem dropAnswer_frame (s : State) (l : List ReadAnswer) : DesFrame s { s with srcAns := l } :=
  ⟨rfl, rfl, rfl, rfl, rfl, rfl, rfl, rfl, rfl, Nat.le_refl _, id⟩

theorem sourceRead_frame (s : State) : DesFrame s (sourceRead s).state := by
  rcases sourceRead_cases s with ⟨-, h⟩ | ⟨b, hb, -, h⟩ | ⟨b, -, -, h⟩ <;> rw [h]
  · exact DesFrame.refl s
  · exact takeByte_frame hb
  · exact dropAnswer_frame s _

theorem setDesBr_frame (s : State) (u : Unpacker) : DesFrame s (s.setUnpacker .desBr u) :=
  ⟨rfl, rfl, rfl, rfl, rfl, rfl, rfl, rfl, rfl, Nat.le_refl _, id⟩

theorem loseDesBr_frame (s : State) : DesFrame s (s.loseUnpacker .desBr) :=
  ⟨rfl, rfl, rfl, rfl, rfl, rfl, rfl, rfl, rfl, Nat.le_refl _, id⟩

theorem desGet_frame (sub : BitVec 2) (s : State) : DesFrame s (unpackerGet .desBr sub s).state := by
  rcases unpackerGet_cases .desBr sub s with ⟨-, h⟩ | ⟨-, -, h⟩ | ⟨b, -, hb, -, h⟩ | ⟨b, -, -, -, h⟩ <;> rw [h]
  · exact setDesBr_frame s _
  · exact DesFrame.refl s
  · exact (takeByte_frame hb).trans ((setDesBr_frame _ _).trans (setDesBr_frame _ _))
  · exact (dropAnswer_frame s _).trans (loseDesBr_frame _)

/-! ## Exact effects under any answers of the environment -/

/-- A piece of a command that, from s, writes exactly these bytes and goes on in t if the sink accepts them all; if the sink
fails one of them, the ones before it are in the sink and the fault is SinkWriteFailure. -/
structure Emits (r : Res Unit) (s : State) (bs : List Byte) (t : State) : Prop where
  ok : (∀ a ∈ s.snkAns.take bs.length, a = .accepted) → r = .ok () t
  fail : ∀ k, k < bs.length → (∀ a ∈ s.snkAns.take k, a = .accepted) → s.snkAns[k]? = some .failed →
    ∃ u, r = .raised .sinkWriteFailure 0 u ∧ s.mem.snk ++ bs.take k <+: u.mem.snk ∧ u.snkAns = s.snkAns.drop (k + 1) ∧
      SerFrame s u
  snk : t.mem.snk = s.mem.snk ++ bs
  ans : t.snkAns = s.snkAns.drop bs.length
  frame : SerFrame s t

/-- Either the sink accepts the next n bytes, or it fails one of them first. -/
theorem writeAnswers_split (l : List WriteAnswer) (n : Nat) :
    (∀ a ∈ l.take n, a = .accepted) ∨
    ∃ k, k < n ∧ (∀ a ∈ l.take k, a = .accepted) ∧ l[k]? = some .failed := by
  induction n generalizing l with
  | zero => simp
  | succ n ih =>
    cases l with
    | nil => simp
    | cons x l =>
      cases x with
      | failed => exact .inr ⟨0, by omega, by simp, rfl⟩
      | accepted =>
        rcases ih l with h | ⟨k, hk, h1, h2⟩
        · left; simpa using h
        · exact .inr ⟨k + 1, by omega, by simpa using h1, by simpa using h2⟩

/-- A piece that ends well wrote all its bytes. -/
theorem Emits.of_ok {r : Res Unit} {s t u : State} {bs : List Byte} (h : Emits r s bs t) (hr : r = .ok () u) : u = t := by
  rcases writeAnswers_split s.snkAns bs.length with h1 | ⟨k, hk, h1, h2⟩
  · rw [h.ok h1] at hr; cases hr; rfl
  · obtain ⟨v, e, -⟩ := h.fail k hk h1 h2
    rw [e] at hr; cases hr

/-- A piece that writes nothing. -/
theorem Emits.nothing {s t : State} (f : SerFrame s t) (hs : t.mem.snk = s.mem.snk) (ha : t.snkAns = s.snkAns) :
    Emits (.ok () t) s [] t :=
  ⟨fun _ => rfl, fun _ h => absurd h (Nat.not_lt_zero _), by simp [hs], by simp [ha], f⟩

/-- The same bytes from a state that differs in what does not bear on the sink. -/
theorem Emits.after {r : Res Unit} {s s' t : State} {bs : List Byte} (h : Emits r s' bs t) (f : SerFrame s s')
    (hs : s'.mem.snk = s.mem.snk) (ha : s'.snkAns = s.snkAns) : Emits r s bs t := by
  refine ⟨fun h1 => h.ok (by rwa [ha]), fun k hk h1 h2 => ?_, by rw [h.snk, hs], by rw [h.ans, ha], f.trans h.frame⟩
  obtain ⟨u, e1, e2, e3, e4⟩ := h.fail k hk (by rwa [ha]) (by rwa [ha])
  exact ⟨u, e1, by rwa [← hs], by rw [e3, ha], f.trans e4⟩

/-- One piece after another writes its bytes after the other's. -/
theorem Emits.andThen {r : Res Unit} {f : Unit → State → Res Unit} {s t u : State} {bs cs : List Byte}
    (h : Emits r s bs t) (k : Emits (f () t) t cs u) : Emits (r.andThen f) s (bs ++ cs) u := by
  have hdrop : ∀ j, s.snkAns[bs.length + j]? = t.snkAns[j]? := fun j => by rw [h.ans, List.getElem?_drop]
  have hsub : ∀ j, ∀ a ∈ t.snkAns.take j, a ∈ s.snkAns.take (bs.length + j) := by
    intro j a ha
    rw [h.ans] at ha
    rw [List.take_add]
    exact List.mem_append_right _ ha
  refine ⟨fun h1 => ?_, fun j hj h1 h2 => ?_, by rw [k.snk, h.snk, List.append_assoc],
    by rw [k.ans, h.ans, List.drop_drop, List.length_append], h.frame.trans k.frame⟩
  · have e : r = .ok () t := h.ok fun a ha => h1 a (by
      rw [List.length_append, List.take_add]; exact List.mem_append_left _ ha)
    rw [e, andThen_ok]
    exact k.ok fun a ha => h1 a (by rw [List.length_append]; exact hsub _ a ha)
  · by_cases hlt : j < bs.length
    · obtain ⟨v, e1, e2, e3, e4⟩ := h.fail j hlt h1 h2
      refine ⟨v, by rw [e1]; rfl, ?_, e3, e4⟩
      rwa [List.take_append_of_le_length (Nat.le_of_lt hlt)]
    · obtain ⟨m, rfl⟩ : ∃ m, j = bs.length + m := ⟨j - bs.length, by omega⟩
      have e : r = .ok () t := h.ok fun a ha => h1 a (by rw [List.take_add]; exact List.mem_append_left _ ha)
      obtain ⟨v, e1, e2, e3, e4⟩ := k.fail m (by simpa using hj) (fun a ha => h1 a (hsub _ a ha)) (by rw [← hdrop, h2])
      refine ⟨v, by rw [e, andThen_ok, e1], ?_, ?_, h.frame.trans e4⟩
      · rw [h.snk] at e2
        rwa [List.take_length_add_append, ← List.append_assoc]
      · rw [e3, h.ans, List.drop_drop, Nat.add_assoc]

theorem sinkWrite_emits (b : Byte) (s : State) : Emits (sinkWrite b s) s [b] (s.acceptByte b) := by
  refine ⟨fun h => ?_, fun k hk _ h2 => ?_, rfl, by simp, acceptByte_frame s b⟩
  · rcases sinkWrite_cases b s with ⟨-, e⟩ | ⟨ha, -⟩
    · exact e
    · exfalso
      cases hl : s.snkAns with
      | nil => simp [State.writeAnswer, hl] at ha
      | cons a l => simp [State.writeAnswer, hl] at ha h; exact absurd (h.symm.trans ha) (by decide)
  · obtain rfl : k = 0 := by simpa using hk
    rcases sinkWrite_cases b s with ⟨ha, -⟩ | ⟨-, e⟩
    · exfalso
      cases hl : s.snkAns with
      | nil => simp [hl] at h2
      | cons a l => simp [State.writeAnswer, hl] at ha h2; exact absurd (ha.symm.trans h2) (by decide)
    · exact ⟨_, e, by simp, by simp, loseSink_frame s _⟩

/-- A read that the environment fails among the next n ends this piece of a command in SourceReadFailure, its answer the last one
taken (R35, R37, R145). -/
def FailsWithin {α : Type} (r : Res α) (s : State) (n : Nat) : Prop :=
  ∀ k, k < n → (∀ x ∈ s.srcAns.take k, x = .delivered) → s.srcAns[k]? = some .failed →
    ∃ u, r = .raised .sourceReadFailure 0 u ∧ u.srcAns = s.srcAns.drop (k + 1)

/-- A piece of a command that, from s, reads exactly n bytes and goes on in t with a if the environment delivers them all; if it
fails one of them, the fault is SourceReadFailure. -/
structure Reads {α : Type} (r : Res α) (s : State) (n : Nat) (a : α) (t : State) : Prop where
  ok : (∀ x ∈ s.srcAns.take n, x = .delivered) → r = .ok a t
  fail : FailsWithin r s n
  ans : t.srcAns = s.srcAns.drop n
  pos : t.mem.srcPos = s.mem.srcPos + n
  src : t.mem.src = s.mem.src

theorem Reads.nothing {α : Type} {a : α} {s t : State} (ha : t.srcAns = s.srcAns) (hm : t.mem = s.mem) :
    Reads (.ok a t) s 0 a t :=
  ⟨fun _ => rfl, fun _ h => absurd h (Nat.not_lt_zero _), by simp [ha], by simp [hm], by rw [hm]⟩

theorem FailsWithin.after {α : Type} {r : Res α} {s s' : State} {n : Nat} (h : FailsWithin r s' n)
    (ha : s'.srcAns = s.srcAns) : FailsWithin r s n := by
  unfold FailsWithin at h
  rwa [ha] at h

theorem Reads.after {α : Type} {r : Res α} {s s' t : State} {n : Nat} {a : α} (h : Reads r s' n a t) (hm : s'.mem = s.mem)
    (ha : s'.srcAns = s.srcAns) : Reads r s n a t :=
  ⟨fun h1 => h.ok (by rwa [ha]), h.fail.after ha, by rw [h.ans, ha], by rw [h.pos, hm], by rw [h.src, hm]⟩

theorem FailsWithin.andThen {α β : Type} {r : Res α} {s : State} {n : Nat} (h : FailsWithin r s n) (f : α → State → Res β) :
    FailsWithin (r.andThen f) s n := fun j hj h1 h2 => by
  obtain ⟨v, e, hv⟩ := h j hj h1 h2
  exact ⟨v, by rw [e]; rfl, hv⟩

/-- The answers a later piece takes are among those that both take. -/
theorem Reads.mem_later {α : Type} {r : Res α} {s t : State} {n : Nat} {a : α} (h : Reads r s n a t) {j : Nat} {x : ReadAnswer}
    (hx : x ∈ t.srcAns.take j) : x ∈ s.srcAns.take (n + j) := by
  rw [h.ans] at hx
  rw [List.take_add]
  exact List.mem_append_right _ hx

theorem Reads.ok_prefix {α : Type} {r : Res α} {s t : State} {n : Nat} {a : α} (h : Reads r s n a t) {j : Nat}
    (hx : ∀ x ∈ s.srcAns.take (n + j), x = .delivered) : r = .ok a t :=
  h.ok fun x hm => hx x (by rw [List.take_add]; exact List.mem_append_left _ hm)

theorem Reads.fails_andThen {α β : Type} {r : Res α} {f : α → State → Res β} {s t : State} {n m : Nat} {a : α}
    (h : Reads r s n a t) (k : FailsWithin (f a t) t m) : FailsWithin (r.andThen f) s (n + m) := by
  intro j hj h1 h2
  by_cases hlt : j < n
  · exact h.fail.andThen f j hlt h1 h2
  · obtain ⟨i, rfl⟩ : ∃ i, j = n + i := ⟨j - n, by omega⟩
    obtain ⟨v, e, hv⟩ := k i (by omega) (fun x hx => h1 x (h.mem_later hx)) (by rw [h.ans, List.getElem?_drop, h2])
    exact ⟨v, by rw [h.ok_prefix h1, andThen_ok, e], by rw [hv, h.ans, List.drop_drop, Nat.add_assoc]⟩

theorem Reads.andThen {α β : Type} {r : Res α} {f : α → State → Res β} {s t u : State} {n m : Nat} {a : α} {b : β}
    (h : Reads r s n a t) (k : Reads (f a t) t m b u) : Reads (r.andThen f) s (n + m) b u :=
  ⟨fun h1 => by rw [h.ok_prefix h1, andThen_ok]; exact k.ok fun x hx => h1 x (h.mem_later hx), h.fails_andThen k.fail,
    by rw [k.ans, h.ans, List.drop_drop], by rw [k.pos, h.pos, Nat.add_assoc], k.src.trans h.src⟩

/-- A piece of a command that, from s, ends in this fault after exactly n bytes were read if the environment delivers them all; if
it fails one of them, the fault is SourceReadFailure in its place (R144). -/
structure Stops {α : Type} (r : Res α) (s : State) (n : Nat) (c : Cause) (sub : BitVec 2) : Prop where
  raised : (∀ x ∈ s.srcAns.take n, x = .delivered) → ∃ u, r = .raised c sub u ∧ u.srcAns = s.srcAns.drop n
  fail : FailsWithin r s n

section
variable {α β : Type} {s s' t : State} {n m : Nat} {c : Cause} {sub : BitVec 2}

theorem Stops.now {u : State} (hu : u.srcAns = s.srcAns) : Stops (.raised c sub u : Res α) s 0 c sub :=
  ⟨fun _ => ⟨u, rfl, hu⟩, fun _ h => absurd h (Nat.not_lt_zero _)⟩

theorem Stops.after {r : Res α} (h : Stops r s' n c sub) (ha : s'.srcAns = s.srcAns) : Stops r s n c sub :=
  ⟨fun h1 => by rw [← ha]; exact h.raised (by rwa [ha]), h.fail.after ha⟩

theorem Stops.andThen {r : Res α} (h : Stops r s n c sub) (f : α → State → Res β) : Stops (r.andThen f) s n c sub :=
  ⟨fun h1 => by obtain ⟨u, e, hu⟩ := h.raised h1; exact ⟨u, by rw [e]; rfl, hu⟩, h.fail.andThen f⟩

theorem Reads.andThen_stops {r : Res α} {a : α} {f : α → State → Res β} (h : Reads r s n a t) (k : Stops (f a t) t m c sub) :
    Stops (r.andThen f) s (n + m) c sub :=
  ⟨fun h1 => by
    obtain ⟨u, e, hu⟩ := k.raised fun x hx => h1 x (h.mem_later hx)
    exact ⟨u, by rw [h.ok_prefix h1, andThen_ok, e], by rw [hu, h.ans, List.drop_drop]⟩, h.fails_andThen k.fail⟩

end

/-- One byte, where there is one (R35). -/
theorem sourceRead_reads {s : State} {b : Byte} (hb : s.mem.srcByte s.mem.srcPos = some b) :
    Reads (sourceRead s) s 1 (some b) s.takeByte := by
  refine ⟨fun h => ?_, fun k hk _ h2 => ?_, by simp, rfl, rfl⟩
  · rcases sourceRead_cases s with ⟨hn, -⟩ | ⟨c, hc, -, e⟩ | ⟨c, -, ha, -⟩
    · rw [hb] at hn; cases hn
    · rw [hb] at hc; cases hc; exact e
    · exfalso
      cases hl : s.srcAns with
      | nil => simp [State.readAnswer, hl] at ha
      | cons a l => simp [State.readAnswer, hl] at ha h; exact absurd (h.symm.trans ha) (by decide)
  · obtain rfl : k = 0 := by omega
    rcases sourceRead_cases s with ⟨hn, -⟩ | ⟨c, -, ha, -⟩ | ⟨c, -, -, e⟩
    · rw [hb] at hn; cases hn
    · exfalso
      cases hl : s.srcAns with
      | nil => simp [hl] at h2
      | cons a l => simp [State.readAnswer, hl] at ha h2; exact absurd (ha.symm.trans h2) (by decide)
    · exact ⟨_, e, by simp⟩

end Sys2Proof.Machine
end

