-- ==== Sys2Proof/Laws/Deserializer.lean ====
section
/-! SUPPORT. DES.READ piece by piece: what each keeps, which faults it raises, exactly which bytes it reads, and where it
faults. -/

namespace Sys2Proof.Machine

/-! ## Frames -/

theorem enterDes_frame (s : State) (p : DesPhase) : DesFrame s (s.enterDes p) :=
  ⟨rfl, rfl, rfl, rfl, rfl, rfl, rfl, rfl, rfl, Nat.le_refl _, id⟩

theorem countDes_frame (s : State) : DesFrame s s.countDes :=
  ⟨rfl, rfl, rfl, rfl, rfl, rfl, rfl, rfl, rfl, Nat.le_refl _, id⟩

theorem clearCt_frame (s : State) : DesFrame s s.clearCt :=
  ⟨rfl, rfl, rfl, rfl, rfl, rfl, rfl, rfl, rfl, Nat.le_refl _, id⟩

/-- A change of CT and DES alone. -/
theorem setCtDes_frame (s : State) (c : Container) (d : Deserializer) : DesFrame s { s with ct := c, des := d } :=
  ⟨rfl, rfl, rfl, rfl, rfl, rfl, rfl, rfl, rfl, Nat.le_refl _, id⟩

theorem pushLeaf_frame (s : State) (b : Byte) : DesFrame s (s.pushLeaf b) := setCtDes_frame s _ _
theorem pushShape_frame (s : State) (b : Bit) : DesFrame s (s.pushShape b) := setCtDes_frame s _ _
theorem pushMsg_frame (s : State) (b : Bit) : DesFrame s (s.pushMsg b) := setCtDes_frame s _ _

theorem desByte_frame (c : Cause) (sub : BitVec 2) (s : State) : DesFrame s (desByte c sub s).state :=
  Res.keeps_andThen (R := DesFrame s) (sourceRead_frame s) fun r t h => by
    cases r <;> exact h

theorem desMagicBytes_frame (n : Nat) (s : State) : DesFrame s (desMagicBytes n s).state := by
  induction n generalizing s with
  | zero => exact DesFrame.refl s
  | succ n ih =>
    exact Res.keeps_andThen (R := DesFrame s) (desByte_frame _ _ s) fun b t h =>
      Res.keeps_andThen (R := DesFrame s) (h.trans ((countDes_frame t).trans (ih _))) fun _ _ h' => h'

theorem desMagic_frame (magic : List Byte) (s : State) : DesFrame s (desMagic magic s).state :=
  Res.keeps_andThen (R := DesFrame s) ((enterDes_frame s .magic).trans (desMagicBytes_frame 4 _)) fun g t h => by
    by_cases hg : g = magic
    · rw [if_pos hg]; exact h
    · rw [if_neg hg]; exact h

theorem desCount_frame (s : State) : DesFrame s (desCount s).state :=
  Res.keeps_andThen (R := DesFrame s) ((enterDes_frame s .count).trans (desByte_frame _ _ _)) fun r t h => by
    have h' : DesFrame s { t.countDes with des.L := unbiasedCount r } :=
      h.trans (setCtDes_frame t t.ct { t.countDes.des with L := unbiasedCount r })
    by_cases hl : (unbiasedCount r).toNat < 2
    · simp only [if_pos hl]; exact h'
    · simp only [if_neg hl]; exact h'

theorem desLeafBytes_frame (n : Nat) (s : State) : DesFrame s (desLeafBytes n s).state := by
  induction n generalizing s with
  | zero => exact DesFrame.refl s
  | succ n ih =>
    exact Res.keeps_andThen (R := DesFrame s) (desByte_frame _ _ s) fun b t h =>
      h.trans ((pushLeaf_frame t b).trans (ih _))

theorem desLeaves_frame (s : State) : DesFrame s (desLeaves s).state :=
  (enterDes_frame s .leaves).trans (desLeafBytes_frame _ _)

theorem desTbc_frame (s : State) : DesFrame s (desTbc s).state :=
  Res.keeps_andThen (R := DesFrame s) ((enterDes_frame s .tbc).trans (desByte_frame _ _ _)) fun r t h =>
    h.trans (setCtDes_frame t t.ct { t.countDes.des with tbc := r })

theorem desMeasure_frame (s : State) : DesFrame s (desMeasure s).state :=
  ⟨rfl, rfl, rfl, rfl, rfl, rfl, rfl, rfl, rfl, Nat.le_refl _, id⟩

theorem desShapeBits_frame (n : Nat) (s : State) : DesFrame s (desShapeBits n s).state := by
  induction n generalizing s with
  | zero => exact DesFrame.refl s
  | succ n ih =>
    rw [desShapeBits]
    by_cases hb : s.des.bitsRemaining ≤ 0
    · rw [if_pos hb]; exact DesFrame.refl s
    · rw [if_neg hb]
      exact Res.keeps_andThen (R := DesFrame s) (desGet_frame 1 s) fun b t h =>
        h.trans ((pushShape_frame t b).trans (ih _))

theorem desShape_frame (s : State) : DesFrame s (desShape s).state :=
  (enterDes_frame s .shape).trans ((setDesBr_frame _ Unpacker.opened).trans (desShapeBits_frame _ _))

theorem desMsgBits_frame (n : Nat) (s : State) : DesFrame s (desMsgBits n s).state := by
  induction n generalizing s with
  | zero => exact DesFrame.refl s
  | succ n ih =>
    exact Res.keeps_andThen (R := DesFrame s) (desGet_frame 2 s) fun b t h =>
      h.trans ((pushMsg_frame t b).trans (ih _))

theorem desMsg_frame (s : State) : DesFrame s (desMsg s).state :=
  (enterDes_frame s .msg).trans (desMsgBits_frame _ _)

theorem desStream_frame (magic : List Byte) (s : State) : DesFrame s (desStream magic s).state :=
  Res.keeps_andThen (R := DesFrame s) (desMagic_frame magic s) fun _ s1 h1 =>
  h1.trans <| Res.keeps_andThen (R := DesFrame s1) (desCount_frame s1) fun _ s2 h2 =>
  h2.trans <| Res.keeps_andThen (R := DesFrame s2) (desLeaves_frame s2) fun _ s3 h3 =>
  h3.trans <| Res.keeps_andThen (R := DesFrame s3) (desTbc_frame s3) fun _ s4 h4 =>
  h4.trans <| Res.keeps_andThen (R := DesFrame s4) (desMeasure_frame s4) fun _ s5 h5 =>
  h5.trans <| Res.keeps_andThen (R := DesFrame s5) (desShape_frame s5) fun _ s6 h6 =>
  h6.trans (desMsg_frame s6)

theorem endDes_frame (s : State) : DesFrame s s.endDes :=
  ⟨rfl, rfl, rfl, rfl, rfl, rfl, rfl, rfl, rfl, Nat.le_refl _, id⟩

/-! ## Faults -/

/-- The faults of DES.READ with their sub-causes (R142, R141). -/
abbrev IsReadFault (c : Cause) (sub : BitVec 2) : Prop :=
  (c, sub) ∈ [(Cause.notThisFormat, 1), (.notThisFormat, 2), (.truncatedHeader, 1), (.truncatedHeader, 2),
    (.invalidLeafCount, 0), (.truncatedLeafTable, 0), (.unexpectedEndOfInput, 1), (.unexpectedEndOfInput, 2),
    (.sourceReadFailure, 0)]

theorem sourceRead_raises (s : State) : (sourceRead s).Raises IsReadFault := by
  rcases sourceRead_cases s with ⟨-, h⟩ | ⟨b, -, -, h⟩ | ⟨b, -, -, h⟩ <;> rw [h]
  · trivial
  · trivial
  · exact of_decide_eq_true (p := IsReadFault _ _) rfl

theorem desByte_raises {c : Cause} {sub : BitVec 2} (hc : IsReadFault c sub) (s : State) :
    (desByte c sub s).Raises IsReadFault :=
  Res.raises_andThen (sourceRead_raises s) fun r _ => by
    cases r with
    | none => exact hc
    | some b => trivial

theorem desGet_raises {sub : BitVec 2} (hc : IsReadFault .unexpectedEndOfInput sub) (s : State) :
    (unpackerGet .desBr sub s).Raises IsReadFault := by
  rcases unpackerGet_cases .desBr sub s with ⟨-, h⟩ | ⟨-, -, h⟩ | ⟨b, -, hb, -, h⟩ | ⟨b, -, -, -, h⟩ <;> rw [h]
  · trivial
  · exact hc
  · trivial
  · exact of_decide_eq_true (p := IsReadFault _ _) rfl

theorem desMagicBytes_raises (n : Nat) (s : State) : (desMagicBytes n s).Raises IsReadFault := by
  induction n generalizing s with
  | zero => trivial
  | succ n ih =>
    exact Res.raises_andThen (desByte_raises (of_decide_eq_true rfl) s) fun _ _ =>
      Res.raises_andThen (ih _) fun _ _ => trivial

theorem desLeafBytes_raises (n : Nat) (s : State) : (desLeafBytes n s).Raises IsReadFault := by
  induction n generalizing s with
  | zero => trivial
  | succ n ih => exact Res.raises_andThen (desByte_raises (of_decide_eq_true rfl) s) fun _ _ => ih _

theorem desShapeBits_raises (n : Nat) (s : State) : (desShapeBits n s).Raises IsReadFault := by
  induction n generalizing s with
  | zero => trivial
  | succ n ih =>
    rw [desShapeBits]
    by_cases hb : s.des.bitsRemaining ≤ 0
    · rw [if_pos hb]; exact of_decide_eq_true (p := IsReadFault _ _) rfl
    · rw [if_neg hb]; exact Res.raises_andThen (desGet_raises (of_decide_eq_true rfl) s) fun _ _ => ih _

theorem desMsgBits_raises (n : Nat) (s : State) : (desMsgBits n s).Raises IsReadFault := by
  induction n generalizing s with
  | zero => trivial
  | succ n ih => exact Res.raises_andThen (desGet_raises (of_decide_eq_true rfl) s) fun _ _ => ih _

theorem desStream_raises (magic : List Byte) (s : State) : (desStream magic s).Raises IsReadFault := by
  refine Res.raises_andThen (Res.raises_andThen (desMagicBytes_raises 4 _) fun g t => ?_) fun _ _ =>
    Res.raises_andThen (Res.raises_andThen (desByte_raises (of_decide_eq_true rfl) _) fun r t => ?_) fun _ _ =>
    Res.raises_andThen (desLeafBytes_raises _ _) fun _ _ =>
    Res.raises_andThen (Res.raises_andThen (desByte_raises (of_decide_eq_true rfl) _) fun _ _ => trivial) fun _ _ =>
    Res.raises_andThen trivial fun _ _ =>
    Res.raises_andThen (desShapeBits_raises _ _) fun _ _ => desMsgBits_raises _ _
  · by_cases hg : g = magic
    · rw [if_pos hg]; trivial
    · rw [if_neg hg]; exact of_decide_eq_true (p := IsReadFault _ _) rfl
  · by_cases hl : (unbiasedCount r).toNat < 2
    · simp only [if_pos hl]; exact of_decide_eq_true (p := IsReadFault _ _) rfl
    · simp only [if_neg hl]; trivial

/-- Everything DES.READ can do, its guard on the fault latch apart (R120, R128). -/
theorem desRead_cases (magic : List Byte) (s : State) :
    (∃ t, desStream magic s.clearCt = .ok () t ∧ desRead magic s = .ok .nothing t.endDes) ∨
    (∃ c sub t, IsReadFault c sub ∧ desStream magic s.clearCt = .raised c sub t ∧
      desRead magic s = .raised c sub (t.abandonDes c s.mem.srcPos)) := by
  unfold desRead
  have hr := desStream_raises magic s.clearCt
  cases h : desStream magic s.clearCt with
  | ok a t => exact .inl ⟨t, rfl, rfl⟩
  | raised c sub t => rw [h] at hr; exact .inr ⟨c, sub, t, hr, rfl, rfl⟩

/-! ## Bytes -/

theorem Reads.unread {α : Type} {r : Res α} {s t : State} {n : Nat} {a : α} (h : Reads r s n a t) :
    t.mem.unread = s.mem.unread.drop n := by
  rw [Memory.unread, Memory.unread, h.pos, h.src, List.drop_drop]

/-- A source that never fails still never fails after some reads. -/
theorem Reads.never {α : Type} {r : Res α} {s t : State} {n : Nat} {a : α} (h : Reads r s n a t)
    (hs : s.SourceNeverFails) : t.SourceNeverFails := fun x hx => hs x (by rw [h.ans] at hx; exact List.mem_of_mem_drop hx)

theorem Reads.ok_never {α : Type} {r : Res α} {s t : State} {n : Nat} {a : α} (h : Reads r s n a t)
    (hs : s.SourceNeverFails) : r = .ok a t := h.ok fun x hx => hs x (List.mem_of_mem_take hx)

/-- The state after n bytes were taken from the source. -/
def State.afterReads (s : State) (n : Nat) : State :=
  { s with mem.srcPos := s.mem.srcPos + n, srcAns := s.srcAns.drop n }

theorem desByte_reads (c : Cause) (sub : BitVec 2) {s : State} {b : Byte} {rest : List Byte}
    (h : s.mem.unread = b :: rest) : Reads (desByte c sub s) s 1 b (s.afterReads 1) := by
  have hr := (sourceRead_reads (unread_cons h).1).andThen (f := byteOr c sub) (m := 0) (b := b) (u := s.takeByte)
    (Reads.nothing rfl rfl)
  simpa [desByte, State.afterReads, State.takeByte, Memory.advance] using hr

theorem desByte_exhausted (c : Cause) (sub : BitVec 2) {s : State} (h : s.mem.unread = []) :
    desByte c sub s = .raised c sub s := by
  simp [desByte, sourceRead, unread_nil h, byteOr]

theorem desByte_stops (c : Cause) (sub : BitVec 2) {s : State} (h : s.mem.unread = []) : Stops (desByte c sub s) s 0 c sub := by
  rw [desByte_exhausted c sub h]; exact Stops.now rfl

theorem desMagicBytes_reads (g : List Byte) (s : State) (rest : List Byte) (h : s.mem.unread = g ++ rest) :
    Reads (desMagicBytes g.length s) s g.length g
      { s.afterReads g.length with des.idx := s.des.idx + g.length } := by
  induction g generalizing s with
  | nil => simpa [desMagicBytes, State.afterReads] using Reads.nothing (a := []) (s := s) rfl rfl
  | cons b g ih =>
    have h1 := desByte_reads .notThisFormat 1 h
    have hu : (s.afterReads 1).countDes.mem.unread = g ++ rest := (unread_cons h).2
    have h2 := (ih (s.afterReads 1).countDes hu).andThen (f := fun bs u => .ok (b :: bs) u) (Reads.nothing (a := b :: g) rfl rfl)
    have h3 := h1.andThen (f := fun b t => (desMagicBytes g.length t.countDes).andThen fun bs u => .ok (b :: bs) u)
      (h2.after rfl rfl)
    simpa [desMagicBytes, State.afterReads, State.countDes, Nat.add_assoc, Nat.add_comm 1] using h3

theorem desMagicBytes_short (n : Nat) (s : State) (h : s.mem.unread.length < n) :
    Stops (desMagicBytes n s) s s.mem.unread.length .notThisFormat 1 := by
  induction n generalizing s with
  | zero => omega
  | succ n ih =>
    cases hu : s.mem.unread with
    | nil => exact (desByte_stops _ _ hu).andThen _
    | cons b rest =>
      rw [hu, List.length_cons] at h
      have hrest : (s.afterReads 1).countDes.mem.unread = rest := (unread_cons hu).2
      have h2 := ih (s.afterReads 1).countDes (by rw [hrest]; omega)
      rw [hrest] at h2
      rw [List.length_cons, Nat.add_comm rest.length]
      exact (desByte_reads .notThisFormat 1 hu).andThen_stops
        (f := fun b t => (desMagicBytes n t.countDes).andThen fun bs u => .ok (b :: bs) u)
        ((h2.after (s := s.afterReads 1) rfl).andThen _)

theorem desLeafBytes_reads (g : List Byte) (s : State) (rest : List Byte) (h : s.mem.unread = g ++ rest) :
    Reads (desLeafBytes g.length s) s g.length ()
      { s.afterReads g.length with ct.leaves := s.ct.leaves ++ g, des.idx := s.des.idx + g.length } := by
  induction g generalizing s with
  | nil => simpa [desLeafBytes, State.afterReads] using Reads.nothing (a := ()) (s := s) rfl rfl
  | cons b g ih =>
    have h1 := desByte_reads .truncatedLeafTable 0 h
    have hu : ((s.afterReads 1).pushLeaf b).mem.unread = g ++ rest := (unread_cons h).2
    have h3 := h1.andThen (f := fun b t => desLeafBytes g.length (t.pushLeaf b)) ((ih _ hu).after rfl rfl)
    simpa [desLeafBytes, State.afterReads, State.pushLeaf, State.countDes, Nat.add_assoc, Nat.add_comm 1] using h3

theorem desLeafBytes_short (n : Nat) (s : State) (h : s.mem.unread.length < n) :
    Stops (desLeafBytes n s) s s.mem.unread.length .truncatedLeafTable 0 := by
  induction n generalizing s with
  | zero => omega
  | succ n ih =>
    cases hu : s.mem.unread with
    | nil => exact (desByte_stops _ _ hu).andThen _
    | cons b rest =>
      rw [hu, List.length_cons] at h
      have hrest : ((s.afterReads 1).pushLeaf b).mem.unread = rest := (unread_cons hu).2
      have h2 := ih ((s.afterReads 1).pushLeaf b) (by rw [hrest]; omega)
      rw [hrest] at h2
      rw [List.length_cons, Nat.add_comm rest.length]
      exact (desByte_reads .truncatedLeafTable 0 hu).andThen_stops (f := fun b t => desLeafBytes n (t.pushLeaf b))
        (h2.after (s := s.afterReads 1) rfl)

/-! ## Bits -/

/-- An unpacker that has yielded k bits of these bytes since its open (R92). -/
def unpackerAt (region : List Byte) (k : Nat) : Unpacker :=
  if k = 0 then Unpacker.opened
  else { cur := region.getD ((k - 1) / 8) 0, pos := BitVec.ofNat 4 ((k - 1) % 8 + 1) }

theorem unpackerAt_pos (region : List Byte) (k : Nat) : (unpackerAt region k).pos = 8 ↔ k % 8 = 0 := by
  unfold unpackerAt
  split
  · rename_i h; simp [h, Unpacker.opened]
  · constructor
    · intro h
      have := congrArg BitVec.toNat h
      rw [BitVec.toNat_ofNat, Nat.mod_eq_of_lt (by omega), show (8 : BitVec 4).toNat = 8 from rfl] at this
      omega
    · intro h
      have : (k - 1) % 8 + 1 = 8 := by omega
      rw [this]; rfl

/-- One more get (R92, R93): bit k, a byte being pulled exactly when k is a multiple of eight. -/
theorem get_reads (u : UnpackerId) (sub : BitVec 2) (s : State) (region : List Byte) (k : Nat)
    (hu : s.unpacker u = unpackerAt region k) (hr : s.mem.unread = region.drop ((k + 7) / 8))
    (hk : k < 8 * region.length) :
    Reads (unpackerGet u sub s) s ((k + 8) / 8 - (k + 7) / 8) (bitAtIndex region k)
      ((s.afterReads ((k + 8) / 8 - (k + 7) / 8)).setUnpacker u (unpackerAt region (k + 1))) := by
  by_cases h8 : k % 8 = 0
  · have hn : (k + 8) / 8 - (k + 7) / 8 = 1 := by omega
    have hq : (k + 7) / 8 = k / 8 := by omega
    have hlt : k / 8 < region.length := by omega
    rw [hq, List.drop_eq_getElem_cons hlt] at hr
    have hg : region.getD (k / 8) 0 = region[k / 8] := by simp [List.getD_eq_getElem?_getD, hlt]
    have h1 := sourceRead_reads (unread_cons hr).1
    have hpos : (s.unpacker u).pos = 8 := by rw [hu]; exact (unpackerAt_pos region k).mpr h8
    have hnext : unpackerAt region (k + 1) = { cur := region[k / 8], pos := 1 } := by
      have : (k + 1 - 1) % 8 + 1 = 1 := by omega
      rw [unpackerAt, if_neg (by omega), this, Nat.add_sub_cancel, hg]; rfl
    have hbit : bitAtIndex region k = bitOf region[k / 8] 0 := by rw [bitAtIndex, hg, h8]
    rw [hn, hnext, hbit]
    refine ⟨fun h => ?_, fun j hj hj1 hj2 => ?_, ?_, ?_, ?_⟩
    · rw [unpackerGet, if_pos hpos, h1.ok h]
      cases u <;> simp [unpackerYield, State.afterReads, State.takeByte, Memory.advance, State.setUnpacker]
    · obtain ⟨v, e, hv⟩ := h1.fail j hj hj1 hj2
      exact ⟨v.loseUnpacker u, by rw [unpackerGet, if_pos hpos, e], by rw [← hv]; cases u <;> rfl⟩
    · cases u <;> rfl
    · cases u <;> rfl
    · cases u <;> rfl
  · have hn : (k + 8) / 8 - (k + 7) / 8 = 0 := by omega
    have hpos : ¬(s.unpacker u).pos = 8 := by rw [hu]; exact fun h => h8 ((unpackerAt_pos region k).mp h)
    have hat : unpackerAt region k = { cur := region.getD (k / 8) 0, pos := BitVec.ofNat 4 (k % 8) } := by
      rw [unpackerAt, if_neg (by omega), show (k - 1) / 8 = k / 8 by omega, show (k - 1) % 8 + 1 = k % 8 by omega]
    have hnext : unpackerAt region (k + 1) = { cur := region.getD (k / 8) 0, pos := BitVec.ofNat 4 (k % 8) + 1 } := by
      rw [unpackerAt, if_neg (by omega), Nat.add_sub_cancel]
      congr 1
      exact BitVec.eq_of_toNat_eq (by simp [BitVec.toNat_add])
    have hto : (BitVec.ofNat 4 (k % 8)).toNat = k % 8 := by rw [BitVec.toNat_ofNat]; omega
    rw [hn, unpackerGet, if_neg hpos, unpackerYield, hu, hat, hnext]
    simp only [hto]
    have := Reads.nothing (a := bitAtIndex region k) (s := s)
      (t := s.setUnpacker u { cur := region.getD (k / 8) 0, pos := BitVec.ofNat 4 (k % 8) + 1 })
      (by cases u <;> rfl) (by cases u <;> rfl)
    simpa [State.afterReads, bitAtIndex] using this

/-- The bytes after one more bit was taken. -/
theorem unread_next {s t : State} {region : List Byte} {k : Nat} {α : Type} {r : Res α} {a : α}
    (h : Reads r s ((k + 8) / 8 - (k + 7) / 8) a t) (hr : s.mem.unread = region.drop ((k + 7) / 8)) :
    t.mem.unread = region.drop ((k + 1 + 7) / 8) := by
  rw [h.unread, hr, List.drop_drop]
  congr 1
  omega

/-- A get with no bit of the byte held left and no byte in the source (R92). -/
theorem get_exhausted (u : UnpackerId) (sub : BitVec 2) (s : State) (region : List Byte) (k : Nat)
    (hu : s.unpacker u = unpackerAt region k) (hr : s.mem.unread = region.drop ((k + 7) / 8))
    (hk : k = 8 * region.length) : unpackerGet u sub s = .raised .unexpectedEndOfInput sub s := by
  have hpos : (s.unpacker u).pos = 8 := by rw [hu]; exact (unpackerAt_pos region k).mpr (by omega)
  have hn : s.mem.unread = [] := by rw [hr, List.drop_eq_nil_iff]; omega
  rw [unpackerGet, if_pos hpos, sourceRead, unread_nil hn]

/-- Bits k to k + n − 1 of the region. -/
def bitsFrom (region : List Byte) (k n : Nat) : List Bit := (List.range' k n).map (bitAtIndex region)

theorem bitsFrom_succ (region : List Byte) (k n : Nat) :
    bitsFrom region k (n + 1) = bitAtIndex region k :: bitsFrom region (k + 1) n := rfl

/-- The state after n more bits were taken from the region's bit k on, apart from where they were pushed. -/
def State.afterBits (s : State) (region : List Byte) (k n : Nat) : State :=
  { s.afterReads ((k + n + 7) / 8 - (k + 7) / 8) with
    des.br := unpackerAt region (k + n)
    des.bitsRemaining := s.des.bitsRemaining - n
    des.idx := s.des.idx + n }

theorem desShapeBits_reads (n : Nat) (s : State) (region : List Byte) (k : Nat) (hu : s.des.br = unpackerAt region k)
    (hr : s.mem.unread = region.drop ((k + 7) / 8)) (hk : k + n ≤ 8 * region.length) (hb : (n : Int) ≤ s.des.bitsRemaining) :
    Reads (desShapeBits n s) s ((k + n + 7) / 8 - (k + 7) / 8) ()
      { s.afterBits region k n with ct.shape := s.ct.shape ++ bitsFrom region k n } := by
  induction n generalizing s k with
  | zero =>
    have : ({ s.afterBits region k 0 with ct.shape := s.ct.shape ++ bitsFrom region k 0 } : State) = s := by
      simp [State.afterBits, State.afterReads, bitsFrom, ← hu]
    rw [this, Nat.add_zero, Nat.sub_self]
    exact Reads.nothing rfl rfl
  | succ n ih =>
    have h1 := get_reads .desBr 1 s region k hu hr (by omega)
    have hu1 := unread_next h1 hr
    have h2 := ih (((s.afterReads ((k + 8) / 8 - (k + 7) / 8)).setUnpacker .desBr (unpackerAt region (k + 1))).pushShape
      (bitAtIndex region k)) (k + 1) rfl hu1 (by omega)
      (by show (n : Int) ≤ s.des.bitsRemaining - 1; omega)
    have h3 := h1.andThen (f := fun b t => desShapeBits n (t.pushShape b)) (h2.after rfl rfl)
    have hn : (k + 8) / 8 - (k + 7) / 8 + ((k + 1 + n + 7) / 8 - (k + 1 + 7) / 8) = (k + (n + 1) + 7) / 8 - (k + 7) / 8 := by
      omega
    rw [hn] at h3
    rw [desShapeBits, if_neg (show ¬ s.des.bitsRemaining ≤ 0 by omega)]
    convert h3 using 1
    rw [State.mk.injEq]
    refine ⟨rfl, rfl, rfl, ?_, ?_, rfl, ?_, rfl, ?_, rfl, rfl, rfl⟩
    · rw [Deserializer.mk.injEq]
      refine ⟨congrArg (unpackerAt region) (show k + (n + 1) = k + 1 + n by omega), rfl, rfl, rfl, ?_, ?_⟩
      · show s.des.bitsRemaining - ((n + 1 : Nat) : Int) = s.des.bitsRemaining - 1 - (n : Int); omega
      · show s.des.idx + (n + 1) = s.des.idx + 1 + n; omega
    · rw [Container.mk.injEq]
      exact ⟨List.append_cons _ _ _, rfl, rfl⟩
    · rw [Memory.mk.injEq]
      refine ⟨rfl, rfl, ?_⟩
      exact (congrArg (s.mem.srcPos + ·) hn.symm).trans (Nat.add_assoc _ _ _).symm
    · exact (congrArg (s.srcAns.drop ·) hn.symm).trans List.drop_drop.symm

theorem desMsgBits_reads (n : Nat) (s : State) (region : List Byte) (k : Nat) (hu : s.des.br = unpackerAt region k)
    (hr : s.mem.unread = region.drop ((k + 7) / 8)) (hk : k + n ≤ 8 * region.length) :
    Reads (desMsgBits n s) s ((k + n + 7) / 8 - (k + 7) / 8) ()
      { s.afterBits region k n with ct.msg := s.ct.msg ++ bitsFrom region k n } := by
  induction n generalizing s k with
  | zero =>
    have : ({ s.afterBits region k 0 with ct.msg := s.ct.msg ++ bitsFrom region k 0 } : State) = s := by
      simp [State.afterBits, State.afterReads, bitsFrom, ← hu]
    rw [this, Nat.add_zero, Nat.sub_self]
    exact Reads.nothing rfl rfl
  | succ n ih =>
    have h1 := get_reads .desBr 2 s region k hu hr (by omega)
    have hu1 := unread_next h1 hr
    have h2 := ih (((s.afterReads ((k + 8) / 8 - (k + 7) / 8)).setUnpacker .desBr (unpackerAt region (k + 1))).pushMsg
      (bitAtIndex region k)) (k + 1) rfl hu1 (by omega)
    have h3 := h1.andThen (f := fun b t => desMsgBits n (t.pushMsg b)) (h2.after rfl rfl)
    have hn : (k + 8) / 8 - (k + 7) / 8 + ((k + 1 + n + 7) / 8 - (k + 1 + 7) / 8) = (k + (n + 1) + 7) / 8 - (k + 7) / 8 := by
      omega
    rw [hn] at h3
    rw [desMsgBits]
    convert h3 using 1
    rw [State.mk.injEq]
    refine ⟨rfl, rfl, rfl, ?_, ?_, rfl, ?_, rfl, ?_, rfl, rfl, rfl⟩
    · rw [Deserializer.mk.injEq]
      refine ⟨congrArg (unpackerAt region) (show k + (n + 1) = k + 1 + n by omega), rfl, rfl, rfl, ?_, ?_⟩
      · show s.des.bitsRemaining - ((n + 1 : Nat) : Int) = s.des.bitsRemaining - 1 - (n : Int); omega
      · show s.des.idx + (n + 1) = s.des.idx + 1 + n; omega
    · rw [Container.mk.injEq]
      exact ⟨rfl, rfl, List.append_cons _ _ _⟩
    · rw [Memory.mk.injEq]
      refine ⟨rfl, rfl, ?_⟩
      exact (congrArg (s.mem.srcPos + ·) hn.symm).trans (Nat.add_assoc _ _ _).symm
    · exact (congrArg (s.srcAns.drop ·) hn.symm).trans List.drop_drop.symm

/-- The tree shape runs out of meaningful bits or of bytes (R126, D12), having read as many bits as both allow. -/
theorem desShapeBits_short (n : Nat) (s : State) (region : List Byte) (k : Nat) (hu : s.des.br = unpackerAt region k)
    (hr : s.mem.unread = region.drop ((k + 7) / 8)) (hk : k ≤ 8 * region.length)
    (h : 0 < n ∧ s.des.bitsRemaining < n ∨ 8 * region.length < k + n) :
    Stops (desShapeBits n s) s ((k + min s.des.bitsRemaining.toNat (8 * region.length - k) + 7) / 8 - (k + 7) / 8)
      .unexpectedEndOfInput 1 := by
  induction n generalizing s k with
  | zero => omega
  | succ n ih =>
    rw [desShapeBits]
    by_cases hb : s.des.bitsRemaining ≤ 0
    · rw [if_pos hb, show s.des.bitsRemaining.toNat = 0 by omega, Nat.zero_min, Nat.add_zero, Nat.sub_self]
      exact Stops.now rfl
    · rw [if_neg hb]
      by_cases he : k = 8 * region.length
      · rw [get_exhausted .desBr 1 s region k hu hr he, show 8 * region.length - k = 0 by omega, Nat.min_zero, Nat.add_zero,
          Nat.sub_self]
        exact (Stops.now rfl).andThen _
      · have h1 := get_reads .desBr 1 s region k hu hr (by omega)
        have hu1 := unread_next h1 hr
        have h2 := ih (((s.afterReads ((k + 8) / 8 - (k + 7) / 8)).setUnpacker .desBr (unpackerAt region (k + 1))).pushShape
          (bitAtIndex region k)) (k + 1) rfl hu1 (by omega)
          (by show _ ∧ s.des.bitsRemaining - 1 < (n : Int) ∨ _; omega)
        have h3 := h1.andThen_stops (f := fun b t => desShapeBits n (t.pushShape b)) (h2.after rfl)
        convert h3 using 1
        show _ = _ + ((k + 1 + min (s.des.bitsRemaining - 1).toNat (8 * region.length - (k + 1)) + 7) / 8 - (k + 1 + 7) / 8)
        omega

/-- The message runs out of bytes (R127), having read them all. -/
theorem desMsgBits_short (n : Nat) (s : State) (region : List Byte) (k : Nat) (hu : s.des.br = unpackerAt region k)
    (hr : s.mem.unread = region.drop ((k + 7) / 8)) (hk : k ≤ 8 * region.length) (h : 8 * region.length < k + n) :
    Stops (desMsgBits n s) s (region.length - (k + 7) / 8) .unexpectedEndOfInput 2 := by
  induction n generalizing s k with
  | zero => omega
  | succ n ih =>
    rw [desMsgBits]
    by_cases he : k = 8 * region.length
    · rw [get_exhausted .desBr 2 s region k hu hr he, show region.length - (k + 7) / 8 = 0 by omega]
      exact (Stops.now rfl).andThen _
    · have h1 := get_reads .desBr 2 s region k hu hr (by omega)
      have hu1 := unread_next h1 hr
      have h2 := ih (((s.afterReads ((k + 8) / 8 - (k + 7) / 8)).setUnpacker .desBr (unpackerAt region (k + 1))).pushMsg
        (bitAtIndex region k)) (k + 1) rfl hu1 (by omega) (by omega)
      have h3 := h1.andThen_stops (f := fun b t => desMsgBits n (t.pushMsg b)) (h2.after rfl)
      convert h3 using 1
      omega

/-! ## The phases, exactly -/

theorem desMagic_reads (magic : List Byte) (hm : magic.length = 4) (s : State) (rest : List Byte)
    (h : s.mem.unread = magic ++ rest) :
    Reads (desMagic magic s) s 4 () { s.afterReads 4 with des.phase := .magic, des.idx := 4 } := by
  have h1 := desMagicBytes_reads magic (s.enterDes .magic) rest h
  rw [hm] at h1
  have h2 := h1.andThen (f := fun g t => if g = magic then Res.ok () t else .raised .notThisFormat 2 t)
    (m := 0) (b := ()) (by rw [if_pos rfl]; exact Reads.nothing rfl rfl)
  exact h2.after rfl rfl

theorem desCount_reads (s : State) (b : Byte) (rest : List Byte) (h : s.mem.unread = b :: rest)
    (hb : 2 ≤ (unbiasedCount b).toNat) :
    Reads (desCount s) s 1 ()
      { s.afterReads 1 with des.phase := .count, des.idx := 1, des.L := unbiasedCount b } := by
  have h1 := desByte_reads .truncatedHeader 1 (s := s.enterDes .count) h
  refine (h1.andThen (m := 0) (u := { s.afterReads 1 with des.phase := .count, des.idx := 1, des.L := unbiasedCount b })
    ?_).after rfl rfl
  simp only [if_neg (show ¬ (unbiasedCount b).toNat < 2 by omega)]
  exact Reads.nothing rfl rfl

theorem desLeaves_reads (s : State) (g rest : List Byte) (h : s.mem.unread = g ++ rest) (hl : s.des.L.toNat = g.length) :
    Reads (desLeaves s) s g.length ()
      { s.afterReads g.length with ct.leaves := s.ct.leaves ++ g, des.phase := .leaves, des.idx := g.length } := by
  have h1 := desLeafBytes_reads g (s.enterDes .leaves) rest h
  rw [desLeaves, hl]
  convert h1.after (s := s) rfl rfl using 1
  rw [show (s.enterDes .leaves).des.idx + g.length = g.length from Nat.zero_add _]
  rfl

theorem desTbc_reads (s : State) (b : Byte) (rest : List Byte) (h : s.mem.unread = b :: rest) :
    Reads (desTbc s) s 1 () { s.afterReads 1 with des.phase := .tbc, des.idx := 1, des.tbc := b } :=
  ((desByte_reads .truncatedHeader 2 (s := s.enterDes .tbc) h).andThen (m := 0)
    (f := fun r t => .ok () { t.countDes with des.tbc := r }) (Reads.nothing rfl rfl)).after rfl rfl

theorem desMeasure_reads (s : State) :
    Reads (desMeasure s) s 0 ()
      { s with
        des.phase := .measure, des.idx := 0, des.bitsRemaining := meaningfulBits s.mem.remaining s.des.tbc } :=
  Reads.nothing rfl rfl

theorem desShape_reads (s : State) (region : List Byte) (h : s.mem.unread = region)
    (hk : shapeLength s.des.L.toNat ≤ 8 * region.length) (hb : (shapeLength s.des.L.toNat : Int) ≤ s.des.bitsRemaining) :
    Reads (desShape s) s ((shapeLength s.des.L.toNat + 7) / 8) ()
      { s.afterReads ((shapeLength s.des.L.toNat + 7) / 8) with
        ct.shape := s.ct.shape ++ bitsFrom region 0 (shapeLength s.des.L.toNat)
        des := { s.des with
                 br := unpackerAt region (shapeLength s.des.L.toNat)
                 phase := .shape
                 bitsRemaining := s.des.bitsRemaining - shapeLength s.des.L.toNat
                 idx := shapeLength s.des.L.toNat } } := by
  have h1 := desShapeBits_reads (shapeLength s.des.L.toNat) (unpackerOpen .desBr (s.enterDes .shape)) region 0 rfl h
    (by omega) hb
  have h2 := h1.after (s := s) rfl rfl
  simpa [desShape, State.afterBits, State.afterReads, unpackerOpen, State.enterDes, State.setUnpacker] using h2

theorem desMsg_reads (s : State) (region : List Byte) (k : Nat) (hu : s.des.br = unpackerAt region k)
    (h : s.mem.unread = region.drop ((k + 7) / 8)) (hk : k + s.des.bitsRemaining.toNat ≤ 8 * region.length)
    (hb : 0 ≤ s.des.bitsRemaining) :
    Reads (desMsg s) s ((k + s.des.bitsRemaining.toNat + 7) / 8 - (k + 7) / 8) ()
      { s.afterReads ((k + s.des.bitsRemaining.toNat + 7) / 8 - (k + 7) / 8) with
        ct.msg := s.ct.msg ++ bitsFrom region k s.des.bitsRemaining.toNat
        des := { s.des with
                 br := unpackerAt region (k + s.des.bitsRemaining.toNat)
                 phase := .msg
                 bitsRemaining := 0
                 idx := s.des.bitsRemaining.toNat } } := by
  have h1 := desMsgBits_reads s.des.bitsRemaining.toNat (s.enterDes .msg) region k hu h hk
  have h2 := h1.after (s := s) rfl rfl
  have hz : s.des.bitsRemaining - max s.des.bitsRemaining 0 = 0 := by omega
  simpa [desMsg, State.afterBits, State.afterReads, State.enterDes, hz] using h2

end Sys2Proof.Machine
end

