-- ==== Sys2Proof/Laws/Format.lean ====
section
/-! SUPPORT. The pure decode of R129: what each of its outcomes says about the bytes, and that steps 1 to 6 of DES.READ have that
outcome. -/

namespace Sys2Proof.Machine

theorem unpack_eq_bitsFrom (region : List Byte) (n : Nat) : unpack region n = bitsFrom region 0 n := by
  rw [unpack_eq_map, bitsFrom, List.range_eq_range']

theorem bitsFrom_length (region : List Byte) (k n : Nat) : (bitsFrom region k n).length = n := by simp [bitsFrom]

/-! ## The layout of the bytes -/

theorem split_at_five (y : List Byte) (h : 5 ≤ y.length) : y = y.take 4 ++ y.getD 4 0 :: y.drop 5 := by
  have h4 : 4 < y.length := by omega
  conv_lhs => rw [← List.take_append_drop 4 y, List.drop_eq_getElem_cons h4]
  simp [List.getD_eq_getElem?_getD, h4]

theorem split_after_leaves (y : List Byte) (L : Nat) (h : 6 + L ≤ y.length) :
    y.drop 5 = (y.drop 5).take L ++ y.getD (5 + L) 0 :: y.drop (6 + L) := by
  have h5 : 5 + L < y.length := by omega
  conv_lhs => rw [← List.take_append_drop L (y.drop 5), List.drop_drop, List.drop_eq_getElem_cons h5]
  simp [List.getD_eq_getElem?_getD, h5, show 5 + L + 1 = 6 + L by omega]

/-- What `.ok` says: the five fields of a container, one after the other, and where its bits come from (R129). -/
structure Layout (magic y : List Byte) (c : Container) (b t : Byte) (region : List Byte) : Prop where
  bytes : y = magic ++ b :: (c.leaves ++ t :: region)
  magic4 : magic.length = 4
  count : c.leaves.length = b.toNat + 1
  two : 1 ≤ b.toNat
  enough : (shapeLength c.leaves.length : Int) ≤ meaningfulBits region.length t
  fits : meaningfulBits region.length t ≤ 8 * (region.length : Int)
  shape : c.shape = bitsFrom region 0 (shapeLength c.leaves.length)
  msg : c.msg = bitsFrom region (shapeLength c.leaves.length)
    ((meaningfulBits region.length t).toNat - shapeLength c.leaves.length)

/-- Everything decode can answer, each answer with what it says about the bytes (R129). -/
theorem decodeContainer_cases (magic y : List Byte) :
    (y.length < 4 ∧ decodeContainer magic y = .fault .notThisFormat 1) ∨
    (4 ≤ y.length ∧ y.take 4 ≠ magic ∧ decodeContainer magic y = .fault .notThisFormat 2) ∨
    (magic.length = 4 ∧ y = magic ∧ decodeContainer magic y = .fault .truncatedHeader 1) ∨
    (magic.length = 4 ∧ ∃ rest, y = magic ++ 0 :: rest ∧ decodeContainer magic y = .fault .invalidLeafCount 0) ∨
    (magic.length = 4 ∧ ∃ b rest, y = magic ++ b :: rest ∧ 1 ≤ b.toNat ∧ rest.length < b.toNat + 1 ∧
      decodeContainer magic y = .fault .truncatedLeafTable 0) ∨
    (magic.length = 4 ∧ ∃ b rest, y = magic ++ b :: rest ∧ 1 ≤ b.toNat ∧ rest.length = b.toNat + 1 ∧
      decodeContainer magic y = .fault .truncatedHeader 2) ∨
    (magic.length = 4 ∧ ∃ b leaves t region, y = magic ++ b :: (leaves ++ t :: region) ∧ 1 ≤ b.toNat ∧
      leaves.length = b.toNat + 1 ∧
      ((meaningfulBits region.length t < shapeLength leaves.length ∨ 8 * region.length < shapeLength leaves.length) ∧
          decodeContainer magic y = .fault .unexpectedEndOfInput 1 ∨
        (shapeLength leaves.length : Int) ≤ meaningfulBits region.length t ∧
          shapeLength leaves.length ≤ 8 * region.length ∧ 8 * (region.length : Int) < meaningfulBits region.length t ∧
          decodeContainer magic y = .fault .unexpectedEndOfInput 2)) ∨
    (∃ c b t region, Layout magic y c b t region ∧ decodeContainer magic y = .ok c) := by
  unfold decodeContainer
  by_cases h4 : y.length < 4
  · exact .inl ⟨h4, by simp [h4]⟩
  refine .inr ?_
  by_cases hm : y.take 4 = magic
  swap
  · exact .inl ⟨by omega, hm, by simp [h4, hm]⟩
  refine .inr ?_
  have hm4 : magic.length = 4 := by rw [← hm, List.length_take]; omega
  by_cases h5 : y.length < 5
  · refine .inl ⟨hm4, ?_, by simp [h4, hm, h5]⟩
    rw [← hm, List.take_of_length_le (by omega)]
  refine .inr ?_
  have hy : y = magic ++ y.getD 4 0 :: y.drop 5 := by
    conv_lhs => rw [split_at_five y (by omega), hm]
  by_cases hL : leafCountOf y < 2
  · refine .inl ⟨hm4, y.drop 5, ?_, by simp [h4, hm, h5, hL]⟩
    have : y.getD 4 0 = 0 := BitVec.eq_of_toNat_eq (by
      have : (y.getD 4 0).toNat + 1 < 2 := hL
      show (y.getD 4 0).toNat = 0
      omega)
    rw [← this]; exact hy
  refine .inr ?_
  have hb : 1 ≤ (y.getD 4 0).toNat := by
    have : ¬ (y.getD 4 0).toNat + 1 < 2 := hL
    omega
  have hl : leafCountOf y = (y.getD 4 0).toNat + 1 := rfl
  by_cases h5L : y.length < 5 + leafCountOf y
  · exact .inl ⟨hm4, y.getD 4 0, y.drop 5, hy, hb, by rw [List.length_drop]; omega, by simp [h4, hm, h5, hL, h5L]⟩
  refine .inr ?_
  by_cases h6L : y.length < 6 + leafCountOf y
  · exact .inl ⟨hm4, y.getD 4 0, y.drop 5, hy, hb, by rw [List.length_drop]; omega, by simp [h4, hm, h5, hL, h5L, h6L]⟩
  refine .inr ?_
  have hs := split_after_leaves y (leafCountOf y) (by omega)
  have hn : (y.drop (6 + leafCountOf y)).length = regionBytes y := by simp [regionBytes]
  have hll : ((y.drop 5).take (leafCountOf y)).length = leafCountOf y := by
    rw [List.length_take, List.length_drop]; omega
  have hB : meaningfulBits (y.drop (6 + leafCountOf y)).length (y.getD (5 + leafCountOf y) 0) = regionBits y := by
    rw [hn]; rfl
  have hy2 : y = magic ++ y.getD 4 0 :: ((y.drop 5).take (leafCountOf y) ++ y.getD (5 + leafCountOf y) 0 ::
      y.drop (6 + leafCountOf y)) := by
    rw [← hs]; exact hy
  by_cases hu : min (regionBits y) (8 * (regionBytes y : Int)) < (shapeLength (leafCountOf y) : Int)
  · refine .inl ⟨hm4, _, _, _, _, hy2, hb, by rw [hll, hl], .inl ⟨?_, by simp only [h4, hm, h5, hL, h5L, h6L, hu]; simp⟩⟩
    rw [hB, hn, hll]; omega
  by_cases hu2 : regionBits y > 8 * (regionBytes y : Int)
  · refine .inl ⟨hm4, _, _, _, _, hy2, hb, by rw [hll, hl], .inr ⟨?_, ?_, ?_, by
      simp only [h4, hm, h5, hL, h5L, h6L, hu, hu2]; simp⟩⟩
    · rw [hB, hll]; omega
    · rw [hn, hll]; omega
    · rw [hB, hn]; omega
  refine .inr ⟨regionContainer y, y.getD 4 0, y.getD (5 + leafCountOf y) 0, y.drop (6 + leafCountOf y),
    ⟨hy2, hm4, by rw [← hl]; exact hll, hb, ?_, ?_, ?_, ?_⟩, by simp only [h4, hm, h5, hL, h5L, h6L, hu, hu2]; simp⟩
  · rw [hB, show (regionContainer y).leaves.length = leafCountOf y from hll]; omega
  · rw [hB, hn]; omega
  · rw [show (regionContainer y).leaves.length = leafCountOf y from hll]
    show (unpack (y.drop (6 + leafCountOf y)) (regionBits y).toNat).take (shapeLength (leafCountOf y)) = _
    rw [unpack_take, unpack_eq_bitsFrom, Nat.min_eq_left (by omega)]
  · rw [show (regionContainer y).leaves.length = leafCountOf y from hll, hB]
    show (unpack (y.drop (6 + leafCountOf y)) (regionBits y).toNat).drop (shapeLength (leafCountOf y)) = _
    rw [unpack_drop]; rfl

theorem decode_ok_layout {magic y : List Byte} {c : Container} (h : decodeContainer magic y = .ok c) :
    ∃ b t region, Layout magic y c b t region := by
  rcases decodeContainer_cases magic y with ⟨-, e⟩ | ⟨-, -, e⟩ | ⟨-, -, e⟩ | ⟨-, -, -, e⟩ | ⟨-, -, -, -, -, -, e⟩ |
    ⟨-, -, -, -, -, -, e⟩ | ⟨-, -, -, -, -, -, -, -, ⟨-, e⟩ | ⟨-, -, -, e⟩⟩ | ⟨c', b, t, region, hl, e⟩
  all_goals rw [h] at e
  all_goals try cases e
  exact ⟨b, t, region, hl⟩

theorem leafCountOf_fields (magic rest : List Byte) (b : Byte) (hm : magic.length = 4) :
    leafCountOf (magic ++ b :: rest) = b.toNat + 1 := by
  rw [leafCountOf, List.getD_eq_getElem?_getD, List.getElem?_append_right (by omega), hm]; rfl

/-- What R129 reads from bytes laid out as five fields. -/
structure FieldsRead (y leaves region : List Byte) (t : Byte) : Prop where
  L : leafCountOf y = leaves.length
  length : y.length = 6 + leaves.length + region.length
  n : regionBytes y = region.length
  B : regionBits y = meaningfulBits region.length t
  container : regionContainer y =
    { shape := (unpack region (meaningfulBits region.length t).toNat).take (shapeLength leaves.length)
      leaves := leaves
      msg := (unpack region (meaningfulBits region.length t).toNat).drop (shapeLength leaves.length) }

theorem fieldsRead (magic leaves region : List Byte) (b t : Byte) (hm : magic.length = 4) (hl : leaves.length = b.toNat + 1) :
    FieldsRead (magic ++ b :: (leaves ++ t :: region)) leaves region t := by
  have hL : leafCountOf (magic ++ b :: (leaves ++ t :: region)) = leaves.length := by rw [leafCountOf_fields _ _ _ hm, hl]
  have hlen : (magic ++ b :: (leaves ++ t :: region)).length = 6 + leaves.length + region.length := by
    simp only [List.length_append, List.length_cons, hm]; omega
  have h5 : (magic ++ b :: (leaves ++ t :: region)).drop 5 = leaves ++ t :: region := by
    rw [show 5 = magic.length + 1 by rw [hm], ← List.drop_drop, List.drop_left]; rfl
  have h6 : (magic ++ b :: (leaves ++ t :: region)).drop (6 + leaves.length) = region := by
    rw [show 6 + leaves.length = 5 + (leaves.length + 1) by omega, ← List.drop_drop, h5, ← List.drop_drop, List.drop_left]
    rfl
  have ht : (magic ++ b :: (leaves ++ t :: region)).getD (5 + leaves.length) 0 = t := by
    have := congrArg (fun l : List Byte => l.getD leaves.length 0) h5
    simp only [List.getD_eq_getElem?_getD, List.getElem?_drop, List.getElem?_append_right (Nat.le_refl _), Nat.sub_self] at this
    rw [List.getD_eq_getElem?_getD, this]; rfl
  have hn : regionBytes (magic ++ b :: (leaves ++ t :: region)) = region.length := by
    rw [regionBytes, hL, hlen]; omega
  have hB : regionBits (magic ++ b :: (leaves ++ t :: region)) = meaningfulBits region.length t := by
    rw [regionBits, hn, hL, ht]
  exact ⟨hL, hlen, hn, hB, by simp only [regionContainer, hL, h6, hB, h5, List.take_left]⟩

/-- decode on bytes laid out as five fields (R129). -/
theorem decode_fields (magic leaves region : List Byte) (b t : Byte) (hm : magic.length = 4)
    (hl : leaves.length = b.toNat + 1) :
    decodeContainer magic (magic ++ b :: (leaves ++ t :: region)) =
      if leaves.length < 2 then .fault .invalidLeafCount 0
      else if min (meaningfulBits region.length t) (8 * (region.length : Int)) < (shapeLength leaves.length : Int) then
        .fault .unexpectedEndOfInput 1
      else if meaningfulBits region.length t > 8 * (region.length : Int) then .fault .unexpectedEndOfInput 2
      else .ok
        { shape := (unpack region (meaningfulBits region.length t).toNat).take (shapeLength leaves.length)
          leaves := leaves
          msg := (unpack region (meaningfulBits region.length t).toNat).drop (shapeLength leaves.length) } := by
  have h := fieldsRead magic leaves region b t hm hl
  have hlen := h.length
  unfold decodeContainer
  simp only [h.L, h.B, h.n, h.container]
  rw [if_neg (by omega), if_neg (by rw [← hm, List.take_left]; simp), if_neg (by omega)]
  by_cases h2 : leaves.length < 2
  · rw [if_pos h2, if_pos h2]
  · rw [if_neg h2, if_neg h2, if_neg (by omega), if_neg (by omega)]

/-- How far DES.READ reads bytes laid out as five fields (R120, R132). -/
theorem bytesTaken_fields (magic leaves region : List Byte) (b t : Byte) (hm : magic.length = 4)
    (hl : leaves.length = b.toNat + 1) (h2 : 2 ≤ leaves.length) :
    bytesTaken magic (magic ++ b :: (leaves ++ t :: region)) =
      6 + leaves.length + ((min (meaningfulBits region.length t) (8 * (region.length : Int))).toNat + 7) / 8 := by
  have h := fieldsRead magic leaves region b t hm hl
  have hlen := h.length
  have hm' : (magic ++ b :: (leaves ++ t :: region)).take 4 = magic := by rw [← hm, List.take_left]
  simp only [bytesTaken, h.L, h.B, h.n]
  rw [if_neg (by omega), if_neg (by rw [hm']; simp; omega), if_neg (by omega), if_neg (by omega)]

/-- How far DES.READ reads bytes that end in the leaf table or just after it (R123, R124). -/
theorem bytesTaken_short (magic rest : List Byte) (b : Byte) (hm : magic.length = 4) (hb : 1 ≤ b.toNat)
    (hr : rest.length ≤ b.toNat + 1) : bytesTaken magic (magic ++ b :: rest) = 5 + rest.length := by
  have hlen : (magic ++ b :: rest).length = 5 + rest.length := by simp [hm]; omega
  have hm' : (magic ++ b :: rest).take 4 = magic := by rw [← hm, List.take_left]
  simp only [bytesTaken, leafCountOf_fields _ _ _ hm, hlen]
  rw [if_neg (by omega), if_neg (by rw [hm']; simp), if_neg (by omega), if_pos (by omega)]

/-! ## The deserializer on these bytes -/

theorem toNat_unbiasedCount (b : Byte) : (unbiasedCount b).toNat = b.toNat + 1 := by
  have := b.isLt
  rw [unbiasedCount, BitVec.toNat_add, BitVec.toNat_setWidth, show (1 : BitVec 9).toNat = 1 from rfl]
  omega

theorem remaining_eq {m : Memory} {l : List Byte} (h : m.unread = l) : m.remaining = l.length := by
  rw [← unread_length, h]

namespace Layout

variable {magic : List Byte} {s : State} {c : Container} {b t : Byte} {region : List Byte}

/-- How many meaningful bits the region holds: those of the container. -/
theorem bits {y : List Byte} (h : Layout magic y c b t region) :
    meaningfulBits region.length t = (containerBits c : Int) := by
  have := h.enough
  rw [containerBits, h.shape, h.msg, bitsFrom_length, bitsFrom_length]
  omega

theorem shape_length {y : List Byte} (h : Layout magic y c b t region) : c.shape.length = shapeLength c.leaves.length := by
  rw [h.shape, bitsFrom_length]

theorem msg_bits {y : List Byte} (h : Layout magic y c b t region) :
    c.msg = bitsFrom region c.shape.length c.msg.length := by
  have h1 := h.bits
  rw [containerBits, h.shape_length] at h1
  conv_lhs => rw [h.msg]
  rw [h.shape_length]
  congr 1
  omega

theorem containerBits_le {y : List Byte} (h : Layout magic y c b t region) : containerBits c ≤ 8 * region.length := by
  have := h.fits
  rw [h.bits] at this
  omega

/-- The source after n of these bytes. -/
theorem unread_drop (h : Layout magic s.mem.unread c b t region) {u : State} {n : Nat} (hs : u.mem.src = s.mem.src)
    (hp : u.mem.srcPos = s.mem.srcPos + n) : u.mem.unread = (magic ++ b :: (c.leaves ++ t :: region)).drop n := by
  rw [Memory.unread, hs, hp, ← List.drop_drop, ← h.bytes]; rfl

theorem at_count (h : Layout magic s.mem.unread c b t region) {u : State} (hs : u.mem.src = s.mem.src)
    (hp : u.mem.srcPos = s.mem.srcPos + 4) : u.mem.unread = b :: (c.leaves ++ t :: region) := by
  rw [h.unread_drop hs hp, ← h.magic4, List.drop_left]

theorem at_leaves (h : Layout magic s.mem.unread c b t region) {u : State} (hs : u.mem.src = s.mem.src)
    (hp : u.mem.srcPos = s.mem.srcPos + 5) : u.mem.unread = c.leaves ++ t :: region := by
  rw [h.unread_drop hs hp, show 5 = magic.length + 1 by rw [h.magic4], ← List.drop_drop, List.drop_left]; rfl

theorem at_tbc (h : Layout magic s.mem.unread c b t region) {u : State} (hs : u.mem.src = s.mem.src)
    (hp : u.mem.srcPos = s.mem.srcPos + (5 + c.leaves.length)) : u.mem.unread = t :: region := by
  rw [h.unread_drop hs hp, show 5 = magic.length + 1 by rw [h.magic4], ← List.drop_drop, ← List.drop_drop, List.drop_left]
  simp

theorem at_region (h : Layout magic s.mem.unread c b t region) {u : State} (hs : u.mem.src = s.mem.src)
    (hp : u.mem.srcPos = s.mem.srcPos + (6 + c.leaves.length)) : u.mem.unread = region := by
  have := h.unread_drop hs hp
  rw [show 6 + c.leaves.length = magic.length + (1 + (c.leaves.length + 1)) by rw [h.magic4]; omega, ← List.drop_drop,
    ← List.drop_drop, ← List.drop_drop, List.drop_left] at this
  simpa using this

theorem at_msg (h : Layout magic s.mem.unread c b t region) {u : State} {n : Nat} (hs : u.mem.src = s.mem.src)
    (hp : u.mem.srcPos = s.mem.srcPos + (6 + c.leaves.length) + n) : u.mem.unread = region.drop n := by
  have h1 := h.at_region (u := { u with mem.srcPos := s.mem.srcPos + (6 + c.leaves.length) }) hs rfl
  rw [Memory.unread, hp, ← List.drop_drop]
  exact congrArg (List.drop n) h1

end Layout

/-- The states DES.READ passes through on these bytes, from one with an empty CT, at the end of each phase (R120, R132). -/
def State.desAt1 (s : State) : State := { s.afterReads 4 with des.phase := .magic, des.idx := 4 }
@[inherit_doc State.desAt1]
def State.desAt2 (s : State) (b : Byte) : State :=
  { s.desAt1.afterReads 1 with des.phase := .count, des.idx := 1, des.L := unbiasedCount b }
@[inherit_doc State.desAt1]
def State.desAt3 (s : State) (b : Byte) (c : Container) : State :=
  { (s.desAt2 b).afterReads c.leaves.length with
    ct := { Container.empty with leaves := c.leaves }, des.phase := .leaves, des.idx := c.leaves.length }
@[inherit_doc State.desAt1]
def State.desAt4 (s : State) (b : Byte) (c : Container) (t : Byte) : State :=
  { (s.desAt3 b c).afterReads 1 with des.phase := .tbc, des.idx := 1, des.tbc := t }
@[inherit_doc State.desAt1]
def State.desAt5 (s : State) (b : Byte) (c : Container) (t : Byte) : State :=
  { s.desAt4 b c t with des.phase := .measure, des.idx := 0, des.bitsRemaining := containerBits c }
@[inherit_doc State.desAt1]
def State.desAt6 (s : State) (b : Byte) (c : Container) (t : Byte) (region : List Byte) : State :=
  { (s.desAt5 b c t).afterReads ((c.shape.length + 7) / 8) with
    ct := { c with msg := [] }
    des := { s.des with
             br := unpackerAt region c.shape.length
             phase := .shape, L := unbiasedCount b, tbc := t, bitsRemaining := c.msg.length, idx := c.shape.length } }
@[inherit_doc State.desAt1]
def State.desAt7 (s : State) (b : Byte) (c : Container) (t : Byte) (region : List Byte) : State :=
  { (s.desAt6 b c t region).afterReads ((containerBits c + 7) / 8 - (c.shape.length + 7) / 8) with
    ct := c
    des := { s.des with
             br := unpackerAt region (containerBits c)
             phase := .msg, L := unbiasedCount b, tbc := t, bitsRemaining := 0, idx := c.msg.length } }

section
variable {magic : List Byte} {s : State} {c : Container} {b t : Byte} {region : List Byte} {e : Cause} {sub : BitVec 2}

theorem desMagic_layout (h : Layout magic s.mem.unread c b t region) : Reads (desMagic magic s) s 4 () s.desAt1 :=
  desMagic_reads magic h.magic4 s _ h.bytes

theorem desCount_layout (h : Layout magic s.mem.unread c b t region) :
    Reads (desCount s.desAt1) s.desAt1 1 () (s.desAt2 b) :=
  desCount_reads s.desAt1 b _ (h.at_count rfl rfl) (by rw [toNat_unbiasedCount]; have := h.two; omega)

theorem desLeaves_layout (h : Layout magic s.mem.unread c b t region) (hc : s.ct = Container.empty) :
    Reads (desLeaves (s.desAt2 b)) (s.desAt2 b) c.leaves.length () (s.desAt3 b c) := by
  have h1 := desLeaves_reads (s.desAt2 b) c.leaves _ (h.at_leaves rfl rfl)
    (by show (unbiasedCount b).toNat = _; rw [toNat_unbiasedCount, h.count])
  convert h1 using 1
  have : (s.desAt2 b).ct = Container.empty := hc
  simp [State.desAt3, State.afterReads, this, Container.empty]

theorem desTbc_layout (h : Layout magic s.mem.unread c b t region) :
    Reads (desTbc (s.desAt3 b c)) (s.desAt3 b c) 1 () (s.desAt4 b c t) :=
  desTbc_reads _ t _ (h.at_tbc rfl (by
    show s.mem.srcPos + 4 + 1 + c.leaves.length = _; omega))

theorem desMeasure_layout (h : Layout magic s.mem.unread c b t region) :
    Reads (desMeasure (s.desAt4 b c t)) (s.desAt4 b c t) 0 () (s.desAt5 b c t) := by
  have h1 := desMeasure_reads (s.desAt4 b c t)
  have hr : (s.desAt4 b c t).mem.remaining = region.length := remaining_eq (h.at_region rfl (by
    show s.mem.srcPos + 4 + 1 + c.leaves.length + 1 = _; omega))
  rw [hr, show (s.desAt4 b c t).des.tbc = t from rfl, h.bits] at h1
  exact h1

theorem desShape_layout (h : Layout magic s.mem.unread c b t region) :
    Reads (desShape (s.desAt5 b c t)) (s.desAt5 b c t) ((c.shape.length + 7) / 8) () (s.desAt6 b c t region) := by
  have hn : shapeLength (s.desAt5 b c t).des.L.toNat = c.shape.length := by
    show shapeLength (unbiasedCount b).toNat = _
    rw [toNat_unbiasedCount, ← h.count, h.shape_length]
  have hle := h.containerBits_le
  rw [containerBits] at hle
  have h1 := desShape_reads (s.desAt5 b c t) region (h.at_region rfl (by
      show s.mem.srcPos + 4 + 1 + c.leaves.length + 1 = _; omega)) (by rw [hn]; omega)
    (by rw [hn]; show (c.shape.length : Int) ≤ containerBits c; rw [containerBits]; omega)
  rw [hn] at h1
  convert h1 using 1
  have hs : bitsFrom region 0 c.shape.length = c.shape := by rw [h.shape_length, ← h.shape]
  have hz : ((containerBits c : Int) - c.shape.length) = c.msg.length := by rw [containerBits]; omega
  simp [State.desAt6, State.desAt5, State.desAt4, State.desAt3, State.desAt2, State.desAt1, State.afterReads,
    Container.empty, hs, hz]

theorem desMsg_layout (h : Layout magic s.mem.unread c b t region) :
    Reads (desMsg (s.desAt6 b c t region)) (s.desAt6 b c t region)
      ((containerBits c + 7) / 8 - (c.shape.length + 7) / 8) () (s.desAt7 b c t region) := by
  have hn : (s.desAt6 b c t region).des.bitsRemaining.toNat = c.msg.length := by
    show ((c.msg.length : Nat) : Int).toNat = _; omega
  have hk := h.containerBits_le
  have h1 := desMsg_reads (s.desAt6 b c t region) region c.shape.length rfl (h.at_msg rfl (by
      show s.mem.srcPos + 4 + 1 + c.leaves.length + 1 + _ = _; omega)) (by rw [hn]; exact hk)
    (by show (0 : Int) ≤ (c.msg.length : Nat); omega)
  rw [hn, ← h.msg_bits] at h1
  exact h1

/-- Steps 1 to 6 on a container (R120): what they leave, and how many bytes they read. -/
theorem desStream_layout (h : Layout magic s.mem.unread c b t region) (hc : s.ct = Container.empty) :
    Reads (desStream magic s) s (6 + c.leaves.length + (containerBits c + 7) / 8) () (s.desAt7 b c t region) := by
  have h1 := (desMagic_layout h).andThen (f := fun _ s1 =>
      (desCount s1).andThen fun _ s2 => (desLeaves s2).andThen fun _ s3 => (desTbc s3).andThen fun _ s4 =>
      (desMeasure s4).andThen fun _ s5 => (desShape s5).andThen fun _ s6 => desMsg s6)
    ((desCount_layout h).andThen ((desLeaves_layout h hc).andThen ((desTbc_layout h).andThen ((desMeasure_layout h).andThen
      ((desShape_layout h).andThen (desMsg_layout h))))))
  have hle : (c.shape.length + 7) / 8 ≤ (containerBits c + 7) / 8 := Nat.div_le_div_right (by rw [containerBits]; omega)
  have hn : 6 + c.leaves.length + (containerBits c + 7) / 8 = 4 + (1 + (c.leaves.length + (1 + (0 +
      ((c.shape.length + 7) / 8 + ((containerBits c + 7) / 8 - (c.shape.length + 7) / 8)))))) := by omega
  rw [hn]
  exact h1

/-- The magic field runs out (R121). -/
theorem desMagic_short (magic : List Byte) (s : State) (h : s.mem.unread.length < 4) :
    Stops (desMagic magic s) s s.mem.unread.length .notThisFormat 1 :=
  Stops.after (s' := s.enterDes .magic) ((desMagicBytes_short 4 (s.enterDes .magic) h).andThen _) rfl

/-- A foreign magic: four bytes are read before any is compared (R121). -/
theorem desMagic_foreign (magic : List Byte) (s : State) (h : 4 ≤ s.mem.unread.length) (hne : s.mem.unread.take 4 ≠ magic) :
    Stops (desMagic magic s) s 4 .notThisFormat 2 := by
  have h4 : (s.mem.unread.take 4).length = 4 := by rw [List.length_take]; omega
  have h1 := desMagicBytes_reads (s.mem.unread.take 4) (s.enterDes .magic) (s.mem.unread.drop 4)
    (List.take_append_drop 4 _).symm
  rw [h4] at h1
  exact Stops.after (s' := s.enterDes .magic)
    (h1.andThen_stops (f := fun g t => if g = magic then Res.ok () t else .raised .notThisFormat 2 t) (m := 0)
      (by rw [if_neg hne]; exact Stops.now rfl)) rfl

/-- No leaf count (R122). -/
theorem desCount_exhausted (s : State) (h : s.mem.unread = []) : Stops (desCount s) s 0 .truncatedHeader 1 :=
  Stops.after (s' := s.enterDes .count) ((desByte_stops _ _ (s := s.enterDes .count) h).andThen _) rfl

/-- A leaf count of one (R122). -/
theorem desCount_one (s : State) {rest : List Byte} (h : s.mem.unread = 0 :: rest) :
    Stops (desCount s) s 1 .invalidLeafCount 0 := by
  refine Stops.after (s' := s.enterDes .count) ?_ rfl
  refine (desByte_reads .truncatedHeader 1 (s := s.enterDes .count) h).andThen_stops (m := 0) ?_
  simp only [if_pos (show (unbiasedCount 0).toNat < 2 by decide)]
  exact Stops.now rfl

/-- The leaf table runs out (R123). -/
theorem desLeaves_short (s : State) (h : s.mem.unread.length < s.des.L.toNat) :
    Stops (desLeaves s) s s.mem.unread.length .truncatedLeafTable 0 :=
  Stops.after (s' := s.enterDes .leaves) (desLeafBytes_short s.des.L.toNat _ h) rfl

/-- No trailing-bit count (R124). -/
theorem desTbc_exhausted (s : State) (h : s.mem.unread = []) : Stops (desTbc s) s 0 .truncatedHeader 2 :=
  Stops.after (s' := s.enterDes .tbc) ((desByte_stops _ _ (s := s.enterDes .tbc) h).andThen _) rfl

/-- The tree shape runs out (R126). -/
theorem desShape_short (s : State) (region : List Byte) (h : s.mem.unread = region) (h0 : 0 < shapeLength s.des.L.toNat)
    (hk : s.des.bitsRemaining < shapeLength s.des.L.toNat ∨ 8 * region.length < shapeLength s.des.L.toNat) :
    Stops (desShape s) s ((min s.des.bitsRemaining.toNat (8 * region.length) + 7) / 8) .unexpectedEndOfInput 1 := by
  have h1 := desShapeBits_short (shapeLength s.des.L.toNat) (unpackerOpen .desBr (s.enterDes .shape)) region 0 rfl h (by omega)
    (hk.imp (fun h1 => ⟨h0, h1⟩) (fun h1 => by rw [Nat.zero_add]; exact h1))
  rw [Nat.zero_add] at h1
  exact h1.after rfl

/-- The message runs out (R127). -/
theorem desMsg_short (s : State) (region : List Byte) (k : Nat) (hu : s.des.br = unpackerAt region k)
    (h : s.mem.unread = region.drop ((k + 7) / 8)) (hk : k ≤ 8 * region.length)
    (hb : 8 * (region.length : Int) < k + s.des.bitsRemaining) :
    Stops (desMsg s) s (region.length - (k + 7) / 8) .unexpectedEndOfInput 2 :=
  (desMsgBits_short _ (s.enterDes .msg) region k hu h hk
    (by have e : (s.enterDes .msg).des.bitsRemaining = s.des.bitsRemaining := rfl
        rw [e]; omega)).after rfl

/-- Steps 1 to 6 on bytes that decode says are no container (R129): the fault, and how many bytes are read before it. -/
theorem desStream_fault (h : decodeContainer magic s.mem.unread = .fault e sub) :
    Stops (desStream magic s) s (bytesTaken magic s.mem.unread) e sub := by
  have hm : ∀ {rest}, magic.length = 4 → s.mem.unread = magic ++ rest →
      Reads (desMagic magic s) s 4 () s.desAt1 ∧ s.desAt1.mem.unread = rest := by
    intro rest hm4 hy
    have h1 : Reads (desMagic magic s) s 4 () s.desAt1 := desMagic_reads magic hm4 s _ hy
    exact ⟨h1, by rw [h1.unread, hy, ← hm4, List.drop_left]⟩
  have hcount : ∀ {b rest}, s.desAt1.mem.unread = b :: rest → 1 ≤ b.toNat →
      Reads (desCount s.desAt1) s.desAt1 1 () (s.desAt2 b) ∧ (s.desAt2 b).mem.unread = rest := by
    intro b rest hy hb
    have h1 : Reads (desCount s.desAt1) s.desAt1 1 () (s.desAt2 b) :=
      desCount_reads s.desAt1 b rest hy (by rw [toNat_unbiasedCount]; omega)
    exact ⟨h1, by rw [h1.unread, hy]; rfl⟩
  rcases decodeContainer_cases magic s.mem.unread with ⟨hl, d⟩ | ⟨hl, hne, d⟩ | ⟨hm4, hy, d⟩ | ⟨hm4, rest, hy, d⟩ |
    ⟨hm4, b, rest, hy, hb, hl, d⟩ | ⟨hm4, b, rest, hy, hb, hl, d⟩ | ⟨hm4, b, leaves, t, region, hy, hb, hl, d⟩ |
    ⟨c, b, t, region, -, d⟩
  · rw [h] at d; cases d
    rw [bytesTaken, if_pos hl]
    exact (desMagic_short magic s hl).andThen _
  · rw [h] at d; cases d
    rw [bytesTaken, if_neg (by omega), if_pos (.inl hne)]
    exact (desMagic_foreign magic s hl hne).andThen _
  · rw [h] at d; cases d
    obtain ⟨h1, hu⟩ := hm (rest := []) hm4 (by rw [List.append_nil]; exact hy)
    rw [bytesTaken, if_neg (by rw [hy]; omega), if_pos (.inr (by rw [hy]; omega))]
    exact h1.andThen_stops (m := 0) ((desCount_exhausted _ hu).andThen _)
  · rw [h] at d; cases d
    obtain ⟨h1, hu⟩ := hm hm4 hy
    have hlen : s.mem.unread.length = 4 + (rest.length + 1) := by rw [hy, List.length_append, List.length_cons, hm4]
    have hL : leafCountOf s.mem.unread < 2 := by rw [hy, leafCountOf_fields _ _ _ hm4]; decide
    rw [bytesTaken, if_neg (by omega), if_neg (by rw [hlen, hy, ← hm4, List.take_left]; simp; omega), if_pos hL]
    exact h1.andThen_stops (m := 1) ((desCount_one _ hu).andThen _)
  · rw [h] at d; cases d
    obtain ⟨h1, hu1⟩ := hm hm4 hy
    obtain ⟨h2, hu2⟩ := hcount hu1 hb
    rw [hy, bytesTaken_short magic rest b hm4 hb (by omega), show 5 + rest.length = 4 + (1 + rest.length) by omega]
    have h3 := desLeaves_short (s.desAt2 b) (by
      show (s.desAt2 b).mem.unread.length < (unbiasedCount b).toNat
      rw [hu2, toNat_unbiasedCount]; exact hl)
    rw [hu2] at h3
    exact h1.andThen_stops (h2.andThen_stops (h3.andThen _))
  · rw [h] at d; cases d
    obtain ⟨h1, hu1⟩ := hm hm4 hy
    obtain ⟨h2, hu2⟩ := hcount hu1 hb
    have h3 := desLeaves_reads (s.desAt2 b) rest [] (by rw [List.append_nil]; exact hu2)
      (by show (unbiasedCount b).toNat = _; rw [toNat_unbiasedCount, hl])
    have hu3 := h3.unread
    rw [hu2, List.drop_length] at hu3
    rw [hy, bytesTaken_short magic rest b hm4 hb (by omega), show 5 + rest.length = 4 + (1 + (rest.length + 0)) by omega]
    exact h1.andThen_stops (h2.andThen_stops (h3.andThen_stops ((desTbc_exhausted _ hu3).andThen _)))
  · obtain ⟨h1, hu1⟩ := hm hm4 hy
    obtain ⟨h2, hu2⟩ := hcount hu1 hb
    have h3 := desLeaves_reads (s.desAt2 b) leaves (t :: region) hu2
      (by show (unbiasedCount b).toNat = _; rw [toNat_unbiasedCount, hl])
    have hu3 := h3.unread
    rw [hu2, List.drop_left] at hu3
    obtain ⟨s4, h4, ht4, hL4⟩ : ∃ s4, Reads (desTbc _) _ 1 () s4 ∧ s4.des.tbc = t ∧ s4.des.L = unbiasedCount b :=
      ⟨_, desTbc_reads _ t region hu3, rfl, rfl⟩
    have hu4 := h4.unread
    rw [hu3, List.drop_one, List.tail_cons] at hu4
    obtain ⟨s5, h5, hB, hL⟩ : ∃ s5, Reads (desMeasure s4) s4 0 () s5 ∧
        s5.des.bitsRemaining = meaningfulBits region.length t ∧ s5.des.L.toNat = leaves.length :=
      ⟨_, desMeasure_reads s4, by rw [remaining_eq hu4, ht4], by
        show s4.des.L.toNat = _; rw [hL4, toNat_unbiasedCount, hl]⟩
    have hu5 := h5.unread.trans (by rw [hu4, List.drop_zero])
    rw [hy, bytesTaken_fields magic leaves region b t hm4 hl (by omega)]
    have hrun : ∀ {n m}, Stops ((desShape s5).andThen fun _ s6 => desMsg s6) s5 n e sub → m = n →
        Stops (desStream magic s) s (6 + leaves.length + m) e sub := by
      rintro n m h6 rfl
      rw [show 6 + leaves.length + m = 4 + (1 + (leaves.length + (1 + (0 + m)))) by omega]
      exact h1.andThen_stops (h2.andThen_stops (h3.andThen_stops (h4.andThen_stops (h5.andThen_stops h6))))
    rcases d with ⟨hd, d⟩ | ⟨hd1, hd2, hd3, d⟩
    · rw [h] at d; cases d
      refine hrun ((desShape_short s5 region hu5 (by rw [hL, shapeLength]; omega) (by rw [hL, hB]; exact hd)).andThen _) ?_
      rw [hB]
      congr 2
      omega
    · rw [h] at d; cases d
      have h6 := desShape_reads s5 region hu5 (by rw [hL]; exact hd2) (by rw [hL, hB]; exact hd1)
      have hu6 := h6.unread
      rw [hu5] at hu6
      refine hrun (h6.andThen_stops (desMsg_short _ region _ rfl hu6 (by rw [hL]; exact hd2) ?_)) ?_
      · show 8 * (region.length : Int) < (shapeLength s5.des.L.toNat : Nat) +
          (s5.des.bitsRemaining - (shapeLength s5.des.L.toNat : Nat))
        rw [hB]; omega
      · rw [hL]; omega
  · rw [h] at d; cases d

/-- A container's bytes are all that DES.READ reads of it (R132). -/
theorem Layout.bytesTaken {y : List Byte} (h : Layout magic y c b t region) :
    bytesTaken magic y = 6 + c.leaves.length + (containerBits c + 7) / 8 := by
  have h2 := h.two
  have hc := h.containerBits_le
  rw [h.bytes, bytesTaken_fields magic c.leaves region b t h.magic4 h.count (by rw [h.count]; omega), h.bits]
  congr 3
  omega

/-- Whatever the bytes are, a read that the environment fails among those steps 1 to 6 ask for ends them in SourceReadFailure
(R35, R37, R144). -/
theorem desStream_fails (magic : List Byte) (s : State) (hc : s.ct = Container.empty) :
    FailsWithin (desStream magic s) s (bytesTaken magic s.mem.unread) := by
  cases h : decodeContainer magic s.mem.unread with
  | fault e sub => exact (desStream_fault h).fail
  | ok c =>
    obtain ⟨b, t, region, hl⟩ := decode_ok_layout h
    rw [hl.bytesTaken]
    exact (desStream_layout hl hc).fail

end

end Sys2Proof.Machine
end

