-- ==== Sys2Proof/Laws/Serializer.lean ====
section
/-! SUPPORT. SER.WRITE piece by piece: what each keeps, which faults it raises, and exactly which bytes it writes. -/

namespace Sys2Proof.Machine

/-! ## Frames -/

theorem enterSer_frame (s : State) (p : SerPhase) : SerFrame s (s.enterSer p) :=
  ⟨rfl, rfl, rfl, rfl, rfl, rfl, rfl, rfl, rfl, List.prefix_refl _⟩

theorem countSer_frame (s : State) : SerFrame s s.countSer :=
  ⟨rfl, rfl, rfl, rfl, rfl, rfl, rfl, rfl, rfl, List.prefix_refl _⟩

theorem computeTbc_frame (s : State) : SerFrame s s.computeTbc :=
  ⟨rfl, rfl, rfl, rfl, rfl, rfl, rfl, rfl, rfl, List.prefix_refl _⟩

theorem setCt_frame (s : State) (c : Container) : SerFrame s { s with ct := c } :=
  ⟨rfl, rfl, rfl, rfl, rfl, rfl, rfl, rfl, rfl, List.prefix_refl _⟩

theorem serWriteBytes_frame (bs : List Byte) (s : State) : SerFrame s (serWriteBytes bs s).state := by
  induction bs generalizing s with
  | nil => exact SerFrame.refl s
  | cons b bs ih =>
    exact Res.keeps_andThen (R := SerFrame s) (sinkWrite_frame b s)
      fun _ t h => h.trans ((countSer_frame t).trans (ih _))

theorem serDrainLeaves_frame (bs : List Byte) (s : State) : SerFrame s (serDrainLeaves bs s).state := by
  induction bs generalizing s with
  | nil => exact SerFrame.refl s
  | cons b bs ih =>
    exact Res.keeps_andThen (R := SerFrame s) ((setCt_frame s { s.ct with leaves := bs }).trans (sinkWrite_frame b _))
      fun _ t h => h.trans ((countSer_frame t).trans (ih _))

theorem serDrainShape_frame (bs : List Bit) (s : State) : SerFrame s (serDrainShape bs s).state := by
  induction bs generalizing s with
  | nil => exact SerFrame.refl s
  | cons b bs ih =>
    exact Res.keeps_andThen (R := SerFrame s) ((setCt_frame s { s.ct with shape := bs }).trans (serPut_frame b _))
      fun _ t h => h.trans ((countSer_frame t).trans (ih _))

theorem serDrainMsg_frame (bs : List Bit) (s : State) : SerFrame s (serDrainMsg bs s).state := by
  induction bs generalizing s with
  | nil => exact SerFrame.refl s
  | cons b bs ih =>
    exact Res.keeps_andThen (R := SerFrame s) ((setCt_frame s { s.ct with msg := bs }).trans (serPut_frame b _))
      fun _ t h => h.trans ((countSer_frame t).trans (ih _))

theorem serStream_frame (magic : List Byte) (s : State) : SerFrame s (serStream magic s).state := by
  refine Res.keeps_andThen (R := SerFrame s) ((enterSer_frame s .magic).trans (serWriteBytes_frame _ _)) fun _ s2 h2 =>
    h2.trans <| Res.keeps_andThen (R := SerFrame s2) ((enterSer_frame s2 .count).trans (sinkWrite_frame _ _)) fun _ s3 h3 =>
    h3.trans <| Res.keeps_andThen (R := SerFrame s3) ((enterSer_frame s3 .leaves).trans (serDrainLeaves_frame _ _))
      fun _ s4 h4 => h4.trans <| Res.keeps_andThen (R := SerFrame s4)
        (((enterSer_frame s4 .tbc).trans (computeTbc_frame _)).trans (sinkWrite_frame _ _)) fun _ s5 h5 =>
    h5.trans <| Res.keeps_andThen (R := SerFrame s5) ?_ fun _ s6 h6 =>
    h6.trans ((enterSer_frame s6 .flush).trans (serClose_frame _))
  exact (enterSer_frame s5 .bits).trans ((setSerBw_frame _ Packer.opened).trans
    (Res.keeps_andThen (R := SerFrame _) (serDrainShape_frame _ _) fun _ t h => h.trans (serDrainMsg_frame _ t)))

/-! ## Faults -/

/-- The one fault of the stream. -/
abbrev IsSinkFailure (c : Cause) (sub : BitVec 2) : Prop := c = .sinkWriteFailure ∧ sub = 0

theorem sinkWrite_raises (b : Byte) (s : State) : (sinkWrite b s).Raises IsSinkFailure := by
  rcases sinkWrite_cases b s with ⟨-, h⟩ | ⟨-, h⟩ <;> rw [h] <;> simp [IsSinkFailure]

theorem packerPut_raises (w : PackerId) (b : Bit) (s : State) : (packerPut w b s).Raises IsSinkFailure := by
  rcases packerPut_cases w b s with ⟨-, h⟩ | ⟨-, -, h⟩ | ⟨-, -, h⟩ <;> rw [h] <;> simp [IsSinkFailure]

theorem packerClose_raises (w : PackerId) (s : State) : (packerClose w s).Raises IsSinkFailure := by
  rcases packerClose_cases w s with ⟨-, h⟩ | ⟨-, -, h⟩ | ⟨-, -, h⟩ <;> rw [h] <;> simp [IsSinkFailure]

theorem serWriteBytes_raises (bs : List Byte) (s : State) : (serWriteBytes bs s).Raises IsSinkFailure := by
  induction bs generalizing s with
  | nil => trivial
  | cons b bs ih => exact Res.raises_andThen (sinkWrite_raises b s) fun _ _ => ih _

theorem serDrainLeaves_raises (bs : List Byte) (s : State) : (serDrainLeaves bs s).Raises IsSinkFailure := by
  induction bs generalizing s with
  | nil => trivial
  | cons b bs ih => exact Res.raises_andThen (sinkWrite_raises b _) fun _ _ => ih _

theorem serDrainShape_raises (bs : List Bit) (s : State) : (serDrainShape bs s).Raises IsSinkFailure := by
  induction bs generalizing s with
  | nil => trivial
  | cons b bs ih => exact Res.raises_andThen (packerPut_raises _ b _) fun _ _ => ih _

theorem serDrainMsg_raises (bs : List Bit) (s : State) : (serDrainMsg bs s).Raises IsSinkFailure := by
  induction bs generalizing s with
  | nil => trivial
  | cons b bs ih => exact Res.raises_andThen (packerPut_raises _ b _) fun _ _ => ih _

theorem serStream_raises (magic : List Byte) (s : State) : (serStream magic s).Raises IsSinkFailure :=
  Res.raises_andThen (serWriteBytes_raises _ _) fun _ _ =>
  Res.raises_andThen (sinkWrite_raises _ _) fun _ _ =>
  Res.raises_andThen (serDrainLeaves_raises _ _) fun _ _ =>
  Res.raises_andThen (sinkWrite_raises _ _) fun _ _ =>
  Res.raises_andThen (Res.raises_andThen (serDrainShape_raises _ _) fun _ _ => serDrainMsg_raises _ _) fun _ _ =>
  packerClose_raises _ _

/-- Everything step 1 can do (R101). -/
theorem serCheck_cases (s : State) :
    (s.ct.leaves.length < 2 ∧ serCheck s = .raised .invariantViolation 1 (s.enterSer .check)) ∨
    (2 ≤ s.ct.leaves.length ∧ s.ct.shape.length ≠ shapeLength s.ct.leaves.length ∧
      serCheck s = .raised .invariantViolation 2 (s.enterSer .check)) ∨
    (containerValid s.ct = true ∧ serCheck s = .ok () (s.enterSer .check)) := by
  unfold serCheck
  by_cases h : s.ct.leaves.length < 2
  · exact .inl ⟨h, by simp [h]⟩
  · by_cases h' : s.ct.shape.length = shapeLength s.ct.leaves.length
    · exact .inr (.inr ⟨by simp [containerValid, h']; omega, by simp [h, h']⟩)
    · exact .inr (.inl ⟨by omega, h', by simp [h, h']⟩)

/-- Everything SER.WRITE can do, its guard on the fault latch apart (R100, R101, R110). -/
theorem serWrite_cases (magic : List Byte) (s : State) :
    (∃ sub, (sub = 1 ∨ sub = 2) ∧ serWrite magic s = .raised .invariantViolation sub s) ∨
    (containerValid s.ct = true ∧ ∃ t, serStream magic (s.enterSer .check) = .ok () t ∧
      serWrite magic s = .ok .nothing t.endSer) ∨
    (containerValid s.ct = true ∧ ∃ t, serStream magic (s.enterSer .check) = .raised .sinkWriteFailure 0 t ∧
      serWrite magic s = .raised .sinkWriteFailure 0 t.abandonSer) := by
  unfold serWrite
  rcases serCheck_cases s with ⟨-, h⟩ | ⟨-, -, h⟩ | ⟨hv, h⟩ <;> rw [h]
  · exact .inl ⟨1, .inl rfl, rfl⟩
  · exact .inl ⟨2, .inr rfl, rfl⟩
  · have hr := serStream_raises magic (s.enterSer .check)
    cases hs : serStream magic (s.enterSer .check) with
    | ok a t => exact .inr (.inl ⟨hv, t, rfl, by simp [hs]⟩)
    | raised c sub t =>
      rw [hs] at hr
      obtain ⟨rfl, rfl⟩ := hr
      exact .inr (.inr ⟨hv, t, rfl, by simp [hs]⟩)

theorem endSer_frame (s : State) : SerFrame s s.endSer :=
  ⟨rfl, rfl, rfl, rfl, rfl, rfl, rfl, rfl, rfl, List.prefix_refl _⟩

theorem abandonSer_frame (s : State) : SerFrame s s.abandonSer :=
  ⟨rfl, rfl, rfl, rfl, rfl, rfl, rfl, rfl, rfl, List.prefix_refl _⟩

/-! ## The bytes each phase writes -/

theorem serWriteBytes_emits (bs : List Byte) (s : State) :
    Emits (serWriteBytes bs s) s bs
      { s with mem.snk := s.mem.snk ++ bs, snkAns := s.snkAns.drop bs.length, ser.idx := s.ser.idx + bs.length } := by
  induction bs generalizing s with
  | nil => simpa [serWriteBytes] using Emits.nothing (SerFrame.refl s) rfl rfl
  | cons b bs ih =>
    have h := (sinkWrite_emits b s).andThen (f := fun _ t => serWriteBytes bs t.countSer)
      ((ih _).after (countSer_frame _) rfl rfl)
    have e : ({ s with
        mem.snk := s.mem.snk ++ b :: bs
        snkAns := s.snkAns.drop (bs.length + 1)
        ser.idx := s.ser.idx + (bs.length + 1) } : State) =
      { (s.acceptByte b).countSer with
        mem.snk := (s.acceptByte b).countSer.mem.snk ++ bs
        snkAns := (s.acceptByte b).countSer.snkAns.drop bs.length
        ser.idx := (s.acceptByte b).countSer.ser.idx + bs.length } := by
      simp [State.acceptByte, State.countSer, Memory.append, Nat.add_assoc, Nat.add_comm bs.length]
    rw [List.length_cons, e]
    exact h

theorem serDrainLeaves_emits (bs : List Byte) (s : State) (hs : s.ct.leaves = bs) :
    Emits (serDrainLeaves bs s) s bs
      { s with
        mem.snk := s.mem.snk ++ bs
        snkAns := s.snkAns.drop bs.length
        ct.leaves := []
        ser.idx := s.ser.idx + bs.length } := by
  induction bs generalizing s with
  | nil =>
    have e : ({ s with ct.leaves := [] } : State) = s := by
      cases s with
      | mk bw br ser des ct err mem snkAns srcAns host resp free =>
        cases ct; cases hs; rfl
    simpa [serDrainLeaves, e] using Emits.nothing (SerFrame.refl s) rfl rfl
  | cons b bs ih =>
    have h := ((sinkWrite_emits b { s with ct.leaves := bs }).andThen (f := fun _ t => serDrainLeaves bs t.countSer)
      ((ih _ rfl).after (countSer_frame _) rfl rfl)).after (setCt_frame s { s.ct with leaves := bs }) rfl rfl
    have e : ({ s with
        mem.snk := s.mem.snk ++ b :: bs
        snkAns := s.snkAns.drop (bs.length + 1)
        ct.leaves := []
        ser.idx := s.ser.idx + (bs.length + 1) } : State) =
      { (({ s with ct.leaves := bs } : State).acceptByte b).countSer with
        mem.snk := s.mem.snk ++ [b] ++ bs
        snkAns := s.snkAns.tail.drop bs.length
        ct.leaves := []
        ser.idx := s.ser.idx + 1 + bs.length } := by
      simp [State.acceptByte, State.countSer, Memory.append, Nat.add_assoc, Nat.add_comm bs.length]
    rw [List.length_cons, e]
    exact h

/-- What a packer has emitted and what it holds after some puts, as functions of the bits put. -/
def feed (p : Packer) : List Bit → List Byte × Packer
  | [] => ([], p)
  | b :: bs =>
    if p.cnt = 7 then (p.with b :: (feed Packer.opened bs).1, (feed Packer.opened bs).2)
    else feed { acc := p.with b, cnt := p.cnt + 1 } bs

theorem feed_full {p : Packer} (h : p.cnt = 7) (b : Bit) (bs : List Bit) :
    feed p (b :: bs) = (p.with b :: (feed Packer.opened bs).1, (feed Packer.opened bs).2) := by
  rw [feed, if_pos h]

theorem feed_room {p : Packer} (h : p.cnt ≠ 7) (b : Bit) (bs : List Bit) :
    feed p (b :: bs) = feed { acc := p.with b, cnt := p.cnt + 1 } bs := by
  rw [feed, if_neg h]

theorem feed_append (p : Packer) (bs cs : List Bit) :
    feed p (bs ++ cs) = ((feed p bs).1 ++ (feed (feed p bs).2 cs).1, (feed (feed p bs).2 cs).2) := by
  induction bs generalizing p with
  | nil => rfl
  | cons b bs ih =>
    simp only [List.cons_append, feed]
    split
    · rw [ih]; rfl
    · rw [ih]

/-- One put, exactly. -/
theorem serPut_emits (b : Bit) (s : State) :
    Emits (packerPut .serBw b s) s (feed s.ser.bw [b]).1
      { s with
        mem.snk := s.mem.snk ++ (feed s.ser.bw [b]).1
        snkAns := s.snkAns.drop (feed s.ser.bw [b]).1.length
        ser.bw := (feed s.ser.bw [b]).2 } := by
  by_cases h : s.ser.bw.cnt = 7
  · have e := sinkWrite_emits (s.ser.bw.with b) s
    have hf : feed s.ser.bw [b] = ([s.ser.bw.with b], Packer.opened) := feed_full h b []
    rw [hf]
    refine ⟨fun h1 => ?_, fun k hk h1 h2 => ?_, rfl, rfl,
      (acceptByte_frame s (s.ser.bw.with b)).trans ((setSerBw_frame _ Packer.opened).trans ⟨rfl, rfl, rfl, rfl, rfl, rfl, rfl, rfl, rfl, by simp [Memory.append]⟩)⟩
    · have := e.ok h1
      rw [packerPut, packer_serBw, if_pos h, this]
      simp [State.setPacker, State.acceptByte, Memory.append]
    · obtain ⟨u, e1, e2, e3, e4⟩ := e.fail k hk h1 h2
      refine ⟨u.losePacker .serBw, ?_, e2, e3, e4.trans (loseSerBw_frame u)⟩
      rw [packerPut, packer_serBw, if_pos h, e1]
  · have hf : feed s.ser.bw [b] = ([], { acc := s.ser.bw.with b, cnt := s.ser.bw.cnt + 1 }) := feed_room h b []
    rw [hf]
    have := Emits.nothing (s := s) (setSerBw_frame s { acc := s.ser.bw.with b, cnt := s.ser.bw.cnt + 1 }) rfl rfl
    rw [packerPut, packer_serBw, if_neg h]
    simpa [State.setPacker] using this

theorem serDrainShape_emits (bs : List Bit) (s : State) (hs : s.ct.shape = bs) :
    Emits (serDrainShape bs s) s (feed s.ser.bw bs).1
      { s with
        mem.snk := s.mem.snk ++ (feed s.ser.bw bs).1
        snkAns := s.snkAns.drop (feed s.ser.bw bs).1.length
        ct.shape := []
        ser.bw := (feed s.ser.bw bs).2
        ser.idx := s.ser.idx + bs.length } := by
  induction bs generalizing s with
  | nil =>
    have e : ({ s with ct.shape := [] } : State) = s := by
      cases s with
      | mk bw br ser des ct err mem snkAns srcAns host resp free =>
        cases ct; cases hs; rfl
    simpa [serDrainShape, feed, e] using Emits.nothing (SerFrame.refl s) rfl rfl
  | cons b bs ih =>
    have h := ((serPut_emits b { s with ct.shape := bs }).andThen (f := fun _ t => serDrainShape bs t.countSer)
      ((ih _ rfl).after (countSer_frame _) rfl rfl)).after (setCt_frame s { s.ct with shape := bs }) rfl rfl
    have ef := feed_append s.ser.bw [b] bs
    rw [List.singleton_append] at ef
    simp only [State.countSer] at h
    rw [ef]
    simpa [serDrainShape, State.countSer, Nat.add_assoc, Nat.add_comm bs.length] using h

theorem serDrainMsg_emits (bs : List Bit) (s : State) (hs : s.ct.msg = bs) :
    Emits (serDrainMsg bs s) s (feed s.ser.bw bs).1
      { s with
        mem.snk := s.mem.snk ++ (feed s.ser.bw bs).1
        snkAns := s.snkAns.drop (feed s.ser.bw bs).1.length
        ct.msg := []
        ser.bw := (feed s.ser.bw bs).2
        ser.idx := s.ser.idx + bs.length } := by
  induction bs generalizing s with
  | nil =>
    have e : ({ s with ct.msg := [] } : State) = s := by
      cases s with
      | mk bw br ser des ct err mem snkAns srcAns host resp free =>
        cases ct; cases hs; rfl
    simpa [serDrainMsg, feed, e] using Emits.nothing (SerFrame.refl s) rfl rfl
  | cons b bs ih =>
    have h := ((serPut_emits b { s with ct.msg := bs }).andThen (f := fun _ t => serDrainMsg bs t.countSer)
      ((ih _ rfl).after (countSer_frame _) rfl rfl)).after (setCt_frame s { s.ct with msg := bs }) rfl rfl
    have ef := feed_append s.ser.bw [b] bs
    rw [List.singleton_append] at ef
    simp only [State.countSer] at h
    rw [ef]
    simpa [serDrainMsg, State.countSer, Nat.add_assoc, Nat.add_comm bs.length] using h

/-! ## The packer's law (R84) -/

theorem pack_take_groups (bits : List Bit) (q : Nat) (h : 8 * q ≤ bits.length) :
    pack (bits.take (8 * q)) = (List.range q).map (packByte bits) := by
  have hl : (bits.take (8 * q)).length = 8 * q := by simp [h]
  unfold pack
  rw [hl, show (8 * q + 7) / 8 = q by omega]
  apply List.map_congr_left
  intro j hj
  have hj' : j < q := List.mem_range.mp hj
  conv_rhs => rw [← List.take_append_drop (8 * q) bits]
  rw [packByte_append _ _ _ (by rw [hl]; omega)]

theorem toNat_cnt (n : Nat) : (BitVec.ofNat 3 (n % 8)).toNat = n % 8 := by
  rw [BitVec.toNat_ofNat]; omega

/-- What an open packer has emitted and holds after some puts (R84): the bytes of the whole groups, and the rest. -/
theorem feed_opened (bits : List Bit) :
    feed Packer.opened bits =
      (pack (bits.take (8 * (bits.length / 8))),
        { acc := packByte bits (bits.length / 8), cnt := BitVec.ofNat 3 (bits.length % 8) }) := by
  induction bits using List.reverseRecOn with
  | nil => rfl
  | append_singleton bits b ih =>
    rw [feed_append, ih]
    have hc : Packer.with { acc := packByte bits (bits.length / 8), cnt := BitVec.ofNat 3 (bits.length % 8) } b =
        packByte (bits ++ [b]) (bits.length / 8) := by
      rw [packByte_concat bits b _ rfl, Packer.with, toNat_cnt]
    have hl : (bits ++ [b]).length = bits.length + 1 := by simp
    by_cases h7 : bits.length % 8 = 7
    · have hq : (bits.length + 1) / 8 = bits.length / 8 + 1 := by omega
      rw [feed_full (by rw [h7]; rfl), hc, hl, hq, pack_take_groups _ _ (by omega), pack_take_groups _ _ (by rw [hl]; omega),
        List.range_succ, List.map_append]
      have e1 : (List.range (bits.length / 8)).map (packByte bits) =
          (List.range (bits.length / 8)).map (packByte (bits ++ [b])) := by
        apply List.map_congr_left
        intro j hj
        have hj' : j < bits.length / 8 := List.mem_range.mp hj
        rw [packByte_append _ _ _ (by omega)]
      have e2 : packByte (bits ++ [b]) (bits.length / 8 + 1) = 0 := packByte_of_length_le _ _ (by rw [hl]; omega)
      rw [e1, e2, show (bits.length + 1) % 8 = 0 by omega]
      rfl
    · have hq : (bits.length + 1) / 8 = bits.length / 8 := by omega
      have hm : (bits.length + 1) % 8 = bits.length % 8 + 1 := by omega
      have hne : BitVec.ofNat 3 (bits.length % 8) ≠ 7 := by
        intro h
        have := congrArg BitVec.toNat h
        rw [toNat_cnt] at this
        exact h7 this
      rw [feed_room hne, hc, hl, hq, hm, pack_take_groups _ _ (by omega), pack_take_groups _ _ (by rw [hl]; omega)]
      have e1 : (List.range (bits.length / 8)).map (packByte (bits ++ [b])) =
          (List.range (bits.length / 8)).map (packByte bits) := by
        apply List.map_congr_left
        intro j hj
        have hj' : j < bits.length / 8 := List.mem_range.mp hj
        rw [packByte_append _ _ _ (by omega)]
      rw [e1]
      simp only [feed, List.append_nil, Prod.mk.injEq, Packer.mk.injEq, true_and]
      exact BitVec.eq_of_toNat_eq (by simp [BitVec.toNat_add])

/-- What a close flushes (R83). -/
def flushed (p : Packer) : List Byte := if p.cnt = 0 then [] else [p.acc]

/-- Puts and a close emit exactly pack of the bits (R84). -/
theorem feed_flushed (bits : List Bit) :
    (feed Packer.opened bits).1 ++ flushed (feed Packer.opened bits).2 = pack bits := by
  rw [feed_opened, pack_take_groups _ _ (by omega), flushed]
  by_cases h : bits.length % 8 = 0
  · have h8 : (bits.length + 7) / 8 = bits.length / 8 := by omega
    rw [if_pos (by rw [h]; rfl), List.append_nil, pack, h8]
  · have hne : ¬ BitVec.ofNat 3 (bits.length % 8) = 0 := by
      intro h'
      have := congrArg BitVec.toNat h'
      rw [toNat_cnt] at this
      exact h this
    have h8 : (bits.length + 7) / 8 = bits.length / 8 + 1 := by omega
    rw [if_neg hne, pack, h8, List.range_succ, List.map_append]
    rfl

/-! ## The phases, exactly -/

theorem serMagic_emits (magic : List Byte) (s : State) :
    Emits (serMagic magic s) s magic
      { s with
        mem.snk := s.mem.snk ++ magic
        snkAns := s.snkAns.drop magic.length
        ser.phase := .magic
        ser.idx := magic.length } := by
  simpa [serMagic, State.enterSer] using (serWriteBytes_emits magic (s.enterSer .magic)).after (enterSer_frame s _) rfl rfl

theorem serCount_emits (s : State) :
    Emits (serCount s) s [biasedCount s.ct.leaves.length]
      { s with
        mem.snk := s.mem.snk ++ [biasedCount s.ct.leaves.length]
        snkAns := s.snkAns.tail
        ser.phase := .count
        ser.idx := 0 } :=
  (sinkWrite_emits _ (s.enterSer .count)).after (enterSer_frame s _) rfl rfl

theorem serLeaves_emits (s : State) :
    Emits (serLeaves s) s s.ct.leaves
      { s with
        mem.snk := s.mem.snk ++ s.ct.leaves
        snkAns := s.snkAns.drop s.ct.leaves.length
        ct.leaves := []
        ser.phase := .leaves
        ser.idx := s.ct.leaves.length } := by
  simpa [serLeaves, State.enterSer] using
    (serDrainLeaves_emits s.ct.leaves (s.enterSer .leaves) rfl).after (enterSer_frame s _) rfl rfl

theorem tbc_range (n : Nat) : 1 ≤ tbc n ∧ tbc n ≤ 8 := by unfold tbc; split <;> omega

theorem tbcField (n : Nat) : (BitVec.ofNat 4 (tbc n)).setWidth 8 = BitVec.ofNat 8 (tbc n) := by
  have := tbc_range n
  apply BitVec.eq_of_toNat_eq
  simp only [BitVec.toNat_setWidth, BitVec.toNat_ofNat]
  omega

theorem serTbc_emits (s : State) :
    Emits (serTbc s) s [BitVec.ofNat 8 (tbc (containerBits s.ct))]
      { s with
        mem.snk := s.mem.snk ++ [BitVec.ofNat 8 (tbc (containerBits s.ct))]
        snkAns := s.snkAns.tail
        ser.phase := .tbc
        ser.idx := 0
        ser.tbcv := BitVec.ofNat 4 (tbc (containerBits s.ct)) } := by
  have h := (sinkWrite_emits (((s.enterSer .tbc).computeTbc).ser.tbcv.setWidth 8) ((s.enterSer .tbc).computeTbc)).after
    ((enterSer_frame s .tbc).trans (computeTbc_frame _)) rfl rfl
  simp only [computeTbc_ser, tbcField] at h
  simp only [serTbc, computeTbc_ser, tbcField]
  exact h

theorem serBits_emits (s : State) :
    Emits (serBits s) s (feed Packer.opened (s.ct.shape ++ s.ct.msg)).1
      { s with
        mem.snk := s.mem.snk ++ (feed Packer.opened (s.ct.shape ++ s.ct.msg)).1
        snkAns := s.snkAns.drop (feed Packer.opened (s.ct.shape ++ s.ct.msg)).1.length
        ct.shape := []
        ct.msg := []
        ser := { s.ser with
                 bw := (feed Packer.opened (s.ct.shape ++ s.ct.msg)).2
                 phase := .bits
                 idx := s.ct.shape.length + s.ct.msg.length } } := by
  have h := ((serDrainShape_emits s.ct.shape (packerOpen .serBw (s.enterSer .bits)) rfl).andThen
    (f := fun _ u => serDrainMsg u.ct.msg u) (serDrainMsg_emits s.ct.msg _ rfl)).after
    ((enterSer_frame s .bits).trans (setSerBw_frame _ Packer.opened)) rfl rfl
  rw [feed_append]
  simpa [serBits, packerOpen, State.enterSer, State.setPacker] using h

theorem serFlush_emits (s : State) :
    Emits (serFlush s) s (flushed s.ser.bw)
      { s with
        mem.snk := s.mem.snk ++ flushed s.ser.bw
        snkAns := s.snkAns.drop (flushed s.ser.bw).length
        ser := { s.ser with bw := Packer.opened, phase := .flush, idx := 0 } } := by
  by_cases h : s.ser.bw.cnt = 0
  · have hf : flushed s.ser.bw = [] := if_pos h
    rw [hf, serFlush, packerClose, packer_serBw, enterSer_ser, if_pos h]
    simpa [State.setPacker, State.enterSer] using
      Emits.nothing (s := s) ((enterSer_frame s .flush).trans (setSerBw_frame _ Packer.opened)) rfl rfl
  · have hf : flushed s.ser.bw = [s.ser.bw.acc] := if_neg h
    have e := (sinkWrite_emits s.ser.bw.acc (s.enterSer .flush)).after (enterSer_frame s .flush) rfl rfl
    rw [hf, serFlush, packerClose, packer_serBw, enterSer_ser, if_neg h]
    refine ⟨fun h1 => ?_, fun k hk h1 h2 => ?_, rfl, rfl, e.frame.trans
      ⟨rfl, rfl, rfl, rfl, rfl, rfl, rfl, rfl, rfl, List.prefix_refl _⟩⟩
    · rw [e.ok h1]
      simp [State.setPacker, State.acceptByte, Memory.append, State.enterSer]
    · obtain ⟨u, e1, e2, e3, e4⟩ := e.fail k hk h1 h2
      exact ⟨u.losePacker .serBw, by rw [e1], e2, e3, e4.trans (loseSerBw_frame u)⟩

/-- Steps 2 to 6 write exactly encode of CT (R108), and leave CT empty and the private packer open and empty. -/
theorem serStream_emits (magic : List Byte) (s : State) :
    Emits (serStream magic s) s (encodeContainer magic s.ct)
      { s with
        mem.snk := s.mem.snk ++ encodeContainer magic s.ct
        snkAns := s.snkAns.drop (encodeContainer magic s.ct).length
        ct := Container.empty
        ser := { bw := Packer.opened, phase := .flush, idx := 0, tbcv := BitVec.ofNat 4 (tbc (containerBits s.ct)) } } := by
  have h := (serMagic_emits magic s).andThen (f := fun _ s2 =>
      (serCount s2).andThen fun _ s3 => (serLeaves s3).andThen fun _ s4 => (serTbc s4).andThen fun _ s5 =>
      (serBits s5).andThen fun _ s6 => serFlush s6)
    ((serCount_emits _).andThen ((serLeaves_emits _).andThen ((serTbc_emits _).andThen
      ((serBits_emits _).andThen (serFlush_emits _)))))
  have e : magic ++ ([biasedCount s.ct.leaves.length] ++ (s.ct.leaves ++ ([BitVec.ofNat 8 (tbc (containerBits s.ct))] ++
      ((feed Packer.opened (s.ct.shape ++ s.ct.msg)).1 ++ flushed (feed Packer.opened (s.ct.shape ++ s.ct.msg)).2)))) =
      encodeContainer magic s.ct := by
    rw [feed_flushed, encodeContainer]
    simp only [List.append_assoc]
  have h' := h
  simp only [containerBits] at h' e
  rw [e] at h'
  have hs := h'.snk
  have ha := h'.ans
  convert h' using 1
  · rfl
  · refine State.mk.injEq .. |>.mpr ⟨rfl, rfl, rfl, rfl, rfl, rfl, ?_, ha.symm, rfl, rfl, rfl, rfl⟩
    exact Memory.mk.injEq .. |>.mpr ⟨hs.symm, rfl, rfl⟩

end Sys2Proof.Machine
end

