-- ==== Sys2Proof/Laws/Exec.lean ====
section
/-! SUPPORT. Everything a command can do, as one inversion lemma over all twelve; and what each command does in a state with no
fault latched, in terms of its shared operations. -/

namespace Sys2Proof.Machine

variable {s t : State} {c : Cause} {sub : BitVec 2}

/-- What each command runs when no fault is latched. -/
def bodyOf : Instr → State → Res Result
  | .sysReset, s => .ok .nothing s.resetState
  | .bitNew v, s => bitNew v s
  | .bitEq a b, s => .ok (.bit (bitOfBool (a == b))) s
  | .bitNe a b, s => .ok (.bit (bitOfBool (a != b))) s
  | .bitShow a, s => .ok (.char (rendering a)) s
  | .bwOpen, s => .ok .nothing (packerOpen .bw s)
  | .bwPut b, s => (packerPut .bw b s).andThen fun _ u => .ok .nothing u
  | .bwClose, s => (packerClose .bw s).andThen fun _ u => .ok .nothing u
  | .brOpen, s => .ok .nothing (unpackerOpen .br s)
  | .brGet, s => (unpackerGet .br 0 s).andThen fun b u => .ok (.bit b) u
  | .serWrite, s => serWrite Config.magicBytes s
  | .desRead, s => desRead Config.magicBytes s

/-- Every command but SYS.RESET runs its body under the guard on the latch; SER.WRITE where CT fits (U11). -/
theorem exec_eq_run {i : Instr} (hi : i ≠ .sysReset) (hf : i = .serWrite → s.err.code = 0 → s.ct.fits = true) :
    exec i s = runCommand (bodyOf i) s := by
  cases i
  case sysReset => exact absurd rfl hi
  case serWrite => exact if_neg fun h => by rw [hf rfl h.1] at h; exact absurd h.2 (by decide)
  all_goals rfl

/-- Everything a command can do that ends in a next state. -/
theorem exec_next_cases {i : Instr} (h : exec i s = .next t) :
    (i = .sysReset ∧ t = s.resetState.respond (.ok .nothing)) ∨
    (i ≠ .sysReset ∧ s.err.code ≠ 0 ∧ t = s.respond .refused) ∨
    (i ≠ .sysReset ∧ s.err.code = 0 ∧ ∃ r u, bodyOf i s = .ok r u ∧ t = u.respond (.ok r)) ∨
    (i ≠ .sysReset ∧ s.err.code = 0 ∧ ∃ c sub u, bodyOf i s = .raised c sub u ∧ t = u.takeFault c sub) := by
  by_cases hi : i = .sysReset
  · subst hi; cases h; exact .inl ⟨rfl, rfl⟩
  · have hf : i = .serWrite → s.err.code = 0 → s.ct.fits = true := by
      rintro rfl h0
      cases hc : s.ct.fits with
      | true => rfl
      | false =>
        have e : exec .serWrite s = .refused .leavesOverCapacity := if_pos ⟨h0, hc⟩
        rw [e] at h; cases h
    rw [exec_eq_run hi hf] at h
    rcases runCommand_cases (bodyOf i) s with ⟨h0, e⟩ | ⟨h0, r, u, e1, e2⟩ | ⟨h0, c, sub, u, e1, e2⟩
    · rw [e] at h; cases h; exact .inr (.inl ⟨hi, h0, rfl⟩)
    · rw [e2] at h; cases h; exact .inr (.inr (.inl ⟨hi, h0, r, u, e1, rfl⟩))
    · rw [e2] at h; cases h; exact .inr (.inr (.inr ⟨hi, h0, c, sub, u, e1, rfl⟩))

theorem exec_bitNew (hs : s.err.code = 0) (v : Int) :
    exec (.bitNew v) s = .next (match admission v with
      | .bit b => s.respond (.ok (.bit b))
      | .refuse c => s.takeFault c 0) := by
  simp only [exec, execBitNew, runCommand, if_pos hs, bitNew]
  cases admission v <;> rfl

theorem exec_bitEq (hs : s.err.code = 0) (a b : Bit) :
    exec (.bitEq a b) s = .next (s.respond (.ok (.bit (bitOfBool (a == b))))) :=
  runCommand_ok (body := fun t => .ok (.bit (bitOfBool (a == b))) t) hs rfl

theorem exec_bitNe (hs : s.err.code = 0) (a b : Bit) :
    exec (.bitNe a b) s = .next (s.respond (.ok (.bit (bitOfBool (a != b))))) :=
  runCommand_ok (body := fun t => .ok (.bit (bitOfBool (a != b))) t) hs rfl

theorem exec_bitShow (hs : s.err.code = 0) (a : Bit) :
    exec (.bitShow a) s = .next (s.respond (.ok (.char (rendering a)))) :=
  runCommand_ok (body := fun t => .ok (.char (rendering a)) t) hs rfl

theorem exec_bwOpen (hs : s.err.code = 0) :
    exec .bwOpen s = .next ((packerOpen .bw s).respond (.ok .nothing)) :=
  runCommand_ok (body := fun t => .ok .nothing (packerOpen .bw t)) hs rfl

theorem exec_bwPut_ok (hs : s.err.code = 0) {b : Bit} (h : packerPut .bw b s = .ok () t) :
    exec (.bwPut b) s = .next (t.respond (.ok .nothing)) :=
  runCommand_ok (body := fun t => (packerPut .bw b t).andThen fun _ u => .ok .nothing u) hs (by rw [h]; rfl)

theorem exec_bwPut_raised (hs : s.err.code = 0) {b : Bit} (h : packerPut .bw b s = .raised c sub t) :
    exec (.bwPut b) s = .next (t.takeFault c sub) :=
  runCommand_raised (body := fun t => (packerPut .bw b t).andThen fun _ u => .ok .nothing u) hs (by rw [h]; rfl)

theorem exec_bwClose_ok (hs : s.err.code = 0) (h : packerClose .bw s = .ok () t) :
    exec .bwClose s = .next (t.respond (.ok .nothing)) :=
  runCommand_ok (body := fun t => (packerClose .bw t).andThen fun _ u => .ok .nothing u) hs (by rw [h]; rfl)

theorem exec_bwClose_raised (hs : s.err.code = 0) (h : packerClose .bw s = .raised c sub t) :
    exec .bwClose s = .next (t.takeFault c sub) :=
  runCommand_raised (body := fun t => (packerClose .bw t).andThen fun _ u => .ok .nothing u) hs (by rw [h]; rfl)

theorem exec_brOpen (hs : s.err.code = 0) :
    exec .brOpen s = .next ((unpackerOpen .br s).respond (.ok .nothing)) :=
  runCommand_ok (body := fun t => .ok .nothing (unpackerOpen .br t)) hs rfl

theorem exec_brGet_ok (hs : s.err.code = 0) {b : Bit} (h : unpackerGet .br 0 s = .ok b t) :
    exec .brGet s = .next (t.respond (.ok (.bit b))) :=
  runCommand_ok (body := fun t => (unpackerGet .br 0 t).andThen fun b u => .ok (.bit b) u) hs (by rw [h]; rfl)

theorem exec_brGet_raised (hs : s.err.code = 0) (h : unpackerGet .br 0 s = .raised c sub t) :
    exec .brGet s = .next (t.takeFault c sub) :=
  runCommand_raised (body := fun t => (unpackerGet .br 0 t).andThen fun b u => .ok (.bit b) u) hs (by rw [h]; rfl)

theorem exec_serWrite (h : s.ct.fits = true) : exec .serWrite s = runCommand (serWrite Config.magicBytes) s :=
  if_neg (fun h' => by rw [h] at h'; exact absurd h'.2 (by decide))

theorem exec_serWrite_ok (hs : s.err.code = 0) (hf : s.ct.fits = true) {r : Result}
    (h : serWrite Config.magicBytes s = .ok r t) : exec .serWrite s = .next (t.respond (.ok r)) :=
  (exec_serWrite hf).trans (runCommand_ok hs h)

theorem exec_serWrite_raised (hs : s.err.code = 0) (hf : s.ct.fits = true)
    (h : serWrite Config.magicBytes s = .raised c sub t) : exec .serWrite s = .next (t.takeFault c sub) :=
  (exec_serWrite hf).trans (runCommand_raised hs h)

theorem exec_serWrite_over (hs : s.err.code = 0) (hf : s.ct.fits = false) :
    exec .serWrite s = .refused .leavesOverCapacity :=
  if_pos ⟨hs, hf⟩

theorem exec_desRead_ok (hs : s.err.code = 0) {r : Result} (h : desRead Config.magicBytes s = .ok r t) :
    exec .desRead s = .next (t.respond (.ok r)) :=
  runCommand_ok (body := desRead Config.magicBytes) hs h

theorem exec_desRead_raised (hs : s.err.code = 0) (h : desRead Config.magicBytes s = .raised c sub t) :
    exec .desRead s = .next (t.takeFault c sub) :=
  runCommand_raised (body := desRead Config.magicBytes) hs h

/-- MAGIC_BYTES are four bytes (R6). -/
theorem magicBytes_length : Config.magicBytes.length = 4 := rfl

/-- A word whose four bytes are zero is zero. -/
theorem eq_zero_of_bytesOfMagic {w : BitVec 32} (h : Config.bytesOfMagic w = [0, 0, 0, 0]) : w = 0 := by
  simp only [Config.bytesOfMagic, List.cons.injEq, and_true] at h
  obtain ⟨h3, h2, h1, h0⟩ := h
  have e3 := congrArg BitVec.toNat h3
  have e2 := congrArg BitVec.toNat h2
  have e1 := congrArg BitVec.toNat h1
  have e0 := congrArg BitVec.toNat h0
  simp only [BitVec.extractLsb'_toNat, Nat.shiftRight_eq_div_pow] at e0 e1 e2 e3
  change _ = 0 at e0 e1 e2 e3
  apply BitVec.eq_of_toNat_eq
  have := w.isLt
  change w.toNat = 0
  omega

/-- MAGIC_BYTES are not four zero bytes (R6). -/
theorem magicBytes_ne_zero : Config.magicBytes ≠ [0, 0, 0, 0] := fun h => by
  have e := congrArg BitVec.toNat (eq_zero_of_bytesOfMagic h)
  have := Config.magicIndex.isLt
  simp only [Config.magicWord, BitVec.toNat_ofNat] at e
  change _ = 0 at e
  omega

end Sys2Proof.Machine
end

