-- ==== Sys2Proof/Laws/Frames.lean ====
section
/-! SUPPORT. What each command leaves as it was, for all twelve in one lemma. -/

namespace Sys2Proof.Machine

/-- What a command of the standalone packer changes. -/
structure BwFrame (s t : State) : Prop where
  eq : t = { s with bw := t.bw, mem.snk := t.mem.snk, snkAns := t.snkAns, free := t.free }
  snk : s.mem.snk <+: t.mem.snk

/-- What a command of the standalone unpacker changes. -/
structure BrFrame (s t : State) : Prop where
  eq : t = { s with br := t.br, mem.srcPos := t.mem.srcPos, srcAns := t.srcAns, free := t.free }
  pos : s.mem.srcPos ≤ t.mem.srcPos

theorem bwPut_frame (b : Bit) (s : State) : BwFrame s (packerPut .bw b s).state := by
  rcases packerPut_cases .bw b s with ⟨-, e⟩ | ⟨-, -, e⟩ | ⟨-, -, e⟩ <;> rw [e]
  · exact ⟨rfl, List.prefix_refl _⟩
  · exact ⟨rfl, List.prefix_append _ _⟩
  · exact ⟨rfl, List.prefix_append _ _⟩

theorem bwClose_frame (s : State) : BwFrame s (packerClose .bw s).state := by
  rcases packerClose_cases .bw s with ⟨-, e⟩ | ⟨-, -, e⟩ | ⟨-, -, e⟩ <;> rw [e]
  · exact ⟨rfl, List.prefix_refl _⟩
  · exact ⟨rfl, List.prefix_append _ _⟩
  · exact ⟨rfl, List.prefix_append _ _⟩

theorem brGet_frame (s : State) : BrFrame s (unpackerGet .br 0 s).state := by
  rcases unpackerGet_cases .br 0 s with ⟨-, e⟩ | ⟨-, -, e⟩ | ⟨b, -, -, -, e⟩ | ⟨b, -, -, -, e⟩ <;> rw [e]
  · exact ⟨rfl, Nat.le_refl _⟩
  · exact ⟨rfl, Nat.le_refl _⟩
  · exact ⟨rfl, Nat.le_succ _⟩
  · exact ⟨rfl, Nat.le_refl _⟩

theorem serWrite_frame (magic : List Byte) (s : State) : SerFrame s (serWrite magic s).state := by
  have h := serStream_frame magic (s.enterSer .check)
  rcases serWrite_cases magic s with ⟨sub, -, e⟩ | ⟨-, t, e, e'⟩ | ⟨-, t, e, e'⟩
  · rw [e]; exact SerFrame.refl s
  · rw [e'] ; rw [e] at h
    exact (enterSer_frame s .check).trans (h.trans (endSer_frame t))
  · rw [e'] ; rw [e] at h
    exact (enterSer_frame s .check).trans (h.trans (abandonSer_frame t))

theorem abandonDes_frame {s t : State} (h : DesFrame s t) (c : Cause) : DesFrame s (t.abandonDes c s.mem.srcPos) := by
  refine ⟨h.bw, h.br, h.ser, h.err, h.snk, h.src, h.snkAns, h.host, h.resp, Nat.le_add_right _ _, fun hw => ?_⟩
  have hw' : s.mem.srcPos ≤ s.mem.src.length := of_decide_eq_true hw
  apply loseSource_wf
  · unfold sourceLimit; rw [h.src]; split <;> omega
  · show sourceLimit c t.mem _ ≤ t.mem.src.length
    unfold sourceLimit; split <;> omega

theorem desRead_frame (magic : List Byte) (s : State) : DesFrame s (desRead magic s).state := by
  have h := desStream_frame magic s.clearCt
  rcases desRead_cases magic s with ⟨t, e, e'⟩ | ⟨c, sub, t, -, e, e'⟩ <;> rw [e'] <;> rw [e] at h
  · exact (clearCt_frame s).trans (h.trans (endDes_frame t))
  · exact abandonDes_frame ((clearCt_frame s).trans h) c

/-- What each command leaves as it was, apart from the latch, the phases and the response. -/
theorem body_frame (i : Instr) (s : State) :
    match i with
    | .sysReset => (bodyOf i s).state = s.resetState
    | .bitNew _ | .bitEq _ _ | .bitNe _ _ | .bitShow _ => (bodyOf i s).state = s
    | .bwOpen | .bwPut _ | .bwClose => BwFrame s (bodyOf i s).state
    | .brOpen | .brGet => BrFrame s (bodyOf i s).state
    | .serWrite => SerFrame s (bodyOf i s).state
    | .desRead => DesFrame s (bodyOf i s).state := by
  cases i with
  | sysReset => rfl
  | bitNew v => simp only [bodyOf, bitNew]; cases admission v <;> rfl
  | bitEq a b => rfl
  | bitNe a b => rfl
  | bitShow a => rfl
  | bwOpen => exact ⟨rfl, List.prefix_refl _⟩
  | bwPut b => exact Res.keeps_andThen (R := BwFrame s) (bwPut_frame b s) fun _ _ h => h
  | bwClose => exact Res.keeps_andThen (R := BwFrame s) (bwClose_frame s) fun _ _ h => h
  | brOpen => exact ⟨rfl, Nat.le_refl _⟩
  | brGet => exact Res.keeps_andThen (R := BrFrame s) (brGet_frame s) fun _ _ h => h
  | serWrite => exact serWrite_frame _ s
  | desRead => exact desRead_frame _ s

/-- A command's next state is its body's, or the state it began in, but for the latch, the phases and the response. -/
theorem exec_frame {i : Instr} {s t : State} (h : exec i s = .next t) :
    ∃ u, (u = s ∨ u = (bodyOf i s).state) ∧
      t = { u with err := t.err, ser.phase := t.ser.phase, des.phase := t.des.phase, resp := t.resp } := by
  rcases exec_next_cases h with ⟨rfl, rfl⟩ | ⟨hi, h0, rfl⟩ | ⟨hi, h0, r, u, e, rfl⟩ | ⟨hi, h0, c, sub, u, e, rfl⟩
  · exact ⟨_, .inr rfl, rfl⟩
  · exact ⟨s, .inl rfl, rfl⟩
  · exact ⟨u, .inr (by rw [e]; rfl), rfl⟩
  · exact ⟨u, .inr (by rw [e]; rfl), rfl⟩

end Sys2Proof.Machine
end

