-- ==== Sys2Proof/Laws/Alike.lean ====
section
/-! SUPPORT. Two runs side by side from states that differ only in what carries nothing from one command to the next: the working
registers and the last response (R19, R21, R25, U18). -/

namespace Sys2Proof.Machine

/-- The registers that carry nothing on, and the response. -/
structure Loose where
  serIdx : Nat
  tbcv : BitVec 4
  L : BitVec 9
  tbc : Byte
  bits : Int
  desIdx : Nat
  resp : Response

/-- The loose part of a state. -/
def State.loose (s : State) : Loose :=
  { serIdx := s.ser.idx, tbcv := s.ser.tbcv, L := s.des.L, tbc := s.des.tbc, bits := s.des.bitsRemaining
    desIdx := s.des.idx, resp := s.resp }

/-- The same state with another loose part. -/
def State.putLoose (s : State) (l : Loose) : State :=
  { s with
    ser.idx := l.serIdx
    ser.tbcv := l.tbcv
    des.L := l.L
    des.tbc := l.tbc
    des.bitsRemaining := l.bits
    des.idx := l.desIdx
    resp := l.resp }

theorem putLoose_loose (s : State) : s.putLoose s.loose = s := rfl
theorem loose_putLoose (s : State) (l : Loose) : (s.putLoose l).loose = l := rfl
theorem putLoose_putLoose (s : State) (l m : Loose) : (s.putLoose l).putLoose m = s.putLoose m := rfl

/-- What two runs are known to agree on in their loose parts: each number that is named, and everything but the response where
`all` holds. -/
structure Agree (all L t b : Prop) (l m : Loose) : Prop where
  all : all → l.serIdx = m.serIdx ∧ l.tbcv = m.tbcv ∧ l.L = m.L ∧ l.tbc = m.tbc ∧ l.bits = m.bits ∧ l.desIdx = m.desIdx
  L : L → l.L = m.L
  t : t → l.tbc = m.tbc
  b : b → l.bits = m.bits

/-- Two states alike but for the loose part, which agrees as far as said. -/
def Alike (all L t b : Prop) (s s' : State) : Prop := ∃ m, s' = s.putLoose m ∧ Agree all L t b s.loose m

/-- The same ending, with the same value or fault, in states alike. -/
def Res.Alike {α : Type} (all : Prop) (P : State → State → Prop) : Res α → Res α → Prop
  | .ok a s, .ok a' s' => a = a' ∧ P s s'
  | .raised c sub s, .raised c' sub' s' => c = c' ∧ sub = sub' ∧ Machine.Alike all False False False s s'
  | .ok _ _, .raised _ _ _ => False
  | .raised _ _ _, .ok _ _ => False

variable {all L t b : Prop} {s s' : State}

theorem Alike.refl (s : State) : Alike all L t b s s :=
  ⟨s.loose, rfl, fun _ => ⟨rfl, rfl, rfl, rfl, rfl, rfl⟩, fun _ => rfl, fun _ => rfl, fun _ => rfl⟩

theorem Alike.weaken {L' t' b' : Prop} (h : Alike all L t b s s') (hL : L' → L) (ht : t' → t) (hb : b' → b) :
    Alike all L' t' b' s s' := by
  obtain ⟨m, e, a⟩ := h
  exact ⟨m, e, a.all, a.L ∘ hL, a.t ∘ ht, a.b ∘ hb⟩

theorem Res.alike_andThen {α β : Type} {P Q : State → State → Prop} {r r' : Res α} {f : α → State → Res β}
    (h : r.Alike all P r') (hf : ∀ a s s', P s s' → (f a s).Alike all Q (f a s')) :
    (r.andThen f).Alike all Q (r'.andThen f) := by
  cases r <;> cases r'
  · obtain ⟨rfl, h⟩ := h; exact hf _ _ _ h
  · cases h
  · cases h
  · exact h

/-- A piece that neither reads nor writes the loose part. -/
def Blind {α : Type} (f : State → Res α) : Prop :=
  ∀ s m, f (s.putLoose m) = match f s with
    | .ok a t => .ok a (t.putLoose m)
    | .raised c sub t => .raised c sub (t.putLoose m)

/-- A piece that never writes the loose part. -/
def Still {α : Type} (f : State → Res α) : Prop := ∀ s, (f s).state.loose = s.loose

theorem Blind.alike {α : Type} {f : State → Res α} (hb : Blind f) (hs : Still f) (h : Alike all L t b s s') :
    (f s).Alike all (Alike all L t b) (f s') := by
  obtain ⟨m, rfl, a⟩ := h
  have hl := hs s
  rw [hb s m]
  cases e : f s with
  | ok x u => rw [e] at hl; exact ⟨rfl, m, rfl, by rw [show u.loose = s.loose from hl]; exact a⟩
  | raised c sub u =>
    rw [e] at hl
    exact ⟨rfl, rfl, m, rfl, by rw [show u.loose = s.loose from hl]; exact ⟨a.all, False.elim, False.elim, False.elim⟩⟩

theorem sinkWrite_blind (x : Byte) : Blind (sinkWrite x) := by
  intro s m
  rcases sinkWrite_cases x s with ⟨h, e⟩ | ⟨h, e⟩ <;> rcases sinkWrite_cases x (s.putLoose m) with ⟨h', e'⟩ | ⟨h', e'⟩
  · rw [e, e']; rfl
  · exact absurd (h.symm.trans h') (by decide)
  · exact absurd (h.symm.trans h') (by decide)
  · rw [e, e']; rfl

theorem sinkWrite_still (x : Byte) : Still (sinkWrite x) := by
  intro s
  rcases sinkWrite_cases x s with ⟨-, e⟩ | ⟨-, e⟩ <;> rw [e] <;> rfl

theorem sourceRead_blind : Blind sourceRead := by
  intro s m
  have hm : (s.putLoose m).mem = s.mem := rfl
  have ha : (s.putLoose m).readAnswer = s.readAnswer := rfl
  unfold sourceRead
  rw [hm, ha]
  cases s.mem.srcByte s.mem.srcPos with
  | none => rfl
  | some x => cases s.readAnswer <;> rfl

theorem sourceRead_still : Still sourceRead := by
  intro s
  rcases sourceRead_cases s with ⟨-, e⟩ | ⟨x, -, -, e⟩ | ⟨x, -, -, e⟩ <;> rw [e] <;> rfl

theorem packerPut_blind (w : PackerId) (x : Bit) : Blind (packerPut w x) := by
  intro s m
  have hp : (s.putLoose m).packer w = s.packer w := by cases w <;> rfl
  unfold packerPut
  rw [hp, sinkWrite_blind _ s m]
  split
  · cases sinkWrite ((s.packer w).with x) s <;> cases w <;> rfl
  · cases w <;> rfl

theorem packerPut_still (w : PackerId) (x : Bit) : Still (packerPut w x) := by
  intro s
  rcases packerPut_cases w x s with ⟨-, e⟩ | ⟨-, -, e⟩ | ⟨-, -, e⟩ <;> rw [e] <;> cases w <;> rfl

theorem packerClose_blind (w : PackerId) : Blind (packerClose w) := by
  intro s m
  have hp : (s.putLoose m).packer w = s.packer w := by cases w <;> rfl
  unfold packerClose
  rw [hp, sinkWrite_blind _ s m]
  split
  · cases w <;> rfl
  · cases sinkWrite (s.packer w).acc s <;> cases w <;> rfl

theorem packerClose_still (w : PackerId) : Still (packerClose w) := by
  intro s
  rcases packerClose_cases w s with ⟨-, e⟩ | ⟨-, -, e⟩ | ⟨-, -, e⟩ <;> rw [e] <;> cases w <;> rfl

theorem unpackerGet_blind (u : UnpackerId) (sub : BitVec 2) : Blind (unpackerGet u sub) := by
  intro s m
  have hp : (s.putLoose m).unpacker u = s.unpacker u := by cases u <;> rfl
  unfold unpackerGet
  rw [hp, sourceRead_blind s m]
  split
  · cases e : sourceRead s with
    | ok x v => cases x <;> cases u <;> rfl
    | raised c sb v => cases u <;> rfl
  · cases u <;> rfl

theorem unpackerGet_still (u : UnpackerId) (sub : BitVec 2) : Still (unpackerGet u sub) := by
  intro s
  rcases unpackerGet_cases u sub s with ⟨-, e⟩ | ⟨-, -, e⟩ | ⟨x, -, -, -, e⟩ | ⟨x, -, -, -, e⟩ <;> rw [e] <;> cases u <;> rfl

/-! ## The serializer -/

theorem enterSer_alike (p : SerPhase) (h : Alike all L t b s s') : Alike all L t b (s.enterSer p) (s'.enterSer p) := by
  obtain ⟨m, rfl, a⟩ := h
  exact ⟨{ m with serIdx := 0 }, rfl, fun h => ⟨rfl, (a.all h).2⟩, a.L, a.t, a.b⟩

theorem countSer_alike (h : Alike all L t b s s') : Alike all L t b s.countSer s'.countSer := by
  obtain ⟨m, rfl, a⟩ := h
  exact ⟨{ m with serIdx := m.serIdx + 1 }, rfl, fun h => ⟨congrArg (· + 1) (a.all h).1, (a.all h).2⟩, a.L, a.t, a.b⟩

theorem setCt_alike (f : Container → Container) (h : Alike all L t b s s') :
    Alike all L t b { s with ct := f s.ct } { s' with ct := f s'.ct } := by
  obtain ⟨m, rfl, a⟩ := h
  exact ⟨m, rfl, a⟩

theorem Alike.ct (h : Alike all L t b s s') : s'.ct = s.ct := by
  obtain ⟨m, rfl, -⟩ := h; rfl

theorem serWriteBytes_alike (bs : List Byte) (h : Alike all L t b s s') :
    (serWriteBytes bs s).Alike all (Alike all L t b) (serWriteBytes bs s') := by
  induction bs generalizing s s' with
  | nil => exact ⟨rfl, h⟩
  | cons x bs ih =>
    exact Res.alike_andThen ((sinkWrite_blind x).alike (sinkWrite_still x) h) fun _ _ _ h => ih (countSer_alike h)

theorem serDrainLeaves_alike (bs : List Byte) (h : Alike all L t b s s') :
    (serDrainLeaves bs s).Alike all (Alike all L t b) (serDrainLeaves bs s') := by
  induction bs generalizing s s' with
  | nil => exact ⟨rfl, h⟩
  | cons x bs ih =>
    exact Res.alike_andThen ((sinkWrite_blind x).alike (sinkWrite_still x)
      (setCt_alike (fun c => { c with leaves := bs }) h)) fun _ _ _ h => ih (countSer_alike h)

theorem serDrainShape_alike (bs : List Bit) (h : Alike all L t b s s') :
    (serDrainShape bs s).Alike all (Alike all L t b) (serDrainShape bs s') := by
  induction bs generalizing s s' with
  | nil => exact ⟨rfl, h⟩
  | cons x bs ih =>
    exact Res.alike_andThen ((packerPut_blind .serBw x).alike (packerPut_still .serBw x)
      (setCt_alike (fun c => { c with shape := bs }) h)) fun _ _ _ h => ih (countSer_alike h)

theorem serDrainMsg_alike (bs : List Bit) (h : Alike all L t b s s') :
    (serDrainMsg bs s).Alike all (Alike all L t b) (serDrainMsg bs s') := by
  induction bs generalizing s s' with
  | nil => exact ⟨rfl, h⟩
  | cons x bs ih =>
    exact Res.alike_andThen ((packerPut_blind .serBw x).alike (packerPut_still .serBw x)
      (setCt_alike (fun c => { c with msg := bs }) h)) fun _ _ _ h => ih (countSer_alike h)

theorem computeTbc_alike (h : Alike all L t b s s') : Alike all L t b s.computeTbc s'.computeTbc := by
  obtain ⟨m, rfl, a⟩ := h
  exact ⟨{ m with tbcv := s.computeTbc.ser.tbcv }, rfl, fun h => ⟨(a.all h).1, rfl, (a.all h).2.2⟩, a.L, a.t, a.b⟩

theorem serTbc_alike (h : Alike all L t b s s') : (serTbc s).Alike all (Alike all L t b) (serTbc s') := by
  have h1 := computeTbc_alike (enterSer_alike .tbc h)
  have e : (s'.enterSer .tbc).computeTbc.ser.tbcv = (s.enterSer .tbc).computeTbc.ser.tbcv := by
    obtain ⟨m, rfl, -⟩ := h; rfl
  simp only [serTbc, e]
  exact (sinkWrite_blind _).alike (sinkWrite_still _) h1

theorem setPacker_alike (w : PackerId) (p : Packer) (h : Alike all L t b s s') :
    Alike all L t b (s.setPacker w p) (s'.setPacker w p) := by
  obtain ⟨m, rfl, a⟩ := h
  cases w <;> exact ⟨m, rfl, a⟩

theorem serBits_alike (h : Alike all L t b s s') : (serBits s).Alike all (Alike all L t b) (serBits s') := by
  have h1 := setPacker_alike .serBw Packer.opened (enterSer_alike .bits h)
  refine Res.alike_andThen (P := Alike all L t b) ?_ fun _ _ _ h => by rw [h.ct]; exact serDrainMsg_alike _ h
  have e : (packerOpen .serBw (s'.enterSer .bits)).ct.shape = (packerOpen .serBw (s.enterSer .bits)).ct.shape := by
    obtain ⟨m, rfl, -⟩ := h; rfl
  rw [e]
  exact serDrainShape_alike _ h1

theorem serStream_alike (magic : List Byte) (h : Alike all L t b s s') :
    (serStream magic s).Alike all (Alike all L t b) (serStream magic s') :=
  Res.alike_andThen (serWriteBytes_alike _ (enterSer_alike .magic h)) fun _ _ _ h =>
  Res.alike_andThen (P := Alike all L t b)
    (by
      unfold serCount
      rw [h.ct]
      exact (sinkWrite_blind _).alike (sinkWrite_still _) (enterSer_alike .count h)) fun _ _ _ h =>
  Res.alike_andThen (P := Alike all L t b)
    (by unfold serLeaves; rw [h.ct]; exact serDrainLeaves_alike _ (enterSer_alike .leaves h)) fun _ _ _ h =>
  Res.alike_andThen (serTbc_alike h) fun _ _ _ h =>
  Res.alike_andThen (serBits_alike h) fun _ _ _ h =>
  (packerClose_blind .serBw).alike (packerClose_still .serBw) (enterSer_alike .flush h)

/-! ## The deserializer -/

theorem enterDes_alike (p : DesPhase) (h : Alike all L t b s s') : Alike all L t b (s.enterDes p) (s'.enterDes p) := by
  obtain ⟨m, rfl, a⟩ := h
  exact ⟨{ m with desIdx := 0 }, rfl,
    fun h => have := a.all h; ⟨this.1, this.2.1, this.2.2.1, this.2.2.2.1, this.2.2.2.2.1, rfl⟩, a.L, a.t, a.b⟩

theorem countDes_alike (h : Alike all L t b s s') : Alike all L t b s.countDes s'.countDes := by
  obtain ⟨m, rfl, a⟩ := h
  exact ⟨{ m with desIdx := m.desIdx + 1 }, rfl,
    fun h => have := a.all h; ⟨this.1, this.2.1, this.2.2.1, this.2.2.2.1, this.2.2.2.2.1, congrArg (· + 1) this.2.2.2.2.2⟩,
    a.L, a.t, a.b⟩

theorem desByte_alike (c : Cause) (sub : BitVec 2) (h : Alike all L t b s s') :
    (desByte c sub s).Alike all (Alike all L t b) (desByte c sub s') :=
  Res.alike_andThen (sourceRead_blind.alike sourceRead_still h) fun r _ _ h => by
    cases r with
    | none => exact ⟨rfl, rfl, h.weaken False.elim False.elim False.elim⟩
    | some x => exact ⟨rfl, h⟩

theorem desMagicBytes_alike (n : Nat) (h : Alike all L t b s s') :
    (desMagicBytes n s).Alike all (Alike all L t b) (desMagicBytes n s') := by
  induction n generalizing s s' with
  | zero => exact ⟨rfl, h⟩
  | succ n ih =>
    exact Res.alike_andThen (desByte_alike _ _ h) fun x _ _ h =>
      Res.alike_andThen (ih (countDes_alike h)) fun xs _ _ h => ⟨rfl, h⟩

theorem desMagic_alike (magic : List Byte) (h : Alike all L t b s s') :
    (desMagic magic s).Alike all (Alike all L t b) (desMagic magic s') :=
  Res.alike_andThen (desMagicBytes_alike 4 (enterDes_alike .magic h)) fun g _ _ h => by
    by_cases hg : g = magic
    · simp only [if_pos hg]; exact ⟨rfl, h⟩
    · simp only [if_neg hg]; exact ⟨rfl, rfl, h.weaken False.elim False.elim False.elim⟩

theorem setL_alike (l : BitVec 9) (h : Alike all L t b s s') :
    Alike all True t b ({ s with des.L := l } : State) { s' with des.L := l } := by
  obtain ⟨m, rfl, a⟩ := h
  exact ⟨{ m with L := l }, rfl,
    fun h => have := a.all h; ⟨this.1, this.2.1, rfl, this.2.2.2⟩, fun _ => rfl, a.t, a.b⟩

theorem setTbc_alike (r : Byte) (h : Alike all L t b s s') :
    Alike all L True b ({ s with des.tbc := r } : State) { s' with des.tbc := r } := by
  obtain ⟨m, rfl, a⟩ := h
  exact ⟨{ m with tbc := r }, rfl,
    fun h => have := a.all h; ⟨this.1, this.2.1, this.2.2.1, rfl, this.2.2.2.2⟩, a.L, fun _ => rfl, a.b⟩

theorem desCount_alike (h : Alike all L t b s s') : (desCount s).Alike all (Alike all True t b) (desCount s') :=
  Res.alike_andThen (desByte_alike _ _ (enterDes_alike .count h)) fun r _ _ h => by
    have h1 := setL_alike (unbiasedCount r) (countDes_alike h)
    by_cases hl : (unbiasedCount r).toNat < 2
    · simp only [if_pos hl]; exact ⟨rfl, rfl, h1.weaken False.elim False.elim False.elim⟩
    · simp only [if_neg hl]; exact ⟨rfl, h1⟩

theorem desLeafBytes_alike (n : Nat) (h : Alike all L t b s s') :
    (desLeafBytes n s).Alike all (Alike all L t b) (desLeafBytes n s') := by
  induction n generalizing s s' with
  | zero => exact ⟨rfl, h⟩
  | succ n ih =>
    exact Res.alike_andThen (desByte_alike _ _ h) fun x _ _ h =>
      ih (countDes_alike (setCt_alike (fun c => { c with leaves := c.leaves ++ [x] }) h))

theorem Alike.L_eq (h : Alike all True t b s s') : s'.des.L = s.des.L := by
  obtain ⟨m, rfl, a⟩ := h; exact (a.L trivial).symm

theorem Alike.bits_eq (h : Alike all L t True s s') : s'.des.bitsRemaining = s.des.bitsRemaining := by
  obtain ⟨m, rfl, a⟩ := h; exact (a.b trivial).symm

theorem desLeaves_alike (h : Alike all True t b s s') : (desLeaves s).Alike all (Alike all True t b) (desLeaves s') := by
  unfold desLeaves
  rw [h.L_eq]
  exact desLeafBytes_alike _ (enterDes_alike .leaves h)

theorem desTbc_alike (h : Alike all L t b s s') : (desTbc s).Alike all (Alike all L True b) (desTbc s') :=
  Res.alike_andThen (desByte_alike _ _ (enterDes_alike .tbc h)) fun r _ _ h => ⟨rfl, setTbc_alike r (countDes_alike h)⟩

theorem desMeasure_alike (h : Alike all L True b s s') :
    (desMeasure s).Alike all (Alike all L True True) (desMeasure s') := by
  refine ⟨rfl, ?_⟩
  obtain ⟨m, rfl, a⟩ := h
  have e : meaningfulBits s.mem.remaining s.des.tbc = meaningfulBits s.mem.remaining m.tbc := by
    rw [show s.des.tbc = m.tbc from a.t trivial]
  exact ⟨{ m with desIdx := 0, bits := meaningfulBits s.mem.remaining m.tbc }, rfl,
    fun h => have := a.all h; ⟨this.1, this.2.1, this.2.2.1, this.2.2.2.1, e, rfl⟩, a.L, a.t, fun _ => e⟩

theorem takeBit_alike (f : Container → Container) (h : Alike all L t True s s') :
    Alike all L t True ({ s with ct := f s.ct, des.bitsRemaining := s.des.bitsRemaining - 1 } : State)
      { s' with ct := f s'.ct, des.bitsRemaining := s'.des.bitsRemaining - 1 } := by
  obtain ⟨m, rfl, a⟩ := h
  exact ⟨{ m with bits := m.bits - 1 }, rfl,
    fun h => have := a.all h; ⟨this.1, this.2.1, this.2.2.1, this.2.2.2.1, congrArg (· - 1) this.2.2.2.2.1, this.2.2.2.2.2⟩,
    a.L, a.t, fun _ => congrArg (· - 1) (a.b trivial)⟩

theorem desShapeBits_alike (n : Nat) (h : Alike all L t True s s') :
    (desShapeBits n s).Alike all (Alike all L t True) (desShapeBits n s') := by
  induction n generalizing s s' with
  | zero => exact ⟨rfl, h⟩
  | succ n ih =>
    rw [desShapeBits, desShapeBits, h.bits_eq]
    by_cases hb : s.des.bitsRemaining ≤ 0
    · rw [if_pos hb, if_pos hb]; exact ⟨rfl, rfl, h.weaken False.elim False.elim False.elim⟩
    · rw [if_neg hb, if_neg hb]
      exact Res.alike_andThen ((unpackerGet_blind .desBr 1).alike (unpackerGet_still .desBr 1) h) fun x _ _ h =>
        ih (countDes_alike (takeBit_alike (fun c => { c with shape := c.shape ++ [x] }) h))

theorem desMsgBits_alike (n : Nat) (h : Alike all L t True s s') :
    (desMsgBits n s).Alike all (Alike all L t True) (desMsgBits n s') := by
  induction n generalizing s s' with
  | zero => exact ⟨rfl, h⟩
  | succ n ih =>
    exact Res.alike_andThen ((unpackerGet_blind .desBr 2).alike (unpackerGet_still .desBr 2) h) fun x _ _ h =>
      ih (countDes_alike (takeBit_alike (fun c => { c with msg := c.msg ++ [x] }) h))

theorem setUnpacker_alike (u : UnpackerId) (p : Unpacker) (h : Alike all L t b s s') :
    Alike all L t b (s.setUnpacker u p) (s'.setUnpacker u p) := by
  obtain ⟨m, rfl, a⟩ := h
  cases u <;> exact ⟨m, rfl, a⟩

theorem desStream_alike (magic : List Byte) (h : Alike all L t b s s') :
    (desStream magic s).Alike all (Alike all True True True) (desStream magic s') :=
  Res.alike_andThen (desMagic_alike magic h) fun _ _ _ h =>
  Res.alike_andThen (desCount_alike h) fun _ _ _ h =>
  Res.alike_andThen (desLeaves_alike h) fun _ _ _ h =>
  Res.alike_andThen (desTbc_alike h) fun _ _ _ h =>
  Res.alike_andThen (desMeasure_alike h) fun _ _ _ h =>
  Res.alike_andThen (P := Alike all True True True)
    (by
      have e : (unpackerOpen .desBr (State.enterDes _ .shape)).des.L = (unpackerOpen .desBr (State.enterDes _ .shape)).des.L :=
        h.L_eq
      unfold desShape
      dsimp only
      rw [e]
      exact desShapeBits_alike _ (setUnpacker_alike .desBr Unpacker.opened (enterDes_alike .shape h))) fun _ _ _ h => by
  have e := (enterDes_alike .msg h).bits_eq
  unfold desMsg
  dsimp only
  rw [e]
  exact desMsgBits_alike _ (enterDes_alike .msg h)

/-! ## Whole commands -/

theorem alike_false {α : Type} {P : State → State → Prop} {r r' : Res α}
    (hP : ∀ s s', P s s' → Alike all False False False s s') (h : r.Alike all P r') :
    r.Alike all (Alike all False False False) r' := by
  cases r <;> cases r'
  · exact ⟨h.1, hP _ _ h.2⟩
  · cases h
  · cases h
  · exact h

/-- Every command's body, from states alike, ends alike. -/
theorem body_alike (i : Instr) (h : Alike all False False False s s') :
    (bodyOf i s).Alike all (Alike all False False False) (bodyOf i s') := by
  cases i with
  | sysReset =>
    obtain ⟨m, rfl, -⟩ := h
    exact ⟨rfl, { s.resetState.loose with resp := m.resp }, rfl, fun _ => ⟨rfl, rfl, rfl, rfl, rfl, rfl⟩, False.elim, False.elim,
      False.elim⟩
  | bitNew v =>
    simp only [bodyOf, bitNew]
    cases admission v
    · exact ⟨rfl, h⟩
    · exact ⟨rfl, rfl, h⟩
  | bitEq x y => exact ⟨rfl, h⟩
  | bitNe x y => exact ⟨rfl, h⟩
  | bitShow x => exact ⟨rfl, h⟩
  | bwOpen => exact ⟨rfl, setPacker_alike .bw _ h⟩
  | bwPut x =>
    exact Res.alike_andThen ((packerPut_blind .bw x).alike (packerPut_still .bw x) h) fun _ _ _ h => ⟨rfl, h⟩
  | bwClose =>
    exact Res.alike_andThen ((packerClose_blind .bw).alike (packerClose_still .bw) h) fun _ _ _ h => ⟨rfl, h⟩
  | brOpen => exact ⟨rfl, setUnpacker_alike .br _ h⟩
  | brGet =>
    exact Res.alike_andThen ((unpackerGet_blind .br 0).alike (unpackerGet_still .br 0) h) fun _ _ _ h => ⟨rfl, h⟩
  | serWrite =>
    simp only [bodyOf, serWrite]
    have hs := serStream_alike Config.magicBytes (enterSer_alike .check h)
    rcases serCheck_cases s with ⟨h1, e⟩ | ⟨h1, h2, e⟩ | ⟨h1, e⟩ <;>
      rcases serCheck_cases s' with ⟨h1', e'⟩ | ⟨h1', h2', e'⟩ | ⟨h1', e'⟩ <;>
      rw [h.ct] at h1' <;> (try rw [h.ct] at h2') <;> (try rw [containerValid_iff] at h1) <;>
      (try rw [containerValid_iff] at h1') <;> (try rw [shapeLength] at h2) <;> (try rw [shapeLength] at h2') <;>
      (try (exfalso; omega)) <;> rw [e, e']
    · exact ⟨rfl, rfl, h⟩
    · exact ⟨rfl, rfl, h⟩
    · dsimp only
      cases hr : serStream Config.magicBytes (s.enterSer .check) <;>
        cases hr' : serStream Config.magicBytes (s'.enterSer .check) <;> rw [hr, hr'] at hs
      · obtain ⟨-, m, rfl, a⟩ := hs
        exact ⟨rfl, { m with serIdx := _, tbcv := _ }, rfl, fun h => ⟨rfl, rfl, (a.all h).2.2⟩, False.elim, False.elim,
          False.elim⟩
      · cases hs
      · cases hs
      · obtain ⟨rfl, rfl, m, rfl, a⟩ := hs
        exact ⟨rfl, rfl, { m with serIdx := _, tbcv := _ }, rfl, fun h => ⟨rfl, rfl, (a.all h).2.2⟩, False.elim, False.elim,
          False.elim⟩
  | desRead =>
    simp only [bodyOf, desRead]
    have hs := desStream_alike Config.magicBytes (setCt_alike (fun _ => Container.empty) h)
    have hp : s'.mem = s.mem := by obtain ⟨m, rfl, -⟩ := h; rfl
    rw [hp]
    change (desStream Config.magicBytes s.clearCt).Alike all _ (desStream Config.magicBytes s'.clearCt) at hs
    cases hr : desStream Config.magicBytes s.clearCt <;> cases hr' : desStream Config.magicBytes s'.clearCt <;>
      rw [hr, hr'] at hs
    · rename_i u _ _
      obtain ⟨-, m, rfl, a⟩ := hs
      exact ⟨rfl, { u.endDes.loose with serIdx := m.serIdx, tbcv := m.tbcv, resp := m.resp }, rfl,
        fun h => ⟨(a.all h).1, (a.all h).2.1, rfl, rfl, rfl, rfl⟩, False.elim, False.elim, False.elim⟩
    · cases hs
    · cases hs
    · rename_i c sub u _ _ _
      obtain ⟨rfl, rfl, m, rfl, a⟩ := hs
      exact ⟨rfl, rfl, { (u.abandonDes c s.mem.srcPos).loose with serIdx := m.serIdx, tbcv := m.tbcv, resp := m.resp }, rfl,
        fun h => ⟨(a.all h).1, (a.all h).2.1, rfl, rfl, rfl, rfl⟩, False.elim, False.elim, False.elim⟩

/-- A guarded command from states alike. -/
theorem run_alike {all : Prop} {f : State → Res Result} {s s' : State} (hs : s'.err = s.err) (h : s.err.code ≠ 0 → Alike all False False False s s')
    (hf : s.err.code = 0 → (f s).Alike all (Alike all False False False) (f s')) :
    ∃ t t', runCommand f s = .next t ∧ runCommand f s' = .next t' ∧ Alike all False False False t t' ∧ t'.resp = t.resp := by
  by_cases h0 : s.err.code = 0
  · have h0' : s'.err.code = 0 := by rw [hs]; exact h0
    have hf := hf h0
    cases e : f s <;> cases e' : f s' <;> rw [e, e'] at hf
    · rename_i r t r' t'
      rw [runCommand_ok h0 e, runCommand_ok h0' e']
      obtain ⟨rfl, m, rfl, a⟩ := hf
      exact ⟨_, _, rfl, rfl, ⟨{ m with resp := .ok r }, rfl, a.all, a.L, a.t, a.b⟩, rfl⟩
    · cases hf
    · cases hf
    · rename_i c sub t _ _ t'
      rw [runCommand_raised h0 e, runCommand_raised h0' e']
      obtain ⟨rfl, rfl, m, rfl, a⟩ := hf
      exact ⟨_, _, rfl, rfl, ⟨{ m with resp := .fault c sub }, rfl, a.all, a.L, a.t, a.b⟩, rfl⟩
  · have h0' : s'.err.code ≠ 0 := by rw [hs]; exact h0
    rw [runCommand_latched _ h0, runCommand_latched _ h0']
    obtain ⟨m, rfl, a⟩ := h h0
    exact ⟨_, _, rfl, rfl, ⟨{ m with resp := .refused }, rfl, a.all, a.L, a.t, a.b⟩, rfl⟩

/-- Every command, from states alike: the model refuses both, or both end alike with the same response. -/
theorem exec_alike {all : Prop} {s s' : State} (i : Instr) (h : Alike all False False False s s') :
    (exec i s = .refused .leavesOverCapacity ∧ exec i s' = .refused .leavesOverCapacity) ∨
    ∃ t t', exec i s = .next t ∧ exec i s' = .next t' ∧ Alike all False False False t t' ∧ t'.resp = t.resp := by
  have he : s'.err = s.err := by obtain ⟨m, rfl, -⟩ := h; rfl
  have hc : s'.ct = s.ct := h.ct
  by_cases hi : i = .sysReset
  · subst hi
    obtain ⟨m, rfl, -⟩ := h
    exact .inr ⟨_, _, rfl, rfl, ⟨{ s.resetState.loose with resp := .ok .nothing }, rfl,
      fun _ => ⟨rfl, rfl, rfl, rfl, rfl, rfl⟩, False.elim, False.elim, False.elim⟩, rfl⟩
  by_cases hf : i = .serWrite → s.err.code = 0 → s.ct.fits = true
  · right
    rw [exec_eq_run hi hf, exec_eq_run hi (by rw [he, hc]; exact hf)]
    exact run_alike he (fun _ => h) fun _ => body_alike i h
  · left
    have : i = .serWrite ∧ s.err.code = 0 ∧ s.ct.fits = false := by
      by_cases h1 : i = .serWrite <;> by_cases h2 : s.err.code = 0 <;> cases h3 : s.ct.fits <;> simp_all
    obtain ⟨rfl, h1, h2⟩ := this
    exact ⟨exec_serWrite_over h1 h2, exec_serWrite_over (by rw [he]; exact h1) (by rw [hc]; exact h2)⟩

end Sys2Proof.Machine
end

