-- ==== Sys2Proof/Laws/Invariant.lean ====
section
/-! SUPPORT. The pieces of the state's invariant, each kept by the operations that could break it: an unpacker's position (R15), a
packer's clean accumulator (R13), the 256 leaves of CT (R17), the latch's codes (R140, R141). -/

namespace Sys2Proof.Machine

theorem loseUnpacker_inRange (s : State) (u : UnpackerId) : ((s.loseUnpacker u).unpacker u).InRange := by
  have := (Config.anyPos s.free).isLt
  cases u <;> (show (BitVec.ofNat 4 _).toNat ≤ 8; rw [BitVec.toNat_ofNat]; omega)

theorem unpackerGet_inRange (u : UnpackerId) (sub : BitVec 2) (s : State) (h : (s.unpacker u).InRange) :
    ((unpackerGet u sub s).state.unpacker u).InRange := by
  have h : (s.unpacker u).pos.toNat ≤ 8 := h
  rcases unpackerGet_cases u sub s with ⟨h8, e⟩ | ⟨-, -, e⟩ | ⟨b, -, -, -, e⟩ | ⟨b, -, -, -, e⟩ <;> rw [e]
  · have : (s.unpacker u).pos.toNat ≠ 8 := fun h' => h8 (BitVec.eq_of_toNat_eq h')
    cases u <;>
    · show (_ + 1 : BitVec 4).toNat ≤ 8
      rw [BitVec.toNat_add, show (1 : BitVec 4).toNat = 1 from rfl]
      omega
  · exact h
  · cases u <;> (show (0 + 1 : BitVec 4).toNat ≤ 8; decide)
  · exact loseUnpacker_inRange _ u

/-- The position of the deserializer's unpacker is 0 to 8 (R15). -/
def DesInRange (s : State) : Prop := s.des.br.InRange

theorem desByte_inRange (c sub s) : DesInRange s → DesInRange (desByte c sub s).state := by
  intro h
  refine Res.keeps_andThen (R := DesInRange) ?_ fun r t h => by cases r <;> exact h
  rcases sourceRead_cases s with ⟨-, e⟩ | ⟨b, -, -, e⟩ | ⟨b, -, -, e⟩ <;> rw [e] <;> exact h

theorem desMagicBytes_inRange (n s) : DesInRange s → DesInRange (desMagicBytes n s).state := by
  intro h
  induction n generalizing s with
  | zero => exact h
  | succ n ih =>
    exact Res.keeps_andThen (R := DesInRange) (desByte_inRange _ _ s h) fun b t h =>
      Res.keeps_andThen (R := DesInRange) (ih _ h) fun _ _ h => h

theorem desLeafBytes_inRange (n s) : DesInRange s → DesInRange (desLeafBytes n s).state := by
  intro h
  induction n generalizing s with
  | zero => exact h
  | succ n ih => exact Res.keeps_andThen (R := DesInRange) (desByte_inRange _ _ s h) fun b t h => ih _ h

theorem desShapeBits_inRange (n s) : DesInRange s → DesInRange (desShapeBits n s).state := by
  intro h
  induction n generalizing s with
  | zero => exact h
  | succ n ih =>
    rw [desShapeBits]
    split
    · exact h
    · exact Res.keeps_andThen (R := DesInRange) (unpackerGet_inRange .desBr 1 s h) fun b t h => ih _ h

theorem desMsgBits_inRange (n s) : DesInRange s → DesInRange (desMsgBits n s).state := by
  intro h
  induction n generalizing s with
  | zero => exact h
  | succ n ih => exact Res.keeps_andThen (R := DesInRange) (unpackerGet_inRange .desBr 2 s h) fun b t h => ih _ h

theorem desStream_inRange (magic s) : DesInRange s → DesInRange (desStream magic s).state := by
  intro h
  refine Res.keeps_andThen (R := DesInRange) (Res.keeps_andThen (R := DesInRange) (desMagicBytes_inRange 4 _ h) fun g t h => ?_) fun _ s1 h => 
    Res.keeps_andThen (R := DesInRange) (Res.keeps_andThen (R := DesInRange) (desByte_inRange _ _ _ h) fun g t h => ?_) fun _ s1 h => 
    Res.keeps_andThen (R := DesInRange) (desLeafBytes_inRange _ _ h) fun _ s1 h => 
    Res.keeps_andThen (R := DesInRange) (Res.keeps_andThen (R := DesInRange) (desByte_inRange _ _ _ h) fun g t h => h) fun _ s1 h => 
    Res.keeps_andThen (R := DesInRange) h fun _ s1 h => 
    Res.keeps_andThen (R := DesInRange) (desShapeBits_inRange _ _ (by show (8 : BitVec 4).toNat ≤ 8; decide)) fun _ s1 h => desMsgBits_inRange _ _ h
  · split <;> exact h
  · dsimp only; split <;> exact h

theorem sourceRead_ct (s) : (sourceRead s).state.ct = s.ct ∧ (sourceRead s).state.des = s.des := by
  rcases sourceRead_cases s with ⟨-, e⟩ | ⟨b, -, -, e⟩ | ⟨b, -, -, e⟩ <;> rw [e] <;> exact ⟨rfl, rfl⟩

/-- CT holds at most k leaves. -/
def LeavesLe (k : Nat) (s : State) : Prop := s.ct.leaves.length ≤ k

theorem desByte_leaves (k c sub s) (h : LeavesLe k s) : LeavesLe k (desByte c sub s).state := by
  refine Res.keeps_andThen (R := LeavesLe k) ?_ fun r t h => by cases r <;> exact h
  rw [LeavesLe, (sourceRead_ct s).1]; exact h

theorem desMagicBytes_leaves (k n s) : LeavesLe k s → LeavesLe k (desMagicBytes n s).state := by
  intro h
  induction n generalizing s with
  | zero => exact h
  | succ n ih =>
    exact Res.keeps_andThen (R := LeavesLe k) (desByte_leaves _ _ _ s h) fun b t h =>
      Res.keeps_andThen (R := LeavesLe k) (ih _ h) fun _ _ h => h
theorem desLeafBytes_leaves (k n s) (h : s.ct.leaves.length + n ≤ k) : LeavesLe k (desLeafBytes n s).state := by
  induction n generalizing s with
  | zero => exact h
  | succ n ih =>
    have h0 : LeavesLe (k - (n+1)) s := by show _ ≤ _; omega
    have hb := desByte_leaves _ .truncatedLeafTable 0 s h0
    rw [desLeafBytes]
    cases e : desByte .truncatedLeafTable 0 s with
    | ok a t =>
      rw [e] at hb
      have hb : t.ct.leaves.length ≤ k - (n+1) := hb
      refine ih _ ?_
      show (t.ct.leaves ++ [a]).length + n ≤ k
      rw [List.length_append, List.length_singleton]; omega
    | raised c sub t =>
      rw [e] at hb
      show t.ct.leaves.length ≤ k
      have hb : t.ct.leaves.length ≤ k - (n+1) := hb
      omega
theorem desGet_ct (sub s) : (unpackerGet .desBr sub s).state.ct = s.ct := by
  rcases unpackerGet_cases .desBr sub s with ⟨h8, e⟩ | ⟨-, -, e⟩ | ⟨b, -, -, -, e⟩ | ⟨b, -, -, -, e⟩ <;> rw [e] <;> rfl
theorem desShapeBits_leaves (k n s) : LeavesLe k s → LeavesLe k (desShapeBits n s).state := by
  intro h
  induction n generalizing s with
  | zero => exact h
  | succ n ih =>
    rw [desShapeBits]
    split
    · exact h
    · exact Res.keeps_andThen (R := LeavesLe k) (by rw [LeavesLe, desGet_ct]; exact h) fun b t h => ih _ h
theorem desMsgBits_leaves (k n s) : LeavesLe k s → LeavesLe k (desMsgBits n s).state := by
  intro h
  induction n generalizing s with
  | zero => exact h
  | succ n ih => exact Res.keeps_andThen (R := LeavesLe k) (by rw [LeavesLe, desGet_ct]; exact h) fun b t h => ih _ h

theorem desStream_leaves (magic s) (h : s.ct = Container.empty) : LeavesLe 256 (desStream magic s).state := by
  have h0 : LeavesLe 0 s := by rw [LeavesLe, h]; exact Nat.le_refl _
  have m1 : LeavesLe 0 (desMagic magic s).state :=
    Res.keeps_andThen (R := LeavesLe 0) (desMagicBytes_leaves _ 4 _ h0) fun g t h => by split <;> exact h
  rw [desStream]
  cases e1 : desMagic magic s with
  | raised c sub t => rw [e1] at m1; exact Nat.le_trans m1 (by omega)
  | ok a s1 =>
  rw [e1] at m1
  have m1 : LeavesLe 0 s1 := m1
  have m2 : LeavesLe 0 (desCount s1).state :=
    Res.keeps_andThen (R := LeavesLe 0) (desByte_leaves _ _ _ _ m1) fun g t h => by dsimp only; split <;> exact h
  have l2 : ∀ a t, desCount s1 = .ok a t → t.des.L.toNat ≤ 256 := by
    intro a t e
    obtain ⟨r, u, -, e⟩ := Res.andThen_eq_ok e
    dsimp only at e
    split at e <;> cases e
    show (unbiasedCount r).toNat ≤ 256
    rw [toNat_unbiasedCount]; have := r.isLt; omega
  rw [andThen_ok]
  cases e2 : desCount s1 with
  | raised c sub t => rw [e2] at m2; exact Nat.le_trans m2 (by omega)
  | ok a s2 =>
  have l2 := l2 _ _ e2
  rw [e2] at m2
  have m2 : LeavesLe 0 s2 := m2
  rw [andThen_ok]
  have m3 : LeavesLe 256 (desLeaves s2).state := desLeafBytes_leaves 256 _ _ (by
    show s2.ct.leaves.length + s2.des.L.toNat ≤ 256
    have : s2.ct.leaves.length ≤ 0 := m2
    omega)
  refine Res.keeps_andThen (R := LeavesLe 256) m3 fun _ s3 m3 =>
    Res.keeps_andThen (R := LeavesLe 256) (Res.keeps_andThen (R := LeavesLe 256) (desByte_leaves _ _ _ _ m3) fun g t h => h) fun _ s1 h => 
    Res.keeps_andThen (R := LeavesLe 256) h fun _ s1 h => 
    Res.keeps_andThen (R := LeavesLe 256) (desShapeBits_leaves _ _ _ h) fun _ s1 h => desMsgBits_leaves _ _ _ h

theorem legal_of_mem_subs (c : Cause) (sub : BitVec 2) (h : sub ∈ c.subs) : (ErrLatch.mk c.code sub).legal = true := by
  revert sub; cases c <;> decide

theorem put_clean (p : Packer) (b : Bit) (h : p.Clean) (hc : p.cnt ≠ 7) : ({ acc := p.with b, cnt := p.cnt + 1 } : Packer).Clean := by
  obtain ⟨acc, cnt⟩ := p
  have key : ∀ (n : Fin 8) (b : Bit) (acc : BitVec 8), acc >>> n.val = 0 → n.val ≠ 7 → (acc ||| bitAt b n.val) >>> (n.val + 1) = 0 := by
    intro n b acc h hn
    have hlt : acc.toNat < 2 ^ n.val := by
      have := congrArg BitVec.toNat h
      rw [BitVec.toNat_ushiftRight, Nat.shiftRight_eq_div_pow] at this
      simp at this
      exact this
    apply BitVec.eq_of_toNat_eq
    rw [BitVec.toNat_ushiftRight, Nat.shiftRight_eq_div_pow, BitVec.toNat_or]
    have hb : (bitAt b n.val).toNat < 2 ^ (n.val + 1) := by
      have : ∀ (n : Fin 8) (b : Bit), (bitAt b n.val).toNat < 2 ^ (n.val + 1) := by decide
      exact this n b
    have := Nat.or_lt_two_pow (Nat.lt_trans hlt (Nat.pow_lt_pow_right (by omega) (Nat.lt_succ_self _))) hb
    simp
    exact this
  have hlt := cnt.isLt
  have h1 := key ⟨cnt.toNat, hlt⟩ b acc h (fun h' => hc (BitVec.eq_of_toNat_eq h'))
  have hn : cnt.toNat ≠ 7 := fun h' => hc (BitVec.eq_of_toNat_eq h')
  show (_ : Byte) >>> (cnt + 1).toNat = 0
  have e : (cnt + 1).toNat = cnt.toNat + 1 := by
    rw [BitVec.toNat_add, show (1 : BitVec 3).toNat = 1 from rfl]; omega
  rw [e]; exact h1

theorem opened_clean : Packer.opened.Clean := by decide

theorem loseContainer_fits (s : State) : (s.loseContainer).ct.fits = true := by
  rw [fits_iff]
  show ((Config.anyLeaves s.free).take 256).length ≤ 256
  rw [List.length_take]; omega

end Sys2Proof.Machine
end

