-- ==== Sys2Proof/Laws/PerInstr.lean ====
section
/-! SUPPORT. One family of lemmas over all commands: the encoder stays inside the assigned codes, one lemma per constructor. -/

namespace Sys2Proof.Laws.Encoding

/-- A command is well formed, its port carries an assigned code (R62), and the operand inputs it does not use are driven to 0
(log 26): only BIT.NEW uses `opv`, only BIT.EQ and BIT.NE use `opb` (R61). -/
def Statement (i : Instr) : Prop :=
  i.wellFormed = true ∧ (encode i).wellFormed = true ∧
  ((∀ v, i ≠ .bitNew v) → (encode i).opv = 0) ∧
  ((∀ a b, i ≠ .bitEq a b ∧ i ≠ .bitNe a b) → (encode i).opb = 0)

/-- A command whose port has a closed code and closed unused operands. -/
theorem of_port {i : Instr} (hw : i.wellFormed = true) (hc : assignedCodes.contains (encode i).cmd = true)
    (hv : (∀ v, i ≠ .bitNew v) → (encode i).opv = 0)
    (hb : (∀ a b, i ≠ .bitEq a b ∧ i ≠ .bitNe a b) → (encode i).opb = 0) : Statement i := ⟨hw, hc, hv, hb⟩

theorem sysReset : Statement .sysReset := of_port rfl (by decide) (fun _ => rfl) (fun _ => rfl)
theorem bitNew (v : Int) : Statement (.bitNew v) :=
  of_port rfl (by simp only [encode]; decide) (fun h => absurd rfl (h v)) (fun _ => rfl)
theorem bitEq (a b : Bit) : Statement (.bitEq a b) :=
  of_port rfl (by simp only [encode]; decide) (fun _ => rfl) (fun h => absurd rfl (h a b).1)
theorem bitNe (a b : Bit) : Statement (.bitNe a b) :=
  of_port rfl (by simp only [encode]; decide) (fun _ => rfl) (fun h => absurd rfl (h a b).2)
theorem bitShow (a : Bit) : Statement (.bitShow a) :=
  of_port rfl (by simp only [encode]; decide) (fun _ => rfl) (fun _ => rfl)
theorem bwOpen : Statement .bwOpen := of_port rfl (by decide) (fun _ => rfl) (fun _ => rfl)
theorem bwPut (a : Bit) : Statement (.bwPut a) :=
  of_port rfl (by simp only [encode]; decide) (fun _ => rfl) (fun _ => rfl)
theorem bwClose : Statement .bwClose := of_port rfl (by decide) (fun _ => rfl) (fun _ => rfl)
theorem brOpen : Statement .brOpen := of_port rfl (by decide) (fun _ => rfl) (fun _ => rfl)
theorem brGet : Statement .brGet := of_port rfl (by decide) (fun _ => rfl) (fun _ => rfl)
theorem serWrite : Statement .serWrite := of_port rfl (by decide) (fun _ => rfl) (fun _ => rfl)
theorem desRead : Statement .desRead := of_port rfl (by decide) (fun _ => rfl) (fun _ => rfl)

end Sys2Proof.Laws.Encoding
end

