-- ==== Sys2Proof/Laws/Runs.lean ====
section
/-! SUPPORT. Short runs of commands: puts through the standalone packer, gets through the standalone unpacker. -/

namespace Sys2Proof.Machine

theorem execAll_append (xs ys : List Instr) (s t : State) (h : execAll xs s = .next t) : execAll (xs ++ ys) s = execAll ys t := by
  induction xs generalizing s with
  | nil => cases h; rfl
  | cons i is ih =>
    rw [execAll] at h
    rw [List.cons_append, execAll]
    cases e : exec i s with
    | next u => rw [e] at h; exact ih u h
    | fault r => rw [e] at h; cases h
    | refused r => rw [e] at h; cases h

theorem writeAnswer_of_never {s : State} (h : s.SinkNeverFails) : s.writeAnswer = .accepted := by
  unfold State.writeAnswer
  cases hl : s.snkAns with
  | nil => rfl
  | cons a l => exact h a (by simp [hl])

theorem exec_bwPut_never (s : State) (b : Bit) (hs : s.err.code = 0) (hn : s.SinkNeverFails) :
    exec (.bwPut b) s = .next { s with
      bw := (feed s.bw [b]).2, mem.snk := s.mem.snk ++ (feed s.bw [b]).1, snkAns := s.snkAns.drop (feed s.bw [b]).1.length, resp := .ok .nothing } := by
  rcases packerPut_cases .bw b s with ⟨h, e⟩ | ⟨h, -, e⟩ | ⟨-, h, e⟩
  · rw [exec_bwPut_ok hs e, feed_room (show s.bw.cnt ≠ 7 from h)]
    simp [feed, State.respond, State.setPacker, State.packer]
  · rw [exec_bwPut_ok hs e, feed_full (show s.bw.cnt = 7 from h)]
    simp [feed, State.respond, State.setPacker, State.packer, State.acceptByte, Memory.append]
  · rw [writeAnswer_of_never hn] at h; cases h

theorem execAll_puts (bits : List Bit) (s : State) (hs : s.err.code = 0) (hn : s.SinkNeverFails) (hr : s.resp = .ok .nothing) :
    execAll (bits.map .bwPut) s = .next { s with
      bw := (feed s.bw bits).2, mem.snk := s.mem.snk ++ (feed s.bw bits).1, snkAns := s.snkAns.drop (feed s.bw bits).1.length } := by
  induction bits generalizing s with
  | nil => simp [execAll, feed]
  | cons b bits ih =>
    rw [List.map_cons, execAll, exec_bwPut_never s b hs hn]
    dsimp only
    have ih' := ih { s with
      bw := (feed s.bw [b]).2, mem.snk := s.mem.snk ++ (feed s.bw [b]).1, snkAns := s.snkAns.drop (feed s.bw [b]).1.length, resp := .ok .nothing } hs (fun a ha => hn a (List.mem_of_mem_drop ha)) rfl
    refine ih'.trans ?_
    have := feed_append s.bw [b] bits
    rw [List.singleton_append] at this
    rw [this]
    simp [hr]

theorem getBits_reads (n : Nat) (s : State) (region : List Byte) (k : Nat) (hs : s.err.code = 0) (hn : s.SourceNeverFails)
    (hu : s.br = unpackerAt region k) (hr : s.mem.unread = region.drop ((k + 7) / 8)) (hk : k + n ≤ 8 * region.length) :
    ∃ t, getBits n s = some (bitsFrom region k n, t) ∧ t.br = unpackerAt region (k + n) ∧ t.mem.unread = region.drop ((k + n + 7) / 8) ∧
      t.mem.srcPos = s.mem.srcPos + ((k + n + 7) / 8 - (k + 7) / 8) ∧ t.err = s.err := by
  induction n generalizing s k with
  | zero => exact ⟨s, rfl, hu, hr, by simp, rfl⟩
  | succ n ih =>
    have h1 := get_reads .br 0 s region k hu hr (by omega)
    have hh := exec_brGet_ok hs (h1.ok_never hn)
    obtain ⟨t, e1, e2, e3, e4, e5⟩ := ih (((s.afterReads ((k + 8) / 8 - (k + 7) / 8)).setUnpacker .br (unpackerAt region (k + 1))).respond (.ok (.bit (bitAtIndex region k)))) (k + 1) hs (h1.never hn) rfl
      (h1.unread.trans (by rw [hr, List.drop_drop]; congr 1; omega)) (by omega)
    refine ⟨t, ?_, ?_, ?_, ?_, e5⟩
    · rw [getBits, hh]
      simp only [respond_resp]
      rw [e1]; rfl
    · rw [e2]; congr 1; omega
    · rw [e3]; congr 2; omega
    · rw [e4]
      show s.mem.srcPos + _ + _ = _
      omega

end Sys2Proof.Machine
end

