-- ==== Sys2Proof/Tests/Slice0.lean ====
section
/-! SUPPORT. The model's own tests. Every expected value comes from the spec: the vector or rule is named at the test. The
vectors of 95_test_vectors.md use the test-only magic A5 5A C3 3C, so a container test runs `serWrite` and `desRead` with it.
At the end, for each statement with hypotheses, a state and operands that meet them. -/

namespace Sys2Proof.Tests

open Sys2Proof.Machine

/-! ## Small states -/

/-- The four magic bytes of the spec's vectors (95_test_vectors.md, section 0). -/
def testMagic : List Byte := [0xA5, 0x5A, 0xC3, 0x3C]

/-- The container of the spec's example X1. -/
def example1 : Container := { shape := [1, 0, 0], leaves := [0x41, 0x42], msg := [1, 0, 1, 1, 0] }

/-- A state with a packer in it. -/
def withBw (acc : Byte) (cnt : BitVec 3) : State := { State.reset with bw := ⟨acc, cnt⟩ }

/-- A state with a source in it. -/
def withSrc (bytes : List Byte) : State := { State.reset with mem.src := bytes }

/-- A state with a container in it. -/
def withCt (c : Container) : State := { State.reset with ct := c }

/-- A container of n leaves, all 0, and n + n − 1 shape bits. -/
def leavesOf (n : Nat) : Container :=
  { shape := List.replicate (2 * n - 1) 0, leaves := List.replicate n 0, msg := [] }

/-- A state in which a fault is latched. -/
def latched : State := { State.reset with err := ⟨8, 0⟩, bw := ⟨0x05, 3⟩, ct := example1 }

/-- What a test looks at of an outcome: something of the next state. -/
def look {α : Type} (o : Host.Outcome State Fault Refusal) (f : State → α) : Option α :=
  match o with
  | .next s => some (f s)
  | .fault _ => none
  | .refused _ => none

/-- The outcome is a refusal with this reason. -/
def refusedWith (o : Host.Outcome State Fault Refusal) (r : Refusal) : Bool :=
  match o with
  | .refused q => decide (q = r)
  | _ => false

/-! ## Well-formedness: each check refuses an ill-formed term -/

/-- R63: 0x01 is reserved. -/
theorem test_wellFormed_reserved_code : (portOfCode 0x01).wellFormed = false ∧ decode (portOfCode 0x01) = .reserved 0x01 := by
  decide

/-- R17: 257 leaves do not fit, 256 do. -/
theorem test_wellFormed_container : (leavesOf 257).fits = false ∧ (leavesOf 256).fits = true := by
  set_option maxRecDepth 4000 in decide

/-- R38: the host cannot load such a container. -/
theorem test_wellFormed_load :
    (HostAction.loadCT (leavesOf 257)).wellFormed = false ∧
    refusedWith (step { State.reset with host := [.loadCT (leavesOf 257)] }) .leavesOverCapacity = true := by
  set_option maxRecDepth 4000 in decide

/-! ## Decoding: words written bit by bit from R61 and R62 -/

theorem test_decode_sys_reset : decodeTableWord 8 0b00000000 = some .sysReset := by decide
theorem test_decode_bit_new : decode ⟨0b00010000, -7, 0, 0⟩ = .instr (.bitNew (-7)) := by decide
theorem test_decode_bit_eq : decode ⟨0b00010001, 9, 1, 0⟩ = .instr (.bitEq 1 0) := by decide
theorem test_decode_bit_ne : decode ⟨0b00010010, 9, 0, 1⟩ = .instr (.bitNe 0 1) := by decide
theorem test_decode_bit_show : decode ⟨0b00010011, 9, 1, 1⟩ = .instr (.bitShow 1) := by decide
theorem test_decode_bw_open : decodeTableWord 8 0b00100000 = some .bwOpen := by decide
theorem test_decode_bw_put : decode ⟨0b00100001, 9, 1, 0⟩ = .instr (.bwPut 1) := by decide
theorem test_decode_bw_close : decodeTableWord 8 0b00100010 = some .bwClose := by decide
theorem test_decode_br_open : decodeTableWord 8 0b00110000 = some .brOpen := by decide
theorem test_decode_br_get : decodeTableWord 8 0b00110001 = some .brGet := by decide
theorem test_decode_ser_write : decodeTableWord 8 0b01000000 = some .serWrite := by decide
theorem test_decode_des_read : decodeTableWord 8 0b01010000 = some .desRead := by decide

/-- V-E6, and two widths that are no command of the table. -/
theorem test_decode_reserved :
    (∀ n ∈ [0x14, 0x23, 0x32, 0x41, 0x51, 0x60, 0xFF, 0x7A], decodeTableWord 8 n = none) ∧
    decodeTableWord 16 0x20 = none ∧ decodeTableWord 8 0x120 = none := by decide

/-- The code the encoder gives has the unit in its high four bits (R61). -/
theorem test_encode_bw_put : encode (.bwPut 1) = ⟨0x21, 0, 1, 0⟩ := by decide

/-! ## The step -/

/-- A table word placed with `withFetchWord` runs in the next step, and the host's list is as before. -/
theorem test_step_runs_the_fetch_word :
    look (step (State.reset.withFetchWord 8 0x13)) (fun t => (t.resp, t.host)) = some (.ok (.char '0'), []) := by decide

/-- V-E5: a reserved code is refused and latches nothing. -/
theorem test_step_reserved :
    look (step ((withBw 0x05 3).withFetchWord 8 0x01)) (fun t => (t.resp, t.err, t.bw)) = some (.refused, ⟨0, 0⟩, ⟨0x05, 3⟩) := by
  decide

/-- R38: a load replaces CT, also while a fault is latched (the model's reading: log 25). -/
theorem test_step_load :
    look (step { latched with host := [.loadCT (leavesOf 2)] }) (fun t => (t.ct, t.err)) = some (leavesOf 2, ⟨8, 0⟩) := by decide

/-! ## SYS and BIT -/

/-- V-E4. -/
theorem test_sys_reset :
    look (exec .sysReset latched) (fun t => (t.err, t.bw, t.ct, t.resp)) = some (⟨0, 0⟩, ⟨0, 0⟩, ⟨[], [], []⟩, .ok .nothing) := by
  decide

/-- V-B2, V-B3, V-B4, V-B5, V-B6. -/
theorem test_bit_new :
    [1, 2, 48, 49, -1].map (fun v => look (exec (.bitNew v) State.reset) (fun t => t.resp)) =
      [some (.ok (.bit 1)), some (.fault .invalidBitValue 0), some (.fault .characterConfusion 0),
        some (.fault .characterConfusion 0), some (.fault .invalidBitValue 0)] := by decide

/-- V-B9, V-B10, V-B11: the whole operand is compared. -/
theorem test_bit_new_whole_operand :
    ∀ v ∈ [47, 50, 256, 257, 304], look (exec (.bitNew v) State.reset) (fun t => t.err) = some ⟨1, 0⟩ := by decide

/-- V-B13. -/
theorem test_bit_eq :
    [(0, 0), (0, 1), (1, 0), (1, 1)].map (fun p => look (exec (.bitEq p.1 p.2) State.reset) (fun t => t.resp)) =
      [some (.ok (.bit 1)), some (.ok (.bit 0)), some (.ok (.bit 0)), some (.ok (.bit 1))] := by decide

/-- V-B14. -/
theorem test_bit_ne :
    [(0, 0), (0, 1), (1, 0), (1, 1)].map (fun p => look (exec (.bitNe p.1 p.2) State.reset) (fun t => t.resp)) =
      [some (.ok (.bit 0)), some (.ok (.bit 1)), some (.ok (.bit 1)), some (.ok (.bit 0))] := by decide

/-- V-B15, V-B16. -/
theorem test_bit_show :
    look (exec (.bitShow 0) State.reset) (fun t => t.resp) = some (.ok (.char '0')) ∧
    look (exec (.bitShow 1) State.reset) (fun t => t.resp) = some (.ok (.char '1')) ∧ charCode '1' = 49 := by decide

/-! ## BW and BR -/

/-- V-W1. -/
theorem test_bw_open :
    look (exec .bwOpen (withBw 0x05 3)) (fun t => (t.bw, t.mem.snk)) = some (⟨0, 0⟩, []) := by decide

/-- V-W6, V-W9. -/
theorem test_bw_put :
    look (exec (.bwPut 0) (withBw 0x09 4)) (fun t => (t.bw, t.mem.snk)) = some (⟨0x09, 5⟩, []) ∧
    look (exec (.bwPut 1) (withBw 0x69 7)) (fun t => (t.bw, t.mem.snk)) = some (⟨0, 0⟩, [0xE9]) := by decide

/-- V-W16: the sink fails. -/
theorem test_bw_put_sink_failure :
    look (exec (.bwPut 0) { withBw 0x69 7 with snkAns := [.failed] }) (fun t => (t.resp, t.err)) =
      some (.fault .sinkWriteFailure 0, ⟨9, 0⟩) := by decide

/-- V-W12, V-W13. -/
theorem test_bw_close :
    look (exec .bwClose (withBw 0x05 3)) (fun t => (t.bw, t.mem.snk)) = some (⟨0, 0⟩, [0x05]) ∧
    look (exec .bwClose (withBw 0 0)) (fun t => (t.bw, t.mem.snk)) = some (⟨0, 0⟩, []) := by decide

/-- R91's example. -/
theorem test_br_open :
    look (exec .brOpen { withSrc [0x69] with br := ⟨0x69, 3⟩ }) (fun t => (t.br, t.mem.srcPos)) = some (⟨0, 8⟩, 0) := by decide

/-- V-R9 (a pull), V-R4 (no byte left). -/
theorem test_br_get :
    look (exec .brGet { withSrc [0x69, 0x03] with br := ⟨0x69, 8⟩, mem.srcPos := 1 }) (fun t => (t.resp, t.br, t.mem.srcPos)) =
      some (.ok (.bit 1), ⟨0x03, 1⟩, 2) ∧
    look (exec .brGet (withSrc [])) (fun t => (t.resp, t.err, t.br)) = some (.fault .unexpectedEndOfInput 0, ⟨8, 0⟩, ⟨0, 8⟩) := by
  decide

/-- V-R14: the environment fails the pull; the position stays. -/
theorem test_br_get_source_failure :
    look (exec .brGet { withSrc [0x69] with srcAns := [.failed] }) (fun t => (t.err, t.mem.srcPos)) = some (⟨10, 0⟩, 0) := by decide

/-! ## SER and DES -/

/-- V-S1: the sink's bytes, CT empty. -/
theorem test_ser_write :
    look (runCommand (serWrite testMagic) (withCt example1)) (fun t => (t.mem.snk, t.ct, t.resp)) =
      some ([0xA5, 0x5A, 0xC3, 0x3C, 0x01, 0x41, 0x42, 0x08, 0x69], ⟨[], [], []⟩, .ok .nothing) := by decide

/-- V-S8, V-S10, V-S12: nothing written, nothing popped. -/
theorem test_ser_write_invalid :
    [Container.mk [1] [0x41] [], .mk [1, 0] [0x41, 0x42] [], .mk [1, 0, 0] [0x41] []].map
      (fun c => look (exec .serWrite (withCt c)) (fun t => (t.err, t.mem.snk, decide (t.ct = c)))) =
      [some (⟨3, 1⟩, [], true), some (⟨3, 2⟩, [], true), some (⟨3, 1⟩, [], true)] := by decide

/-- V-D1, V-D28 (from position 2). -/
theorem test_des_read :
    look (runCommand (desRead testMagic)
        { withSrc [0xEE, 0xEE, 0xA5, 0x5A, 0xC3, 0x3C, 0x01, 0x41, 0x42, 0x08, 0x69] with mem.srcPos := 2 })
      (fun t => (t.ct, t.mem.srcPos, t.resp)) = some (example1, 11, .ok .nothing) := by decide

/-- V-D3, V-D4, V-D7, V-D9, V-D11, V-D13, V-D15: the latch; V-D30, and a failed read in place of V-D9's check (R144). -/
theorem test_des_read_faults :
    [[0xA5, 0x5A, 0xC3, 0x3C, 0x01, 0x41, 0x42], [0xA5, 0x5A, 0xC3, 0x3C, 0x01, 0x41], [0xA5, 0x5A, 0xC3],
      [0, 0, 0, 0, 0x01, 0x41, 0x42, 0x08, 0x69], [0xA5, 0x5A, 0xC3, 0x3C, 0x00, 0x41, 0x42, 0x08, 0x69],
      [0xA5, 0x5A, 0xC3, 0x3C, 0x01, 0x41, 0x42, 0x09, 0x69], [0xA5, 0x5A, 0xC3, 0x3C, 0x01, 0x41, 0x42, 0x02, 0x69]].map
      (fun y => look (runCommand (desRead testMagic) (withSrc y)) (fun t => t.err)) =
    [some ⟨5, 2⟩, some ⟨7, 0⟩, some ⟨4, 1⟩, some ⟨4, 2⟩, some ⟨6, 0⟩, some ⟨8, 2⟩, some ⟨8, 1⟩] ∧
    [([0xA5, 0x5A, 0xC3, 0x3C, 0x01, 0x41, 0x42, 0x08, 0x69], 2), ([0, 0, 0, 0, 0x01, 0x41, 0x42, 0x08, 0x69], 3)].map
      (fun y => look (runCommand (desRead testMagic) { withSrc y.1 with srcAns := List.replicate y.2 .delivered ++ [.failed] })
        (fun t => t.err)) = [some ⟨10, 0⟩, some ⟨10, 0⟩] := by decide

/-- R21: the one byte of COUNT and of TBC is counted. -/
theorem test_des_idx :
    [desCount (withSrc [0x01]), desTbc (withSrc [0x08])].map
      (fun r => match r with | .ok _ t => some (t.des.phase, t.des.idx) | .raised _ _ _ => none) =
      [some (.count, 1), some (.tbc, 1)] := by decide

/-! ## The format -/

/-- V-P1, V-P5, V-P9, V-P11, V-P14. -/
theorem test_pack :
    pack [] = [] ∧ pack [1, 0, 1] = [0x05] ∧ pack (List.replicate 9 1) = [0xFF, 0x01] ∧
    pack [0, 0, 0, 0, 0, 0, 0, 1] = [0x80] ∧ pack [1, 0, 1, 1, 0, 0, 1, 0, 1, 1, 1] = [0x4D, 0x07] := by decide

/-- V-T. -/
theorem test_tbc : [3, 8, 9, 16, 17, 511, 512].map tbc = [3, 8, 1, 8, 1, 7, 8] := by decide

/-- V-S4, V-D12a (trailing-bit count 0), V-D17 (an extra byte). -/
theorem test_format :
    encodeContainer testMagic ⟨[1, 1, 0, 0, 0], [0x00, 0xFF, 0x7A], [0, 1, 1, 0, 1, 0, 0, 1, 1, 1, 1]⟩ =
      [0xA5, 0x5A, 0xC3, 0x3C, 0x02, 0x00, 0xFF, 0x7A, 0x08, 0xC3, 0xF2] ∧
    decodeContainer testMagic [0xA5, 0x5A, 0xC3, 0x3C, 0x01, 0x41, 0x42, 0x00, 0x69, 0xFF] = .ok example1 ∧
    decodeContainer testMagic [0xA5, 0x5A, 0xC3, 0x3C, 0x01, 0x41, 0x42, 0x08, 0x69, 0xFF] =
      .ok { example1 with msg := [1, 0, 1, 1, 0, 1, 1, 1, 1, 1, 1, 1, 1] } ∧
    bytesTaken testMagic [0xA5, 0x5A, 0xC3, 0x3C, 0x01, 0x41, 0x42, 0x00, 0x69, 0xFF] = 9 ∧
    bytesTaken testMagic [0xA5, 0x5A, 0xC3, 0x3C, 0x01, 0x41, 0x42, 0x08, 0x69, 0xFF] = 10 := by decide

/-! ## Witnesses: a state and operands that meet the hypotheses of each statement, clause by clause -/

/-- A state whose sink accepts n bytes and fails the next. -/
def failsAfter (s : State) (n : Nat) : State := { s with snkAns := List.replicate n .accepted ++ [.failed] }

/-- A source that holds the configured magic bytes and then these. -/
def magicSrc (bytes : List Byte) : State := withSrc (Config.magicBytes ++ bytes)

/-- The configured magic bytes in front, whatever they are, `decode` looks at what follows them. -/
theorem decode_after_magic (bytes : List Byte) :
    decodeContainer Config.magicBytes (Config.magicBytes ++ bytes) =
      decodeContainer [0, 0, 0, 0] ([0, 0, 0, 0] ++ bytes) := by
  obtain ⟨a, b, c, d, h⟩ : ∃ a b c d, Config.magicBytes = [a, b, c, d] := ⟨_, _, _, _, rfl⟩
  have drop4 (w x y z : Byte) (k : Nat) : (w :: x :: y :: z :: bytes).drop (6 + k) = bytes.drop (2 + k) := by
    rw [show 6 + k = 2 + k + 4 by omega]; rfl
  have get4 (w x y z : Byte) (k : Nat) : (w :: x :: y :: z :: bytes)[5 + k]? = bytes[1 + k]? := by
    rw [show 5 + k = 1 + k + 4 by omega]; simp
  rw [h]
  simp [decodeContainer, leafCountOf, regionBytes, regionBits, regionContainer, drop4, get4]

/-- What was looked at of a next state, that next state has. -/
theorem look_some {α : Type} {o : Host.Outcome State Fault Refusal} {f : State → α} {a : α} (h : look o f = some a) :
    ∃ t, o = .next t ∧ f t = a := by
  cases o with
  | next s => exact ⟨s, rfl, Option.some.inj h⟩
  | fault r => cases h
  | refused r => cases h

theorem witness_ReservedCodesAreRefused :
    (∀ code ∈ [0x01, 0x14, 0x23, 0x51, 0x60, 0xFF],
      (latched.issueNext (portOfCode code)).host = .issue (portOfCode code) :: [] ∧ (portOfCode code).cmd ∉ assignedCodes) ∧
    (Port.mk 0x40 5 0 1).cmd = (Port.mk 0x40 6 1 0).cmd ∧ (0x40 : BitVec 8) ∈ [0x00, 0x20, 0x22, 0x30, 0x31, 0x40, 0x50] ∧
    (Port.mk 0x10 5 0 1).opv = (Port.mk 0x10 5 1 0).opv ∧ (0x21 : BitVec 8) ∈ [0x13, 0x21] ∧
    (0x12 : BitVec 8) ∈ [0x11, 0x12] := by decide

theorem witness_DecodeAndEncodeAgree :
    (Instr.bitNew (-1)).wellFormed = true ∧ decode ⟨0x10, -1, 1, 1⟩ = .instr (.bitNew (-1)) := by decide

theorem witness_StepRunsTheDecodedCommand :
    (State.reset.withFetchWord 8 0x31).host = .issue (portOfCode 0x31) :: [] ∧ decode (portOfCode 0x31) = .instr .brGet := by
  decide

theorem witness_HostLoadsReplaceCt :
    ({ State.reset with host := [.loadCT (leavesOf 256)] } : State).host = .loadCT (leavesOf 256) :: [] ∧
    (leavesOf 256).leaves.length ≤ 256 ∧ 256 < (leavesOf 257).leaves.length ∧ State.reset.host = [] := by
  set_option maxRecDepth 4000 in decide

theorem witness_BitNewResult : State.reset.Unlatched := rfl
theorem witness_BitComparisonResults : (withBw 0x05 3).Unlatched := rfl
theorem witness_BitShowResult : (withSrc [0x69]).Unlatched := rfl
theorem witness_RenderingFedBackIsConfusion : (withCt example1).Unlatched := rfl
theorem witness_BwOpenResult : (withBw 0x05 3).Unlatched ∧ Instr.bwPut 1 ∈ [.bwPut 0, .bwPut 1, .bwClose] := by decide
theorem witness_BrOpenResult : (withSrc [0x69]).Unlatched := rfl
theorem witness_DesReadIgnoresTheOldContainer : (withCt example1).Unlatched := rfl

theorem witness_CharacterCodesAre48And49 :
    State.reset.Unlatched ∧ (∀ v ∈ [(48 : Int), 49], v ∈ [(48 : Int), 49]) ∧
    ∀ v ∈ [(-1 : Int), 2, 47, 50, 256], v < 0 ∨ 2 ≤ v ∧ v ≤ 47 ∨ 50 ≤ v := by decide

theorem witness_BwPutResult :
    (withBw 0x69 7).Unlatched ∧ (withBw 0 0).bw.cnt ≠ 7 ∧ (withBw 0x29 6).bw.cnt ≠ 7 ∧ (withBw 0x69 7).bw.cnt = 7 ∧
    (withBw 0x69 7).writeAnswer = .accepted ∧ (failsAfter (withBw 0x69 7) 0).writeAnswer = .failed ∧
    (withBw 0x29 6).bw.Clean ∧ ∃ t, exec (.bwPut 1) (withBw 0x29 6) = .next t ∧ t.resp = .ok .nothing :=
  ⟨by decide, by decide, by decide, by decide, by decide, by decide, by decide, look_some (by decide)⟩

theorem witness_BwCloseResult :
    (withBw 0x05 3).Unlatched ∧ (withBw 0 0).bw.cnt = 0 ∧ (withBw 0x01 1).bw.cnt ≠ 0 ∧ (withBw 0x7F 7).bw.cnt ≠ 0 ∧
    (failsAfter (withBw 0x7F 7) 1).writeAnswer = .accepted ∧ (failsAfter (withBw 0x05 3) 0).writeAnswer = .failed := by decide

theorem witness_PackerLaw :
    ({ withBw 0x05 3 with snkAns := [.accepted, .accepted] } : State).Unlatched ∧
    ({ withBw 0x05 3 with snkAns := [.accepted, .accepted] } : State).SinkNeverFails := by decide

theorem witness_PendingBitsBeforeTheClose : (withBw 0x05 3).Unlatched ∧ (withBw 0x05 3).SinkNeverFails := by decide

theorem witness_BrGetResult :
    (withSrc [0x69]).Unlatched ∧ ({ withSrc [0x69] with br := ⟨0x69, 0⟩ } : State).br.pos ≠ 8 ∧
    ({ withSrc [0x69] with br := ⟨0x69, 7⟩ } : State).br.pos ≠ 8 ∧ (withSrc [0x69]).br.pos = 8 ∧
    (withSrc [0x69]).mem.srcByte (withSrc [0x69]).mem.srcPos = some 0x69 ∧ (withSrc [0x69]).readAnswer = .delivered ∧
    (withSrc []).mem.srcPos = (withSrc []).mem.src.length ∧
    ({ withSrc [0x69] with srcAns := [.failed] } : State).readAnswer = .failed := by decide

theorem witness_UnpackerLaw :
    (withSrc [0x69, 0x03]).Unlatched ∧ ({ withSrc [0x69, 0x03] with srcAns := [.delivered] } : State).SourceNeverFails ∧
    10 ≤ 8 * (withSrc [0x69, 0x03]).mem.remaining ∧ 16 = 8 * (withSrc [0x69, 0x03]).mem.remaining := by decide

theorem witness_SysResetResult : latched.err.code ≠ 0 ∧ Instr.serWrite ≠ .sysReset := by decide

theorem witness_LatchedCommandsAreRefused :
    latched.err.code ≠ 0 ∧ Instr.bitNew 1 ≠ .sysReset ∧
    (latched.issueNext (portOfCode 0xFF)).host = .issue (portOfCode 0xFF) :: [] ∧ (portOfCode 0xFF).cmd ∉ assignedCodes ∧
    ∃ t, exec (.bitNew 1) latched = .next t ∧ t.resp = .refused :=
  ⟨by decide, by decide, by decide, by decide, look_some (by decide)⟩

theorem witness_FaultCodes : Cause.sourceReadFailure.code = Cause.sourceReadFailure.code := rfl

theorem witness_RaisingAFaultLatchesIt :
    (∃ t, exec (.bitNew 2) State.reset = .next t ∧ t.resp = .fault .invalidBitValue 0) ∧
    (∃ t, exec (.bitNew 1) State.reset = .next t ∧ t.resp = .ok (.bit 1)) ∧ Instr.bitNew 1 ≠ .sysReset :=
  ⟨look_some (by decide), look_some (by decide), by decide⟩

theorem witness_FaultMatrix :
    (∃ t, exec (.bitNew 48) State.reset = .next t ∧ t.resp = .fault .characterConfusion 0) ∧
    (∃ t, exec (.bwPut 0) (failsAfter (withBw 0x69 7) 0) = .next t ∧ t.resp = .fault .sinkWriteFailure 0) ∧
    (∃ t, exec .bwClose (failsAfter (withBw 0x05 3) 0) = .next t ∧ t.resp = .fault .sinkWriteFailure 0) ∧
    (∃ t, exec .brGet (withSrc []) = .next t ∧ t.resp = .fault .unexpectedEndOfInput 0) ∧
    (∃ t, exec .serWrite (withCt (leavesOf 1)) = .next t ∧ t.resp = .fault .invariantViolation 1) ∧
    (∃ t, exec .desRead (withSrc []) = .next t ∧ t.resp = .fault .notThisFormat 1) :=
  ⟨look_some (by decide), look_some (by decide), look_some (by decide), look_some (by decide), look_some (by decide),
    look_some (by decide)⟩

theorem witness_OnlyResetClearsTheLatch :
    (∃ t, step (latched.withFetchWord 8 0x00) = .next t ∧ t.err = ⟨0, 0⟩) ∧ (latched.withFetchWord 8 0x00).err = ⟨8, 0⟩ :=
  ⟨look_some (by decide), by decide⟩

theorem witness_EveryCommandEnds :
    (withCt (leavesOf 256)).ct.leaves.length ≤ 256 ∧ 256 < (withCt (leavesOf 257)).ct.leaves.length ∧
    (withCt (leavesOf 257)).Unlatched := by
  set_option maxRecDepth 4000 in decide

/-- Two leaves, and 256. -/
theorem witness_ContainerFields :
    testMagic.length = 4 ∧ containerValid example1 = true ∧ example1.leaves.length ≤ 256 ∧
    containerValid (leavesOf 256) = true ∧ (leavesOf 256).leaves.length ≤ 256 := by
  set_option maxRecDepth 4000 in decide

theorem witness_DecodeOfEncodeIsTheContainer :
    testMagic.length = 4 ∧ containerValid (leavesOf 2) = true ∧ (leavesOf 2).leaves.length ≤ 256 := by decide

theorem witness_BytesAfterAContainerAreRead :
    testMagic.length = 4 ∧ containerValid (leavesOf 3) = true ∧ (leavesOf 3).leaves.length ≤ 256 := by decide

theorem witness_LeafCountFieldArithmetic : (2 ≤ 2 ∧ 2 ≤ 256) ∧ (2 ≤ 256 ∧ 256 ≤ 256) := by decide

/-- No byte cut, and one byte cut where exactly eight message bits are left to lose. -/
theorem witness_ShortenedContainerReads :
    testMagic.length = 4 ∧ containerValid { example1 with msg := List.replicate 8 1 } = true ∧
    ({ example1 with msg := List.replicate 8 1 } : Container).leaves.length ≤ 256 ∧
    8 * 0 ≤ example1.msg.length ∧ 8 * 1 ≤ ({ example1 with msg := List.replicate 8 1 } : Container).msg.length := by decide

/-- The cuts of the spec's example of nine bytes, V-D2 to V-D8, at the ends of each clause. -/
theorem witness_DetectedCuts :
    testMagic.length = 4 ∧ containerValid example1 = true ∧ example1.leaves.length ≤ 256 ∧
    (encodeContainer testMagic example1).length = 9 ∧ (0 < 4 ∧ 3 < 4) ∧
    (5 ≤ 5 ∧ 6 < 5 + example1.leaves.length) ∧ 7 = 5 + example1.leaves.length ∧
    (6 + example1.leaves.length ≤ 8 ∧ example1.msg.length < 8 * (9 - 8)) := by decide

theorem witness_SerWriteRejectsInvalidContainers :
    (withCt (leavesOf 1)).Unlatched ∧ (withCt (leavesOf 0)).ct.leaves.length < 2 ∧ (withCt (leavesOf 1)).ct.leaves.length < 2 ∧
    2 ≤ (withCt { leavesOf 2 with shape := [1, 0] }).ct.leaves.length ∧
    (withCt { leavesOf 256 with shape := [] }).ct.leaves.length ≤ 256 ∧
    (withCt { leavesOf 256 with shape := [] }).ct.shape.length ≠ 2 * (leavesOf 256).leaves.length - 1 := by
  set_option maxRecDepth 4000 in decide

/-- Its last clause. -/
theorem witness_SerWriteRejectsInvalidContainers_sink :
    2 ≤ (failsAfter (withCt example1) 0).ct.leaves.length ∧
    (failsAfter (withCt example1) 0).ct.shape.length = 2 * (failsAfter (withCt example1) 0).ct.leaves.length - 1 ∧
    ∃ t, exec .serWrite (failsAfter (withCt example1) 0) = .next t ∧ t.resp = .fault .sinkWriteFailure 0 :=
  ⟨by decide, by decide, look_some (by decide)⟩

/-- The sink fails at the very next write after the container's nine bytes. -/
theorem witness_SerWriteAppendsTheContainer :
    (failsAfter (withCt example1) 9).Unlatched ∧ containerValid (failsAfter (withCt example1) 9).ct = true ∧
    (failsAfter (withCt example1) 9).ct.leaves.length ≤ 256 ∧
    ∀ a ∈ (failsAfter (withCt example1) 9).snkAns.take (encodeContainer Config.magicBytes example1).length, a = .accepted := by
  decide

/-- The first byte fails, and the last. -/
theorem witness_SerWriteFailsAtAByte :
    ∀ k ∈ [0, 8], (failsAfter (withCt example1) k).Unlatched ∧ containerValid (failsAfter (withCt example1) k).ct = true ∧
      (failsAfter (withCt example1) k).ct.leaves.length ≤ 256 ∧ k < (encodeContainer Config.magicBytes example1).length ∧
      (∀ a ∈ (failsAfter (withCt example1) k).snkAns.take k, a = .accepted) ∧
      (failsAfter (withCt example1) k).snkAns[k]? = some .failed := by decide

theorem witness_SerPhases :
    containerValid (withCt example1).ct = true ∧ (withCt example1).ct.leaves.length ≤ 256 ∧ (withCt example1).SinkNeverFails := by
  decide

/-- A state whose source delivers n bytes and fails the next. -/
def failsReadAfter (s : State) (n : Nat) : State := { s with srcAns := List.replicate n .delivered ++ [.failed] }

/-- How far DES.READ reads what follows the configured magic bytes does not depend on these. -/
theorem bytesTaken_after_magic (bytes : List Byte) :
    bytesTaken Config.magicBytes (Config.magicBytes ++ bytes) = bytesTaken [0, 0, 0, 0] ([0, 0, 0, 0] ++ bytes) := by
  obtain ⟨a, b, c, d, h⟩ : ∃ a b c d, Config.magicBytes = [a, b, c, d] := ⟨_, _, _, _, rfl⟩
  have get4 (w x y z : Byte) (k : Nat) : (w :: x :: y :: z :: bytes)[5 + k]? = bytes[1 + k]? := by
    rw [show 5 + k = 1 + k + 4 by omega]; simp
  rw [h]
  simp [bytesTaken, leafCountOf, regionBytes, regionBits, get4]

/-- V-D1 with the configured magic bytes; the source would fail the very next read. -/
theorem witness_DesReadReadsTheContainer :
    (failsReadAfter (magicSrc [0x01, 0x41, 0x42, 0x08, 0x69]) 9).Unlatched ∧
    decodeContainer Config.magicBytes (failsReadAfter (magicSrc [0x01, 0x41, 0x42, 0x08, 0x69]) 9).mem.unread = .ok example1 ∧
    ∀ a ∈ (failsReadAfter (magicSrc [0x01, 0x41, 0x42, 0x08, 0x69]) 9).srcAns.take
      (6 + example1.leaves.length + (containerBits example1 + 7) / 8), a = .delivered :=
  ⟨by decide, (decode_after_magic _).trans (by decide), by decide⟩

theorem witness_DesPhases :
    (magicSrc [0x01, 0x41, 0x42, 0x08, 0x69]).SourceNeverFails ∧
    decodeContainer Config.magicBytes (magicSrc [0x01, 0x41, 0x42, 0x08, 0x69]).mem.unread = .ok example1 :=
  ⟨by decide, (decode_after_magic _).trans (by decide)⟩

/-- Each fault of `decode`, the one of foreign bytes on a header of zeros (V-D9), the others after the configured magic
bytes. -/
theorem witness_DesReadRaisesTheFault :
    (withSrc []).Unlatched ∧ (∀ n, ∀ a ∈ (withSrc []).srcAns.take n, a = .delivered) ∧
    decodeContainer Config.magicBytes (withSrc []).mem.unread = .fault .notThisFormat 1 ∧
    decodeContainer Config.magicBytes (withSrc [0, 0, 0, 0]).mem.unread = .fault .notThisFormat 2 ∧
    decodeContainer Config.magicBytes (magicSrc []).mem.unread = .fault .truncatedHeader 1 ∧
    decodeContainer Config.magicBytes (magicSrc [0x00, 0x41, 0x42, 0x08, 0x69]).mem.unread = .fault .invalidLeafCount 0 ∧
    decodeContainer Config.magicBytes (magicSrc [0x01, 0x41]).mem.unread = .fault .truncatedLeafTable 0 ∧
    decodeContainer Config.magicBytes (magicSrc [0x01, 0x41, 0x42]).mem.unread = .fault .truncatedHeader 2 ∧
    decodeContainer Config.magicBytes (magicSrc [0x01, 0x41, 0x42, 0x02, 0x69]).mem.unread = .fault .unexpectedEndOfInput 1 ∧
    decodeContainer Config.magicBytes (magicSrc [0x01, 0x41, 0x42, 0x09, 0x69]).mem.unread = .fault .unexpectedEndOfInput 2 := by
  refine ⟨by decide, fun n a h => absurd (List.mem_of_mem_take h) List.not_mem_nil, rfl, ?_, (decode_after_magic _).trans (by decide), (decode_after_magic _).trans (by decide),
    (decode_after_magic _).trans (by decide), (decode_after_magic _).trans (by decide), (decode_after_magic _).trans (by decide),
    (decode_after_magic _).trans (by decide)⟩
  unfold decodeContainer
  have foreign : (withSrc [0, 0, 0, 0]).mem.unread.take 4 ≠ Config.magicBytes := fun h => magicBytes_ne_zero h.symm
  rw [if_neg (by decide), if_pos foreign]

/-- The source delivers what DES.READ takes before V-D13's fault, and would fail the next read. -/
theorem witness_DesReadRaisesTheFault_takes :
    decodeContainer Config.magicBytes (failsReadAfter (magicSrc [0x01, 0x41, 0x42, 0x09, 0x69]) 9).mem.unread =
      .fault .unexpectedEndOfInput 2 ∧
    ∀ a ∈ (failsReadAfter (magicSrc [0x01, 0x41, 0x42, 0x09, 0x69]) 9).srcAns.take
      (bytesTaken Config.magicBytes (Config.magicBytes ++ [0x01, 0x41, 0x42, 0x09, 0x69])), a = .delivered :=
  ⟨(decode_after_magic _).trans (by decide), by rw [bytesTaken_after_magic]; decide⟩

/-- A source that fails one of the reads that DES.READ asks for, whichever bytes it holds. -/
theorem fails_DesReadFailsAtAByte (bytes : List Byte) (k : Nat) (hk : k < bytesTaken Config.magicBytes bytes) :
    (failsReadAfter (withSrc bytes) k).Unlatched ∧
    k < bytesTaken Config.magicBytes (failsReadAfter (withSrc bytes) k).mem.unread ∧
    (∀ a ∈ (failsReadAfter (withSrc bytes) k).srcAns.take k, a = .delivered) ∧
    (failsReadAfter (withSrc bytes) k).srcAns[k]? = some .failed := by
  refine ⟨rfl, hk, fun a ha => ?_, ?_⟩
  · rw [failsReadAfter, List.take_left' List.length_replicate] at ha
    exact List.eq_of_mem_replicate ha
  · rw [failsReadAfter, List.getElem?_append_right (by simp)]
    simp

/-- The reads there are to fail, from the first to the last: of a container, and of bytes whose decode is each of the faults. -/
theorem witness_DesReadFailsAtAByte :
    bytesTaken Config.magicBytes (magicSrc [0x01, 0x41, 0x42, 0x08, 0x69]).mem.unread = 9 ∧
    bytesTaken Config.magicBytes (withSrc [0, 0]).mem.unread = 2 ∧
    bytesTaken Config.magicBytes (withSrc [0, 0, 0, 0, 1]).mem.unread = 4 ∧
    bytesTaken Config.magicBytes (magicSrc []).mem.unread = 4 ∧
    bytesTaken Config.magicBytes (magicSrc [0x00, 0x41, 0x42, 0x08, 0x69]).mem.unread = 5 ∧
    bytesTaken Config.magicBytes (magicSrc [0x01, 0x41]).mem.unread = 6 ∧
    bytesTaken Config.magicBytes (magicSrc [0x01, 0x41, 0x42]).mem.unread = 7 ∧
    bytesTaken Config.magicBytes (magicSrc [0x01, 0x41, 0x42, 0x02, 0x69]).mem.unread = 9 ∧
    bytesTaken Config.magicBytes (magicSrc [0x01, 0x41, 0x42, 0x09, 0x69]).mem.unread = 9 := by
  refine ⟨(bytesTaken_after_magic _).trans (by decide), rfl, ?_, (bytesTaken_after_magic _).trans (by decide),
    (bytesTaken_after_magic _).trans (by decide), (bytesTaken_after_magic _).trans (by decide),
    (bytesTaken_after_magic _).trans (by decide), (bytesTaken_after_magic _).trans (by decide),
    (bytesTaken_after_magic _).trans (by decide)⟩
  unfold bytesTaken
  have foreign : (withSrc [0, 0, 0, 0, 1]).mem.unread.take 4 ≠ Config.magicBytes := fun h => magicBytes_ne_zero h.symm
  rw [if_neg (by decide), if_pos (.inl foreign)]

theorem witness_NotThisFormatReadsNothingMore :
    (withSrc []).mem.wf = true ∧ ∃ t, exec .desRead (withSrc []) = .next t ∧ t.resp = .fault .notThisFormat 1 :=
  ⟨by decide, look_some (by decide)⟩

/-- The source of the read back is what the sink holds (R45). -/
theorem witness_WriteThenReadBack :
    (withCt example1).Unlatched ∧ containerValid (withCt example1).ct = true ∧ (withCt example1).ct.leaves.length ≤ 256 ∧
    (∀ a ∈ (withCt example1).snkAns.take (encodeContainer Config.magicBytes example1).length, a = .accepted) ∧
    ∃ t : State, exec .serWrite (withCt example1) = .next t ∧ (withSrc t.mem.snk).Unlatched ∧
      (∀ a ∈ (withSrc t.mem.snk).srcAns.take (encodeContainer Config.magicBytes example1).length, a = .delivered) ∧
      (withSrc t.mem.snk).mem.unread = t.mem.snk.drop (withCt example1).mem.snk.length := by
  refine ⟨by decide, by decide, by decide, by decide, ?_⟩
  obtain ⟨t, h, -⟩ := look_some (show look (exec .serWrite (withCt example1)) (fun t => t.resp) = some (.ok .nothing) by decide)
  exact ⟨t, h, rfl, fun a h => absurd (List.mem_of_mem_take h) List.not_mem_nil, rfl⟩

/-- A change of each kind that the clauses speak of; the working registers start one above what the free value will be. -/
theorem witness_WhoWritesWhat :
    (∃ t, exec (.bwPut 1) State.reset = .next t ∧ decide (t.bw ≠ State.reset.bw) = true) ∧
    (∃ t, exec .brGet (withSrc [0x69]) = .next t ∧
      decide (t.br ≠ (withSrc [0x69]).br ∧ t.mem.srcPos ≠ (withSrc [0x69]).mem.srcPos) = true) ∧
    (∃ t, exec .sysReset { State.reset with ser.bw := ⟨1, 1⟩, des.br := ⟨1, 1⟩, ct := example1 } = .next t ∧
      decide (t.ser.bw ≠ ⟨1, 1⟩ ∧ t.des.br ≠ ⟨1, 1⟩ ∧ t.ct ≠ example1) = true) ∧
    (∃ t, exec (.bwPut 1) { withBw 0x69 7 with snkAns := [.accepted] } = .next t ∧
      decide (t.mem.snk ≠ [] ∧ t.snkAns ≠ [.accepted]) = true) ∧
    (∃ t, exec .serWrite { withCt example1 with ser.idx := Config.anySerIdx 0 + 1 } = .next t ∧
      t.ser.idx ≠ Config.anySerIdx 0 + 1) ∧
    (∃ t, exec .desRead { State.reset with des.idx := Config.anyDesIdx 2 + 1 } = .next t ∧
      t.des.idx ≠ Config.anyDesIdx 2 + 1) := by
  refine ⟨look_some (by decide), look_some (by decide), look_some (by decide), look_some (by decide), ⟨_, rfl, ?_⟩, ⟨_, rfl, ?_⟩⟩
  · exact Nat.ne_of_lt (Nat.lt_succ_self _)
  · exact Nat.ne_of_lt (Nat.lt_succ_self _)

theorem witness_StreamsOnlyGoForward :
    ∃ t, step ((withBw 0x69 7).withFetchWord 8 0x21) = .next t ∧ t.mem.snk = [0x69] := look_some (by decide)

theorem witness_FrameOfNonStoringCommands :
    (∃ t, exec .sysReset latched = .next t ∧ t.resp = .ok .nothing) ∧
    (∃ t, exec .bwOpen (withBw 0x05 3) = .next t ∧ t.resp = .ok .nothing) ∧
    (∃ t, exec .brOpen State.reset = .next t ∧ t.resp = .ok .nothing) ∧
    (∃ t, exec (.bitNew 2) State.reset = .next t ∧ t.resp = .fault .invalidBitValue 0) ∧
    (∃ t, exec (.bitEq 1 1) State.reset = .next t ∧ t.resp = .ok (.bit 1)) ∧
    (∃ t, exec (.bitNe 1 1) State.reset = .next t ∧ t.resp = .ok (.bit 0)) ∧
    (∃ t, exec (.bitShow 1) State.reset = .next t ∧ t.resp = .ok (.char '1')) ∧
    (∃ t, exec .brGet (withSrc [0x69]) = .next t ∧ t.resp = .ok (.bit 1)) ∧
    (∃ t, exec .desRead State.reset = .next t ∧ t.resp = .fault .notThisFormat 1) :=
  ⟨look_some (by decide), look_some (by decide), look_some (by decide), look_some (by decide), look_some (by decide),
    look_some (by decide), look_some (by decide), look_some (by decide), look_some (by decide)⟩

theorem witness_FrameOfStoringCommands :
    (∃ t, exec (.bwPut 1) (withBw 0x69 7) = .next t ∧ t.resp = .ok .nothing) ∧ 1 ≠ (withBw 0x69 7).mem.snkAddr ∧
    (∃ t, exec (.bwPut 1) (withBw 0x29 6) = .next t ∧ t.resp = .ok .nothing) ∧ (withBw 0x29 6).bw.cnt ≠ 7 ∧
    (∃ t, exec .bwClose (withBw 0 0) = .next t ∧ t.resp = .ok .nothing) ∧ (withBw 0 0).bw.cnt = 0 ∧
    (∃ t, exec .serWrite { withCt example1 with mem.snk := [0xEE] } = .next t ∧ t.resp = .ok .nothing) ∧
    0 < ({ withCt example1 with mem.snk := [0xEE] } : State).mem.snkAddr ∧
    ({ withCt example1 with mem.snk := [0xEE] } : State).mem.snkAddr + (encodeContainer Config.magicBytes example1).length ≤ 10 :=
  ⟨look_some (by decide), by decide, look_some (by decide), by decide, look_some (by decide), by decide, look_some (by decide),
    by decide, by decide⟩

theorem witness_WorkingRegistersCarryNothing :
    ∃ t, exec .serWrite (withCt example1) = .next t ∧ t.resp = .ok .nothing := look_some (by decide)

theorem witness_StepKeepsTheInvariant :
    ((withCt example1).withFetchWord 8 0x40).Inv ∧
    ∃ t, step ((withCt example1).withFetchWord 8 0x40) = .next t ∧ t.resp = .ok .nothing := by
  refine ⟨?_, look_some (by decide)⟩
  decide

end Sys2Proof.Tests
end

section
/-! PROOF. The statements of 00_scope.md: unpack inverts pack (R8), a step runs the decoded command (R5, R61), and the numbers of
the two character codes (R6). -/

namespace Sys2Proof.Machine

/-! ## Unpacking what was packed -/

/-- Up to the end of the last byte, unpacking gives the packed bits as far as they go, then the zeros of the padding (R8, R58). -/
theorem unpack_pack (bits : List Bit) (n : Nat) (hn : n ≤ 8 * (pack bits).length) :
    unpack (pack bits) n = bits.take n ++ List.replicate (n - bits.length) 0 := by
  refine List.ext_getElem (by simp; omega) fun k hk hk' => ?_
  have hkn : k < n := by simpa using hk
  simp only [unpack_eq_map, List.getElem_map, List.getElem_range]
  rw [bitAtIndex_pack bits k (Nat.lt_of_lt_of_le hkn hn)]
  by_cases hb : k < bits.length
  · rw [List.getD_eq_getElem _ _ hb, List.getElem_append_left (by simp; omega), List.getElem_take]
  · rw [List.getD_eq_default _ _ (by omega), List.getElem_append_right (by simp; omega), List.getElem_replicate]

/-- Settles O21, by what unpacking gives at any length up to the end of the last byte. -/
theorem unpackInvertsPack : Obligations.UnpackInvertsPack := by
  intro bits
  have hfit : bits.length ≤ 8 * (pack bits).length := by rw [pack_length]; omega
  constructor
  · rw [unpack_pack bits _ hfit, List.take_length, Nat.sub_self, List.replicate_zero, List.append_nil]
  · rw [unpack_pack bits _ le_rfl, List.take_of_length_le hfit]

/-! ## The step on a command of the host -/

theorem popHost_eq {s : State} {a : HostAction} {rest : List HostAction} (h : s.host = a :: rest) :
    s.popHost = { s with host := rest } := by
  rw [State.popHost, h, List.tail_cons]

theorem step_issue {s : State} {p : Port} {i : Instr} {rest : List HostAction} (hh : s.host = .issue p :: rest)
    (hd : decode p = .instr i) : step s = exec i s.popHost := by
  simp only [step, hh, hd]

/-- Settles O4, by the step on an issued command and the state with the head of the host's list taken off. -/
theorem stepRunsTheDecodedCommand : Obligations.StepRunsTheDecodedCommand := by
  intro s p i rest hh hd
  rw [step_issue hh hd, popHost_eq hh]

/-! ## The numbers of the character codes -/

theorem admission_characterCode {v : Int} (h : v ∈ [48, 49]) : admission v = .refuse .characterConfusion := by
  obtain rfl | rfl : v = 48 ∨ v = 49 := by simpa using h
  · decide
  · decide

/-- No Bit and no character code: the tests of R71 all fail. -/
theorem admission_invalid {v : Int} (h : v < 0 ∨ 2 ≤ v ∧ v ≤ 47 ∨ 50 ≤ v) : admission v = .refuse .invalidBitValue := by
  have hchar : ¬(v = Config.charZero ∨ v = Config.charOne) := by
    rw [Config.charZero, Config.charOne]; omega
  rw [admission, if_neg (by omega), if_neg (by omega), if_neg hchar]

theorem exec_bitNew_refuse {s : State} (hs : s.Unlatched) {v : Int} {c : Cause} (h : admission v = .refuse c) :
    exec (.bitNew v) s = .next (s.takeFault c 0) := by
  rw [exec_bitNew hs, h]

/-- Settles O9: what BIT.NEW refuses, and under which cause, is read off its admission test. -/
theorem characterCodesAre48And49 : Obligations.CharacterCodesAre48And49 := fun _ hs =>
  ⟨fun _ hv => ⟨_, exec_bitNew_refuse hs (admission_characterCode hv), rfl⟩,
    fun _ hv => ⟨_, exec_bitNew_refuse hs (admission_invalid hv), rfl⟩⟩

end Sys2Proof.Machine
end

section
/-! PROOF. The statements of 10_state.md: what a step can do, who writes what (R11 to R24), the streams (R24, R34), what carries
nothing from one command to the next (R19, R21, R25), the fault latch (R22), power-on (R27) and the invariant of the state. -/

namespace Sys2Proof.Machine

/-! ## What a step can do -/

theorem step_loadCT {s : State} {c : Container} {rest : List HostAction} (hh : s.host = .loadCT c :: rest) :
    step s = loadContainer c s.popHost := by
  simp only [step, hh]

theorem step_idle {s : State} (hh : s.host = []) : step s = .next s := by
  simp only [step, hh, idleStep]

/-- Everything a step can do that ends in a next state: nothing, a load that fits, the refusal of a reserved code, a command. -/
theorem step_next_cases {s t : State} (h : step s = .next t) :
    t = s ∨ (∃ c : Container, c.fits = true ∧ t = { s.popHost with ct := c }) ∨ t = s.popHost.respond .refused ∨
    ∃ i, exec i s.popHost = .next t := by
  unfold step at h
  split at h
  · cases h; exact .inl rfl
  · next c _ _ =>
    unfold loadContainer at h
    split at h
    · next hc => cases h; exact .inr (.inl ⟨c, hc, rfl⟩)
    · cases h
  · split at h
    · next i _ => exact .inr (.inr (.inr ⟨i, h⟩))
    · cases h; exact .inr (.inr (.inl rfl))

/-- Settles O5: the three ways a step goes when the host issues no command. -/
theorem hostLoadsReplaceCt : Obligations.HostLoadsReplaceCt := by
  refine fun s c rest => ⟨fun hh hc => ?_, fun hh hc => ?_, step_idle⟩
  · rw [step_loadCT hh, loadContainer, if_pos ((fits_iff c).mpr hc), popHost_eq hh]
  · rw [step_loadCT hh, loadContainer, if_neg (by rw [fits_iff]; omega)]

/-! ## Who writes what -/

/-- Settles O45, command by command from the frame of its body. -/
theorem whoWritesWhat : Obligations.WhoWritesWhat := by
  intro i s t h
  obtain ⟨u, hu, ht⟩ := exec_frame h
  rw [ht]
  rcases hu with rfl | hu
  · simp
  have hf := body_frame i s
  rw [← hu] at hf
  cases i with
  | sysReset => rw [hf]; simp
  | bitNew | bitEq | bitNe | bitShow => rw [hf]; simp
  | bwOpen => rw [hu]; simp [bodyOf, packerOpen]
  | bwPut b => rw [hf.eq]; simp [BitVec.eq_zero_or_eq_one b]
  | bwClose => rw [hf.eq]; simp
  | brOpen => rw [hu]; simp [bodyOf, unpackerOpen]
  | brGet => rw [hf.eq]; simp
  | serWrite => simp [hf.bw, hf.br, hf.des, hf.src, hf.srcPos, hf.srcAns, hf.host]
  | desRead => simp [hf.bw, hf.br, hf.ser, hf.snk, hf.src, hf.snkAns, hf.host]

/-! ## The streams go forward -/

/-- The sink grown at its end, the same source, its position no smaller (R24, R32, R35). -/
def Memory.Forward (m n : Memory) : Prop := m.snk <+: n.snk ∧ n.src = m.src ∧ m.srcPos ≤ n.srcPos

theorem Memory.Forward.refl (m : Memory) : m.Forward m := ⟨List.prefix_refl _, rfl, le_rfl⟩

theorem body_forward (i : Instr) (s : State) : s.mem.Forward (bodyOf i s).state.mem := by
  have hf := body_frame i s
  cases i with
  | sysReset => exact .refl _
  | bitNew | bitEq | bitNe | bitShow => rw [hf]; exact .refl _
  | bwOpen | bwPut | bwClose => rw [hf.eq]; exact ⟨hf.snk, rfl, le_rfl⟩
  | brOpen | brGet => rw [hf.eq]; exact ⟨List.prefix_refl _, rfl, hf.pos⟩
  | serWrite => exact ⟨hf.snk, hf.src, hf.srcPos.ge⟩
  | desRead => exact ⟨hf.snk ▸ List.prefix_refl _, hf.src, hf.srcPos⟩

theorem exec_forward {i : Instr} {s t : State} (h : exec i s = .next t) : s.mem.Forward t.mem := by
  obtain ⟨u, hu, ht⟩ := exec_frame h
  rw [ht]
  rcases hu with rfl | rfl
  · exact .refl _
  · exact body_forward i s

/-- Settles O46: only a command moves the streams, and it moves them forward. -/
theorem streamsOnlyGoForward : Obligations.StreamsOnlyGoForward := by
  intro s t h
  rcases step_next_cases h with rfl | ⟨c, -, rfl⟩ | rfl | ⟨i, hi⟩
  · exact Memory.Forward.refl _
  · exact Memory.Forward.refl _
  · exact Memory.Forward.refl _
  · exact exec_forward (s := s.popHost) hi

/-! ## What carries nothing on -/

/-- States that agree in the whole loose part but the response, and in the response, are equal. -/
theorem Alike.eq_of_resp {s s' : State} (h : Alike True False False False s s') (hr : s'.resp = s.resp) : s' = s := by
  obtain ⟨m, rfl, a⟩ := h
  obtain ⟨hi, hv, hL, ht, hb, hd⟩ := a.all trivial
  have hm : m = s.loose := by
    cases m
    simp_all [State.loose, State.putLoose]
  rw [hm, putLoose_loose]

/-- Settles O49: two runs side by side from states that differ in the response alone. -/
theorem resultsAreNotState : Obligations.ResultsAreNotState := by
  intro i s r
  have h : Alike True False False False s { s with resp := r } :=
    ⟨{ s.loose with resp := r }, rfl, fun _ => ⟨rfl, rfl, rfl, rfl, rfl, rfl⟩, False.elim, False.elim, False.elim⟩
  rcases exec_alike i h with ⟨e, e'⟩ | ⟨t, t', e, e', ha, hr⟩
  · rw [e, e']
  · rw [e, e', ha.eq_of_resp hr]

/-- States alike, with the same response, differ in the working registers alone. -/
theorem Alike.eq_withWork {s s' : State} (h : Alike False False False False s s') (hr : s'.resp = s.resp) :
    s' = s.withWork s' := by
  obtain ⟨m, rfl, -⟩ := h
  have hm : m.resp = s.resp := hr
  simp [State.withWork, State.putLoose, hm]

/-- Settles O50: two runs side by side from states that differ in the working registers alone. -/
theorem workingRegistersCarryNothing : Obligations.WorkingRegistersCarryNothing := by
  intro i s t w ht
  have h : Alike False False False False s (s.withWork w) :=
    ⟨{ w.loose with resp := s.resp }, rfl, False.elim, False.elim, False.elim, False.elim⟩
  rcases exec_alike i h with ⟨e, -⟩ | ⟨u, u', e, e', ha, hr⟩
  · rw [e] at ht; cases ht
  · rw [e] at ht; cases ht
    exact ⟨u', e'.trans (congrArg _ (ha.eq_withWork hr))⟩

/-! ## The fault latch -/

/-- Only SYS.RESET and the end of a command write the latch. -/
theorem body_err {i : Instr} (hi : i ≠ .sysReset) (s : State) : (bodyOf i s).state.err = s.err := by
  have hf := body_frame i s
  cases i with
  | sysReset => exact absurd rfl hi
  | bitNew | bitEq | bitNe | bitShow => rw [hf]
  | bwOpen | bwPut | bwClose => rw [hf.eq]
  | brOpen | brGet => rw [hf.eq]
  | serWrite => exact hf.err
  | desRead => exact hf.err

/-- Settles O24, by the ways a command can end. -/
theorem raisingAFaultLatchesIt : Obligations.RaisingAFaultLatchesIt := by
  intro i s t h
  rcases exec_next_cases h with ⟨rfl, rfl⟩ | ⟨-, -, rfl⟩ | ⟨hi, -, r, u, e, rfl⟩ | ⟨-, -, c, sub, u, -, rfl⟩
  · exact ⟨by simp, by simp⟩
  · exact ⟨by simp, by simp⟩
  · have he := body_err hi s
    rw [e] at he
    exact ⟨by simp, fun _ _ => he⟩
  · exact ⟨by simp, by simp⟩

/-! ## Power-on -/

/-- A command that is run with no fault latched is not refused. -/
theorem runCommand_unlatched_not_refused (body : State → Res Result) {s : State} (hs : s.Unlatched) :
    ∃ t, runCommand body s = .next t ∧ t.resp ≠ .refused := by
  rcases runCommand_cases body s with ⟨h, -⟩ | ⟨-, r, t, -, e⟩ | ⟨-, c, sub, t, -, e⟩
  · exact absurd hs h
  · exact ⟨_, e, by simp⟩
  · exact ⟨_, e, by simp⟩

/-- With no fault latched, and at most 256 leaves in CT, no command is refused. -/
theorem exec_unlatched_not_refused (i : Instr) {s : State} (hs : s.Unlatched) (hf : s.ct.fits = true) :
    ∃ t, exec i s = .next t ∧ t.resp ≠ .refused := by
  by_cases hi : i = .sysReset
  · subst hi; exact ⟨_, rfl, by simp⟩
  · rw [exec_eq_run hi fun _ _ => hf]; exact runCommand_unlatched_not_refused _ hs

/-- Settles O7: the two states are read off, and no fault is latched at power-on. -/
theorem powerOnIsTheResetState : Obligations.PowerOnIsTheResetState :=
  ⟨⟨rfl, rfl, rfl, rfl, rfl, rfl, rfl, rfl⟩,
    fun _ => ⟨_, rfl, rfl, rfl, rfl, rfl, rfl, rfl, rfl, rfl, rfl⟩,
    fun i => exec_unlatched_not_refused i rfl rfl⟩

/-! ## The invariant, in parts -/

/-- The source position inside the source (R34), at most 256 leaves (R17), unpacker positions 0 to 8 (R15). -/
structure State.InBounds (s : State) : Prop where
  wf : s.mem.wf = true
  fits : s.ct.fits = true
  br : s.br.InRange
  desBr : s.des.br.InRange

/-- Both phases are IDLE (R20). -/
def State.Idle (s : State) : Prop := s.ser.phase = .idle ∧ s.des.phase = .idle

/-- The standalone packer is clean (R13), the serializer's is empty (R16). -/
def State.PackersReady (s : State) : Prop := s.bw.Clean ∧ s.ser.bw = Packer.opened

theorem inv_iff (s : State) :
    s.Inv ↔ s.InBounds ∧ s.Idle ∧ s.err.legal = true ∧ (s.err.code ≠ Cause.sinkWriteFailure.code → s.PackersReady) :=
  ⟨fun ⟨wf, fits, ser, des, err, br, desBr, bw⟩ => ⟨⟨wf, fits, br, desBr⟩, ⟨ser, des⟩, err, bw⟩,
    fun ⟨hb, ⟨ser, des⟩, err, bw⟩ => ⟨hb.wf, hb.fits, ser, des, err, hb.br, hb.desBr, bw⟩⟩

theorem opened_inRange : Unpacker.opened.InRange := by decide

theorem clear_legal : ErrLatch.clear.legal = true := by decide

/-! ### The bounds -/

/-- The stream of SER.WRITE, where it ends `ok`, leaves CT and its private packer empty (R104, R106, R107). -/
theorem serStream_ok {magic : List Byte} {s t : State} (h : serStream magic s = .ok () t) :
    t.ct = Container.empty ∧ t.ser.bw = Packer.opened := by
  rw [(serStream_emits magic s).of_ok h]; exact ⟨rfl, rfl⟩

theorem serWrite_fits (magic : List Byte) {s : State} (h : s.ct.fits = true) :
    (serWrite magic s).state.ct.fits = true := by
  rcases serWrite_cases magic s with ⟨sub, -, e⟩ | ⟨-, t, ht, e⟩ | ⟨-, t, -, e⟩ <;> rw [e]
  · exact h
  · show t.ct.fits = true
    rw [(serStream_ok ht).1]; rfl
  · exact loseContainer_fits t

theorem desRead_fits (magic : List Byte) (s : State) : (desRead magic s).state.ct.fits = true := by
  have hl := desStream_leaves magic s.clearCt rfl
  rcases desRead_cases magic s with ⟨t, ht, e⟩ | ⟨c, sub, t, -, -, e⟩ <;> rw [e]
  · rw [ht] at hl; exact (fits_iff _).mpr hl
  · exact loseContainer_fits t

theorem desRead_inRange (magic : List Byte) {s : State} (h : s.des.br.InRange) :
    (desRead magic s).state.des.br.InRange := by
  have hr := desStream_inRange magic s.clearCt h
  rcases desRead_cases magic s with ⟨t, ht, e⟩ | ⟨c, sub, t, -, -, e⟩ <;> rw [e]
  · rw [ht] at hr; exact hr
  · exact loseUnpacker_inRange t.loseContainer .desBr

theorem brGet_wf {s : State} (h : s.mem.wf = true) : (unpackerGet .br 0 s).state.mem.wf = true := by
  rcases unpackerGet_cases .br 0 s with ⟨-, e⟩ | ⟨-, -, e⟩ | ⟨b, -, hb, -, e⟩ | ⟨b, -, -, -, e⟩ <;> rw [e]
  · exact h
  · exact h
  · exact advance_wf _ b hb
  · exact h

theorem brGet_inBounds {s : State} (h : s.InBounds) : (unpackerGet .br 0 s).state.InBounds := by
  have hf := brGet_frame s
  exact ⟨brGet_wf h.wf, by rw [hf.eq]; exact h.fits, unpackerGet_inRange .br 0 s h.br, by rw [hf.eq]; exact h.desBr⟩

theorem BwFrame.inBounds {s t : State} (hf : BwFrame s t) (h : s.InBounds) : t.InBounds := by
  rw [hf.eq]; exact ⟨h.wf, h.fits, h.br, h.desBr⟩

theorem SerFrame.wf {s t : State} (hf : SerFrame s t) (h : s.mem.wf = true) : t.mem.wf = true := by
  rw [Memory.wf, hf.src, hf.srcPos]; exact h

/-- Every command keeps the bounds, whichever way it ends. -/
theorem body_inBounds (i : Instr) {s : State} (h : s.InBounds) : (bodyOf i s).state.InBounds := by
  have hf := body_frame i s
  cases i with
  | sysReset => exact ⟨h.wf, rfl, opened_inRange, opened_inRange⟩
  | bitNew | bitEq | bitNe | bitShow => rw [hf]; exact h
  | bwOpen | bwPut | bwClose => exact hf.inBounds h
  | brOpen => exact ⟨h.wf, h.fits, opened_inRange, h.desBr⟩
  | brGet => exact Res.keeps_andThen (R := State.InBounds) (brGet_inBounds h) fun _ _ h => h
  | serWrite => exact ⟨hf.wf h.wf, serWrite_fits _ h.fits, by rw [hf.br]; exact h.br, by rw [hf.des]; exact h.desBr⟩
  | desRead => exact ⟨hf.wf h.wf, desRead_fits _ s, by rw [hf.br]; exact h.br, desRead_inRange _ h.desBr⟩

/-! ### The phases -/

theorem serWrite_ok_idle {magic : List Byte} {s u : State} {r : Result} (h : s.Idle) (e : serWrite magic s = .ok r u) :
    u.Idle := by
  have hf := serWrite_frame magic s
  rw [e] at hf
  rcases serWrite_cases magic s with ⟨sub, -, e'⟩ | ⟨-, t, -, e'⟩ | ⟨-, t, -, e'⟩ <;> rw [e] at e' <;> cases e'
  exact ⟨rfl, (congrArg Deserializer.phase hf.des).trans h.2⟩

theorem desRead_ok_idle {magic : List Byte} {s u : State} {r : Result} (h : s.Idle) (e : desRead magic s = .ok r u) :
    u.Idle := by
  have hf := desRead_frame magic s
  rw [e] at hf
  rcases desRead_cases magic s with ⟨t, -, e'⟩ | ⟨c, sub, t, -, -, e'⟩ <;> rw [e] at e' <;> cases e'
  exact ⟨(congrArg Serializer.phase hf.ser).trans h.1, rfl⟩

theorem BwFrame.idle {s t : State} (hf : BwFrame s t) (h : s.Idle) : t.Idle := by rw [hf.eq]; exact h

theorem BrFrame.idle {s t : State} (hf : BrFrame s t) (h : s.Idle) : t.Idle := by rw [hf.eq]; exact h

/-- A command that ends `ok` leaves both phases IDLE (R20). -/
theorem body_ok_idle {i : Instr} {s u : State} {r : Result} (h : s.Idle) (e : bodyOf i s = .ok r u) : u.Idle := by
  have hf := body_frame i s
  have hu : (bodyOf i s).state = u := by rw [e]; rfl
  rw [hu] at hf
  cases i with
  | sysReset => rw [hf]; exact ⟨rfl, rfl⟩
  | bitNew | bitEq | bitNe | bitShow => rw [hf]; exact h
  | bwOpen | bwPut | bwClose => exact hf.idle h
  | brOpen | brGet => exact hf.idle h
  | serWrite => exact serWrite_ok_idle h e
  | desRead => exact desRead_ok_idle h e

/-! ### The packers -/

/-- A piece of a command that leaves the packers ready, unless it raises SinkWriteFailure (log 21). -/
def Res.PacksOrFails {α : Type} (r : Res α) : Prop :=
  r.state.PackersReady ∨ ∃ u, r = .raised .sinkWriteFailure 0 u

theorem Res.PacksOrFails.andThen_ok {α β : Type} {r : Res α} (h : r.PacksOrFails) (f : α → β) :
    (r.andThen fun a u => .ok (f a) u).PacksOrFails := by
  rcases h with h | ⟨u, rfl⟩
  · exact .inl (Res.keeps_andThen (R := State.PackersReady) h fun _ _ h => h)
  · exact .inr ⟨u, rfl⟩

theorem bwPut_packers (b : Bit) {s : State} (h : s.PackersReady) : (packerPut .bw b s).PacksOrFails := by
  rcases packerPut_cases .bw b s with ⟨h7, e⟩ | ⟨-, -, e⟩ | ⟨-, -, e⟩ <;> rw [e]
  · exact .inl ⟨put_clean s.bw b h.1 h7, h.2⟩
  · exact .inl ⟨opened_clean, h.2⟩
  · exact .inr ⟨_, rfl⟩

theorem bwClose_packers {s : State} (h : s.PackersReady) : (packerClose .bw s).PacksOrFails := by
  rcases packerClose_cases .bw s with ⟨-, e⟩ | ⟨-, -, e⟩ | ⟨-, -, e⟩ <;> rw [e]
  · exact .inl ⟨opened_clean, h.2⟩
  · exact .inl ⟨opened_clean, h.2⟩
  · exact .inr ⟨_, rfl⟩

theorem serWrite_packers (magic : List Byte) {s : State} (h : s.PackersReady) : (serWrite magic s).PacksOrFails := by
  have hf := serWrite_frame magic s
  rcases serWrite_cases magic s with ⟨sub, -, e⟩ | ⟨-, t, ht, e⟩ | ⟨-, t, -, e⟩ <;> rw [e] at hf ⊢
  · exact .inl h
  · exact .inl ⟨hf.bw.symm ▸ h.1, (serStream_ok ht).2⟩
  · exact .inr ⟨_, rfl⟩

theorem BrFrame.packers {s t : State} (hf : BrFrame s t) (h : s.PackersReady) : t.PackersReady := by rw [hf.eq]; exact h

/-- Every command leaves the packers ready, unless it raises SinkWriteFailure. -/
theorem body_packers (i : Instr) {s : State} (h : s.PackersReady) : (bodyOf i s).PacksOrFails := by
  have hf := body_frame i s
  cases i with
  | sysReset => exact .inl ⟨opened_clean, rfl⟩
  | bitNew | bitEq | bitNe | bitShow => left; rw [hf]; exact h
  | bwOpen => exact .inl ⟨opened_clean, h.2⟩
  | bwPut b => exact (bwPut_packers b h).andThen_ok fun _ => Result.nothing
  | bwClose => exact (bwClose_packers h).andThen_ok fun _ => Result.nothing
  | brOpen | brGet => exact .inl (hf.packers h)
  | serWrite => exact serWrite_packers _ h
  | desRead => left; rw [State.PackersReady, hf.bw, hf.ser]; exact h

/-! ### The faults -/

/-- A fault of the table with a sub-cause of its own (R140, R141). -/
abbrev IsTableFault (c : Cause) (sub : BitVec 2) : Prop := sub ∈ c.subs

theorem Res.Raises.mono {α : Type} {P Q : Cause → BitVec 2 → Prop} {r : Res α} (h : r.Raises P)
    (hPQ : ∀ c sub, P c sub → Q c sub) : r.Raises Q := by
  cases r with
  | ok a s => trivial
  | raised c sub s => exact hPQ c sub h

theorem IsSinkFailure.table {c : Cause} {sub : BitVec 2} (h : IsSinkFailure c sub) : IsTableFault c sub := by
  obtain ⟨rfl, rfl⟩ := h; decide

theorem IsReadFault.table {c : Cause} {sub : BitVec 2} : IsReadFault c sub → IsTableFault c sub := by
  revert sub; cases c <;> decide

theorem bitNew_raises (v : Int) (s : State) : (bitNew v s).Raises IsTableFault := by
  unfold bitNew admission
  split_ifs
  · trivial
  · trivial
  · show IsTableFault .characterConfusion 0; decide
  · show IsTableFault .invalidBitValue 0; decide

theorem brGet_raises (s : State) : (unpackerGet .br 0 s).Raises IsTableFault := by
  rcases unpackerGet_cases .br 0 s with ⟨-, e⟩ | ⟨-, -, e⟩ | ⟨b, -, -, -, e⟩ | ⟨b, -, -, -, e⟩ <;> rw [e]
  · trivial
  · show IsTableFault .unexpectedEndOfInput 0; decide
  · trivial
  · show IsTableFault .sourceReadFailure 0; decide

theorem serWrite_raises (magic : List Byte) (s : State) : (serWrite magic s).Raises IsTableFault := by
  rcases serWrite_cases magic s with ⟨sub, hs, e⟩ | ⟨-, t, -, e⟩ | ⟨-, t, -, e⟩ <;> rw [e]
  · show IsTableFault .invariantViolation sub
    rcases hs with rfl | rfl <;> decide
  · trivial
  · show IsTableFault .sinkWriteFailure 0; decide

theorem desRead_raises (magic : List Byte) (s : State) : (desRead magic s).Raises IsTableFault := by
  rcases desRead_cases magic s with ⟨t, -, e⟩ | ⟨c, sub, t, hc, -, e⟩ <;> rw [e]
  · trivial
  · exact IsReadFault.table hc

/-- Every fault a command raises is one of the table. -/
theorem body_raises (i : Instr) (s : State) : (bodyOf i s).Raises IsTableFault := by
  cases i with
  | sysReset | bitEq | bitNe | bitShow | bwOpen | brOpen => trivial
  | bitNew v => exact bitNew_raises v s
  | bwPut b =>
    exact Res.raises_andThen ((packerPut_raises .bw b s).mono fun _ _ => IsSinkFailure.table) fun _ _ => trivial
  | bwClose =>
    exact Res.raises_andThen ((packerClose_raises .bw s).mono fun _ _ => IsSinkFailure.table) fun _ _ => trivial
  | brGet => exact Res.raises_andThen (brGet_raises s) fun _ _ => trivial
  | serWrite => exact serWrite_raises _ s
  | desRead => exact desRead_raises _ s

/-! ## The invariant -/

/-- Settles O52, part by part. -/
theorem powerOnMeetsTheInvariant : Obligations.PowerOnMeetsTheInvariant :=
  (inv_iff _).mpr ⟨⟨reset_wf, rfl, opened_inRange, opened_inRange⟩, ⟨rfl, rfl⟩, clear_legal, fun _ => ⟨opened_clean, rfl⟩⟩

/-- With no fault latched the invariant speaks of the packers. -/
theorem State.Inv.packersReady {s : State} (h : s.Inv) (h0 : s.Unlatched) : s.PackersReady := by
  obtain ⟨-, -, -, hpackers⟩ := (inv_iff s).mp h
  exact hpackers (by rw [h0]; decide)

theorem resetState_inv {s : State} (h : s.Inv) : s.resetState.Inv := by
  obtain ⟨hb, -⟩ := (inv_iff s).mp h
  exact (inv_iff _).mpr ⟨body_inBounds .sysReset hb, ⟨rfl, rfl⟩, clear_legal, fun _ => ⟨opened_clean, rfl⟩⟩

/-- A command that runs to its end. -/
theorem body_ok_inv {i : Instr} {s u : State} {r : Result} (hi : i ≠ .sysReset) (h0 : s.Unlatched) (h : s.Inv)
    (e : bodyOf i s = .ok r u) : u.Inv := by
  obtain ⟨hb, hp, hl, -⟩ := (inv_iff s).mp h
  have hb' := body_inBounds i hb
  have he := body_err hi s
  have hk := body_packers i (h.packersReady h0)
  rw [e] at hb' he hk
  refine (inv_iff u).mpr ⟨hb', body_ok_idle hp e, ?_, fun _ => ?_⟩
  · rw [show u.err = s.err from he]; exact hl
  · rcases hk with hk | ⟨v, hv⟩
    · exact hk
    · cases hv

/-- A command that takes a fault. -/
theorem body_raised_inv {i : Instr} {s u : State} {c : Cause} {sub : BitVec 2} (h0 : s.Unlatched) (h : s.Inv)
    (e : bodyOf i s = .raised c sub u) : (u.takeFault c sub).Inv := by
  obtain ⟨hb, -⟩ := (inv_iff s).mp h
  have hb' := body_inBounds i hb
  have hr := body_raises i s
  have hk := body_packers i (h.packersReady h0)
  rw [e] at hb' hr hk
  refine (inv_iff _).mpr
    ⟨⟨hb'.wf, hb'.fits, hb'.br, hb'.desBr⟩, ⟨rfl, rfl⟩, legal_of_mem_subs c sub hr, fun hc => ?_⟩
  rcases hk with hk | ⟨v, hv⟩
  · exact hk
  · cases hv; exact absurd rfl hc

theorem exec_keeps_inv {i : Instr} {s t : State} (h : s.Inv) (ht : exec i s = .next t) : t.Inv := by
  rcases exec_next_cases ht with ⟨-, rfl⟩ | ⟨-, -, rfl⟩ | ⟨hi, h0, r, u, e, rfl⟩ | ⟨-, h0, c, sub, u, e, rfl⟩
  · exact resetState_inv (s := s) h
  · exact h
  · exact body_ok_inv (u := u) hi h0 h e
  · exact body_raised_inv (u := u) h0 h e

/-- Settles O51: a load brings a container that fits, and a command keeps each part of the invariant. -/
theorem stepKeepsTheInvariant : Obligations.StepKeepsTheInvariant := by
  intro s t h ht
  rcases step_next_cases ht with rfl | ⟨c, hc, rfl⟩ | rfl | ⟨i, hi⟩
  · exact h
  · obtain ⟨hb, hrest⟩ := (inv_iff s).mp h
    exact (inv_iff _).mpr ⟨⟨hb.wf, hc, hb.br, hb.desBr⟩, hrest⟩
  · exact h
  · exact exec_keeps_inv (s := s.popHost) h hi

end Sys2Proof.Machine
end

section
/-! PROOF. The statement of 20_memory.md: a read that the environment fails ends DES.READ (R35, R37). -/

namespace Sys2Proof.Machine

/-- What keeps to the frame of DES.READ is the state before it but for CT, DES, the source position, the answers taken and the
free values. -/
theorem DesFrame.eq {s t : State} (h : DesFrame s t) :
    t = { s with ct := t.ct, des := t.des, mem.srcPos := t.mem.srcPos, srcAns := t.srcAns, free := t.free } := by
  obtain ⟨bw, br, ser, des, ct, err, ⟨snk, src, srcPos⟩, snkAns, srcAns, host, resp, free⟩ := t
  obtain ⟨rfl, rfl, rfl, rfl, rfl, rfl, rfl, rfl, rfl, -, -⟩ := h
  rfl

/-- Giving up what a fault leaves undefined takes no answer, so DES.READ fails where its steps 1 to 6 do. -/
theorem desRead_fails (magic : List Byte) (s : State) :
    FailsWithin (desRead magic s) s (bytesTaken magic s.mem.unread) := by
  intro k hk hdelivered hfailed
  obtain ⟨u, e, hans⟩ := desStream_fails magic s.clearCt rfl k hk hdelivered hfailed
  exact ⟨u.abandonDes .sourceReadFailure s.mem.srcPos, by rw [desRead, e], hans⟩

/-- Settles O40: the command ends as the read does, and its frame says what else is as it was. -/
theorem desReadFailsAtAByte : Obligations.DesReadFailsAtAByte := by
  intro s k hs hk hdelivered hfailed
  obtain ⟨u, e, hans⟩ := desRead_fails Config.magicBytes s k hk hdelivered hfailed
  have hframe : DesFrame s u := by simpa only [e, state_raised] using desRead_frame Config.magicBytes s
  refine ⟨u.takeFault .sourceReadFailure 0, exec_desRead_raised hs e, ?_⟩
  rw [← hans]
  exact congrArg (fun v : State => v.takeFault .sourceReadFailure 0) hframe.eq

end Sys2Proof.Machine
end

section
/-! PROOF. The statements of 30_encoding.md: the command table (R62), the reserved codes (R63), decode of encode (R61, R62), the
arithmetic of the leaf count (R52, R65) and the five fields of a container (R50). -/

namespace Sys2Proof.Machine

/-! ## The command table -/

/-- Settles O1: the two fields of each code compute and pick its row, whatever the operands. -/
theorem assignedCodesDecode : Obligations.AssignedCodesDecode := by
  intro v a b
  simp only [decode, decodeCmd]
  exact ⟨rfl, rfl, rfl, rfl, rfl, rfl, rfl, rfl, rfl, rfl, rfl, rfl⟩

/-- An assigned code decodes, and to a command that the encoder gives the same code (R62). -/
theorem decode_assigned {cmd : BitVec 8} (h : cmd ∈ assignedCodes) (v : Int) (a b : Bit) :
    ∃ i, decode ⟨cmd, v, a, b⟩ = .instr i ∧ (encode i).cmd = cmd := by
  obtain ⟨sysReset, bitNew, bitEq, bitNe, bitShow, bwOpen, bwPut, bwClose, brOpen, brGet, serWrite, desRead⟩ :=
    assignedCodesDecode v a b
  simp only [assignedCodes, List.mem_cons, List.not_mem_nil, or_false] at h
  rcases h with rfl | rfl | rfl | rfl | rfl | rfl | rfl | rfl | rfl | rfl | rfl | rfl
  · exact ⟨_, sysReset, rfl⟩
  · exact ⟨_, bitNew, rfl⟩
  · exact ⟨_, bitEq, rfl⟩
  · exact ⟨_, bitNe, rfl⟩
  · exact ⟨_, bitShow, rfl⟩
  · exact ⟨_, bwOpen, rfl⟩
  · exact ⟨_, bwPut, rfl⟩
  · exact ⟨_, bwClose, rfl⟩
  · exact ⟨_, brOpen, rfl⟩
  · exact ⟨_, brGet, rfl⟩
  · exact ⟨_, serWrite, rfl⟩
  · exact ⟨_, desRead, rfl⟩

/-- Only an assigned code decodes to a command (R63). -/
theorem assigned_of_decode {p : Port} {i : Instr} (h : decode p = .instr i) : p.cmd ∈ assignedCodes := by
  by_contra hc
  rw [decode, decodeCmd_reserved hc] at h
  cases h

@[simp] theorem unitField_codeOf (unit func : BitVec 4) : unitField (codeOf unit func) = unit := by
  rw [unitField, codeOf, BitVec.extractLsb'_append_eq_left]

@[simp] theorem funcField_codeOf (unit func : BitVec 4) : funcField (codeOf unit func) = func := by
  rw [funcField, codeOf, BitVec.extractLsb'_append_eq_right]

/-- The decoder takes the encoder's code apart into the two fields it was made of, command by command (R61, R62). -/
theorem decode_encode (i : Instr) : decode (encode i) = .instr i := by
  cases i <;> simp [encode, portOfCode, decode, decodeCmd]

/-- Settles O3: what decodes is an assigned code, and the table's row has the command of that code alone. -/
theorem decodeAndEncodeAgree : Obligations.DecodeAndEncodeAgree := by
  refine ⟨fun i _ => decode_encode i, fun p i h => ?_⟩
  have hc : p.cmd ∈ assignedCodes := assigned_of_decode h
  obtain ⟨j, hj, hcode⟩ := decode_assigned hc p.opv p.opa p.opb
  obtain rfl : j = i := Decoded.instr.inj (hj.symm.trans h)
  exact ⟨List.contains_iff_mem.mpr hc, hcode⟩

/-! ## Reserved codes and unused operands -/

theorem step_reserved {s : State} {p : Port} {rest : List HostAction} (hh : s.host = .issue p :: rest)
    (hc : p.cmd ∉ assignedCodes) : step s = refuseCode s.popHost := by
  simp only [step, hh, decode, decodeCmd_reserved hc]

/-- A command with no operand ignores all three inputs (R63). -/
theorem decodeCmd_without_operands {cmd : BitVec 8} (h : cmd ∈ [0x00, 0x20, 0x22, 0x30, 0x31, 0x40, 0x50])
    (v v' : Int) (a a' b b' : Bit) : decodeCmd cmd v a b = decodeCmd cmd v' a' b' := by
  simp only [List.mem_cons, List.not_mem_nil, or_false] at h
  rcases h with rfl | rfl | rfl | rfl | rfl | rfl | rfl <;> rfl

/-- BIT.NEW uses `opv` alone (R62, R63). -/
theorem decodeCmd_with_opv (v : Int) (a a' b b' : Bit) : decodeCmd 0x10 v a b = decodeCmd 0x10 v a' b' := rfl

/-- BIT.SHOW and BW.PUT use `opa` alone (R62, R63). -/
theorem decodeCmd_with_opa {cmd : BitVec 8} (h : cmd ∈ [0x13, 0x21]) (v v' : Int) (a b b' : Bit) :
    decodeCmd cmd v a b = decodeCmd cmd v' a b' := by
  simp only [List.mem_cons, List.not_mem_nil, or_false] at h
  rcases h with rfl | rfl <;> rfl

/-- BIT.EQ and BIT.NE ignore `opv` (R62, R63). -/
theorem decodeCmd_with_opa_opb {cmd : BitVec 8} (h : cmd ∈ [0x11, 0x12]) (v v' : Int) (a b : Bit) :
    decodeCmd cmd v a b = decodeCmd cmd v' a b := by
  simp only [List.mem_cons, List.not_mem_nil, or_false] at h
  rcases h with rfl | rfl <;> rfl

theorem reservedCodes_count : ((List.range 256).filter fun n => !assignedCodes.contains (BitVec.ofNat 8 n)).length = 244 := by
  set_option maxRecDepth 8000 in decide

/-- Settles O2: the step on a reserved code, the count over all codes, and the decoder by which operands a command uses. -/
theorem reservedCodesAreRefused : Obligations.ReservedCodesAreRefused := by
  refine ⟨fun s p rest hh hc => ?_, reservedCodes_count, ?_⟩
  · rw [step_reserved hh hc, popHost_eq hh]; rfl
  · rintro ⟨cmd, v, a, b⟩ ⟨_, v', a', b'⟩ rfl
    refine ⟨fun h => decodeCmd_without_operands h _ _ _ _ _ _, ?_, ?_, ?_⟩
    · rintro rfl rfl
      exact decodeCmd_with_opv _ _ _ _ _
    · rintro h rfl
      exact decodeCmd_with_opa h _ _ _ _ _
    · rintro h rfl rfl
      exact decodeCmd_with_opa_opb h _ _ _ _

/-! ## The leaf count and the trailing-bit count -/

/-- The bias fits the byte: L − 1 is at most 255 (R52). -/
theorem toNat_biasedCount {L : Nat} (h : L ≤ 256) : (biasedCount L).toNat = L - 1 := by
  rw [biasedCount, BitVec.toNat_ofNat, Nat.mod_eq_of_lt (by omega)]

/-- Settles O29: the bias taken off and put back, each as integers within the field's range. -/
theorem leafCountFieldArithmetic : Obligations.LeafCountFieldArithmetic := by
  refine ⟨fun L h2 h256 => ?_, fun b => ⟨toNat_unbiasedCount b, ?_⟩⟩
  · have hb : (biasedCount L).toNat = L - 1 := toNat_biasedCount h256
    exact ⟨by rw [toNat_unbiasedCount, hb]; omega, hb⟩
  · rw [toNat_unbiasedCount, ← BitVec.toNat_inj, show (0 : Byte).toNat = 0 from rfl]
    omega

/-- The trailing-bit count, 1 to 8, fits its byte (R54). -/
theorem toNat_tbcByte (n : Nat) : (BitVec.ofNat 8 (tbc n)).toNat = tbc n := by
  have := tbc_range n
  rw [BitVec.toNat_ofNat, Nat.mod_eq_of_lt (by omega)]

theorem tbc_mod (n : Nat) : tbc n % 8 = n % 8 := by
  unfold tbc
  split <;> omega

/-! ## The five fields of a container -/

theorem encodeContainer_fields (magic : List Byte) (c : Container) : encodeContainer magic c =
    magic ++ biasedCount c.leaves.length :: (c.leaves ++ BitVec.ofNat 8 (tbc (containerBits c)) ::
      pack (c.shape ++ c.msg)) := by
  simp [encodeContainer]

section Fields
variable {magic : List Byte} (hm : magic.length = 4) (b t : Byte) (leaves region : List Byte)
include hm

theorem fields_take_magic (rest : List Byte) : (magic ++ rest).take 4 = magic := by
  rw [← hm, List.take_left]

theorem fields_count (rest : List Byte) : (magic ++ b :: rest)[4]? = some b := by
  rw [← hm, List.getElem?_append_right le_rfl, Nat.sub_self, List.getElem?_cons_zero]

theorem fields_drop_count (rest : List Byte) : (magic ++ b :: rest).drop 5 = rest := by
  rw [show 5 = magic.length + 1 by rw [hm], ← List.drop_drop, List.drop_left, List.drop_one, List.tail_cons]

theorem fields_tbc : (magic ++ b :: (leaves ++ t :: region))[5 + leaves.length]? = some t := by
  rw [← List.getElem?_drop, fields_drop_count hm, List.getElem?_append_right le_rfl, Nat.sub_self,
    List.getElem?_cons_zero]

theorem fields_drop_tbc : (magic ++ b :: (leaves ++ t :: region)).drop (6 + leaves.length) = region := by
  rw [show 6 + leaves.length = 5 + (leaves.length + 1) by omega, ← List.drop_drop, fields_drop_count hm,
    ← List.drop_drop, List.drop_left, List.drop_one, List.tail_cons]

end Fields

/-- The length of what R50 concatenates. -/
theorem encodeContainer_length (magic : List Byte) (c : Container) : (encodeContainer magic c).length =
    magic.length + 2 + c.leaves.length + (containerBits c + 7) / 8 := by
  rw [encodeContainer_fields]
  simp only [List.length_append, List.length_cons, pack_length, containerBits]
  omega

/-- Settles O28: each field is read at its offset, the four before it having their lengths. -/
theorem containerFields : Obligations.ContainerFields := by
  intro magic c hm _ h256
  have hlen := encodeContainer_length magic c
  have ht := tbc_range (containerBits c)
  rw [hm] at hlen
  rw [encodeContainer_fields] at hlen ⊢
  refine ⟨hlen, fields_take_magic hm _, ⟨_, fields_count hm _ _, toNat_biasedCount h256⟩, ?_,
    ⟨_, fields_tbc hm _ _ _ _, ?_⟩, fields_drop_tbc hm _ _ _ _⟩
  · rw [fields_drop_count hm, List.take_left]
  · rw [toNat_tbcByte]
    exact ⟨ht.1, ht.2, tbc_mod _⟩

end Sys2Proof.Machine
end

section
/-! PROOF. The statements of 40_bit.md: the results of the Bit unit (R71 to R76), and the frame of the commands that store nothing
(R71 to R74, R92, R120, R145). -/

namespace Sys2Proof.Machine

/-! ## The frame of the commands that store nothing -/

/-- A command that does not store keeps both streams' bytes; only the source position may move. -/
theorem exec_keeps_bytes {i : Instr} {s t : State} (h : exec i s = .next t)
    (hi : i ∉ [Instr.bwPut 0, .bwPut 1, .bwClose, .serWrite]) : t.mem.snk = s.mem.snk ∧ t.mem.src = s.mem.src := by
  obtain ⟨-, -, -, -, -, -, -, hsnk, -, hsrc, -⟩ := whoWritesWhat i s t h
  exact ⟨by_contra fun hne => hi (hsnk (.inl hne)), hsrc⟩

/-- A command whose body changes no state writes at most what taking a fault writes (R145). -/
theorem exec_frame_of_body_state {i : Instr} {s t : State} (h : exec i s = .next t) (hb : (bodyOf i s).state = s) :
    t = { s with err := t.err, ser.phase := t.ser.phase, des.phase := t.des.phase, resp := t.resp } := by
  obtain ⟨u, hu, ht⟩ := exec_frame h
  obtain rfl : u = s := hu.elim id (·.trans hb)
  exact ht

/-- A command whose body ends `ok` in the state it began in writes the response alone. -/
theorem exec_frame_of_body_ok {i : Instr} {s t : State} {r : Result} (h : exec i s = .next t) (hi : i ≠ .sysReset)
    (hb : bodyOf i s = .ok r s) : t = { s with resp := t.resp } := by
  rcases exec_next_cases h with ⟨hreset, -⟩ | ⟨-, -, rfl⟩ | ⟨-, -, r', u, e, rfl⟩ | ⟨-, -, c, sub, u, e, -⟩
  · exact absurd hreset hi
  · rfl
  · rw [hb] at e; cases e; rfl
  · rw [hb] at e; cases e

theorem BrFrame.refl (s : State) : BrFrame s s := ⟨rfl, le_rfl⟩

theorem exec_brGet_frame {s t : State} (h : exec .brGet s = .next t) :
    t = { s with
          br := t.br, mem.srcPos := t.mem.srcPos, err := t.err, ser.phase := t.ser.phase, des.phase := t.des.phase
          srcAns := t.srcAns, free := t.free, resp := t.resp } := by
  obtain ⟨u, hu, ht⟩ := exec_frame h
  have hf : BrFrame s u := by
    rcases hu with rfl | rfl
    · exact .refl _
    · exact body_frame .brGet s
  rw [ht, hf.eq]

theorem exec_desRead_frame {s t : State} (h : exec .desRead s = .next t) :
    t = { s with
          ct := t.ct, mem.srcPos := t.mem.srcPos, err := t.err, ser.phase := t.ser.phase, des := t.des
          srcAns := t.srcAns, free := t.free, resp := t.resp } := by
  obtain ⟨u, hu, ht⟩ := exec_frame h
  have hf : DesFrame s u := by
    rcases hu with rfl | rfl
    · exact .refl _
    · exact body_frame .desRead s
  rw [ht, hf.eq]

/-- Settles O47, from the frame of each command; of the Bit unit only BIT.NEW can fault. -/
theorem frameOfNonStoringCommands : Obligations.FrameOfNonStoringCommands := by
  intro i s t h
  refine ⟨fun hi a => ?_, ?_, ?_, ?_⟩
  · obtain ⟨hsnk, hsrc⟩ := exec_keeps_bytes h hi
    rw [Memory.snkByte, Memory.snkByte, Memory.srcByte, Memory.srcByte, hsnk, hsrc]
    exact ⟨rfl, rfl⟩
  · rintro (⟨v, rfl⟩ | ⟨a, b, rfl⟩ | ⟨a, b, rfl⟩ | ⟨a, rfl⟩)
    · exact ⟨exec_frame_of_body_state h (body_frame (.bitNew v) s), fun hne => absurd rfl (hne v)⟩
    · exact ⟨exec_frame_of_body_state h rfl, fun _ => exec_frame_of_body_ok h nofun rfl⟩
    · exact ⟨exec_frame_of_body_state h rfl, fun _ => exec_frame_of_body_ok h nofun rfl⟩
    · exact ⟨exec_frame_of_body_state h rfl, fun _ => exec_frame_of_body_ok h nofun rfl⟩
  · rintro rfl
    exact exec_brGet_frame h
  · rintro rfl
    exact exec_desRead_frame h

/-! ## The results of the Bit unit -/

/-- Settles O8: the tests of BIT.NEW's admission in the order of its pseudocode, each with the next state it leads to. -/
theorem bitNewResult : Obligations.BitNewResult := by
  intro s v hs
  rw [exec_bitNew hs, admission]
  split_ifs
  · rfl
  · rfl
  · rfl
  · rfl

theorem bitOfBool_beq (a b : Bit) : bitOfBool (a == b) = if a = b then 1 else 0 := by
  simp only [bitOfBool, beq_iff_eq]

theorem bitOfBool_bne (a b : Bit) : bitOfBool (a != b) = if a = b then 0 else 1 := by
  simp only [bitOfBool, bne_iff_ne, ite_not]

/-- Settles O10: both comparisons are decided by whether the Bits are equal. -/
theorem bitComparisonResults : Obligations.BitComparisonResults := by
  intro s a b hs
  rw [exec_bitEq hs, exec_bitNe hs, bitOfBool_beq, bitOfBool_bne]
  exact ⟨rfl, rfl⟩

theorem charCode_one : charCode '1' = Config.charOne := rfl

theorem charCode_zero : charCode '0' = Config.charZero := rfl

/-- Settles O11, by the execution of BIT.SHOW and the numbers of the two characters. -/
theorem bitShowResult : Obligations.BitShowResult :=
  fun _ b hs => ⟨exec_bitShow hs b, charCode_one, charCode_zero⟩

/-- The number of a rendering is one of the two character codes, which BIT.NEW tests for (R71, R76). -/
theorem admission_charCode_rendering (b : Bit) : admission (charCode (rendering b)) = .refuse .characterConfusion := by
  rcases BitVec.eq_zero_or_eq_one b with rfl | rfl
  · exact admission_characterCode (v := charCode '0') (by decide)
  · exact admission_characterCode (v := charCode '1') (by decide)

/-- Settles O12: BIT.SHOW leaves the latch clear, so BIT.NEW runs and refuses the number of the rendering. -/
theorem renderingFedBackIsConfusion : Obligations.RenderingFedBackIsConfusion := by
  intro s b hs
  have hshow : (s.respond (.ok (.char (rendering b)))).Unlatched := hs
  exact ⟨_, _, rendering b, exec_bitShow hs b, rfl,
    exec_bitNew_refuse hshow (admission_charCode_rendering b), rfl, rfl⟩

end Sys2Proof.Machine
end

section
/-! PROOF. The statements of 41_bit_writer.md: what BW.OPEN, BW.PUT and BW.CLOSE do (R81, R82, R83), the law of the packer (R84),
and the frame of the commands that store (R32, R33, R82, R83, R100). -/

namespace Sys2Proof.Machine

/-! ## What each command of the packer does with no fault latched -/

/-- The state after the sink failed the byte of a put or a close: SinkWriteFailure is latched, and the sink's tail and BW are free
values (R33, R145, U8, U17). -/
def State.afterFailedWrite (s : State) : State :=
  (({ s.loseSink with snkAns := s.snkAns.tail } : State).losePacker .bw).takeFault .sinkWriteFailure 0

theorem afterFailedWrite_snk (s : State) : s.mem.snk <+: s.afterFailedWrite.mem.snk := List.prefix_append _ _

section
variable {s t : State} {b : Bit} (hs : s.Unlatched)
include hs

/-- A put that leaves the group incomplete (R82). -/
theorem exec_bwPut_room (h : s.bw.cnt ≠ 7) :
    exec (.bwPut b) s = .next
      { s with bw := { acc := s.bw.with b, cnt := s.bw.cnt + 1 }, resp := .ok .nothing } :=
  exec_bwPut_ok hs (if_neg h)

/-- The put that completes a group (R82). -/
theorem exec_bwPut_full (h : s.bw.cnt = 7) (ha : s.writeAnswer = .accepted) :
    exec (.bwPut b) s = .next
      { s.acceptByte (s.bw.with b) with bw := Packer.opened, resp := .ok .nothing } := by
  rcases packerPut_cases .bw b s with ⟨h', -⟩ | ⟨-, -, e⟩ | ⟨-, ha', -⟩
  · exact absurd h h'
  · exact exec_bwPut_ok hs e
  · rw [ha] at ha'; cases ha'

/-- The put whose byte the sink fails (R82, R33). -/
theorem exec_bwPut_failed (h : s.bw.cnt = 7) (ha : s.writeAnswer = .failed) :
    exec (.bwPut b) s = .next s.afterFailedWrite := by
  rcases packerPut_cases .bw b s with ⟨h', -⟩ | ⟨-, ha', -⟩ | ⟨-, -, e⟩
  · exact absurd h h'
  · rw [ha] at ha'; cases ha'
  · exact exec_bwPut_raised hs e

/-- A close with nothing pending (R83). -/
theorem exec_bwClose_empty (h : s.bw.cnt = 0) :
    exec .bwClose s = .next { s with bw := Packer.opened, resp := .ok .nothing } :=
  exec_bwClose_ok hs (if_pos h)

/-- A close that flushes the pending bits (R83). -/
theorem exec_bwClose_pending (h : s.bw.cnt ≠ 0) (ha : s.writeAnswer = .accepted) :
    exec .bwClose s = .next { s.acceptByte s.bw.acc with bw := Packer.opened, resp := .ok .nothing } := by
  rcases packerClose_cases .bw s with ⟨h', -⟩ | ⟨-, -, e⟩ | ⟨-, ha', -⟩
  · exact absurd h' h
  · exact exec_bwClose_ok hs e
  · rw [ha] at ha'; cases ha'

/-- A close whose byte the sink fails (R83, R33). -/
theorem exec_bwClose_failed (h : s.bw.cnt ≠ 0) (ha : s.writeAnswer = .failed) :
    exec .bwClose s = .next s.afterFailedWrite := by
  rcases packerClose_cases .bw s with ⟨h', -⟩ | ⟨-, ha', -⟩ | ⟨-, -, e⟩
  · exact absurd h' h
  · rw [ha] at ha'; cases ha'
  · exact exec_bwClose_raised hs e

/-- A put that ends `ok` keeps the bits above the pending ones zero (R13). -/
theorem exec_bwPut_keeps_clean (hc : s.bw.Clean) (ht : exec (.bwPut b) s = .next t) (hr : t.resp = .ok .nothing) :
    t.bw.Clean := by
  by_cases h : s.bw.cnt = 7
  · rcases writeAnswer_eq s with ha | ha
    · rw [exec_bwPut_full hs h ha] at ht; cases ht; exact opened_clean
    · rw [exec_bwPut_failed hs h ha] at ht; cases ht; cases hr
  · rw [exec_bwPut_room hs h] at ht; cases ht; exact put_clean s.bw b hc h

end

/-- The eighth bit of a group goes to bit 7 (R82). -/
theorem with_of_full {p : Packer} (h : p.cnt = 7) (b : Bit) : p.with b = p.acc ||| b.setWidth 8 <<< 7 := by
  rw [Packer.with, h]; rfl

/-- Settles O13: the registers are cleared, and a put and a close run under the guard on the latch alone. -/
theorem bwOpenResult : Obligations.BwOpenResult := by
  intro s hs
  refine ⟨exec_bwOpen hs, fun i hi => ?_⟩
  have hne : i ≠ .sysReset ∧ i ≠ .serWrite := by constructor <;> (rintro rfl; exact absurd hi (by decide))
  rw [exec_eq_run hne.1 fun h => absurd h hne.2]
  exact runCommand_unlatched_not_refused _ hs

/-- Settles O14, by the count of pending bits and the sink's answer. -/
theorem bwPutResult : Obligations.BwPutResult := by
  refine fun s b hs => ⟨exec_bwPut_room hs, fun h ha => ?_, fun h ha => ?_, fun t => exec_bwPut_keeps_clean hs⟩
  · rw [exec_bwPut_full hs h ha, with_of_full h]; rfl
  · exact ⟨_, exec_bwPut_failed hs h ha, afterFailedWrite_snk s, rfl⟩

/-- Settles O15, by the count of pending bits and the sink's answer. -/
theorem bwCloseResult : Obligations.BwCloseResult :=
  fun s hs => ⟨exec_bwClose_empty hs, exec_bwClose_pending hs,
    fun h ha => ⟨_, exec_bwClose_failed hs h ha, afterFailedWrite_snk s, rfl⟩⟩

/-! ## The law of the packer -/

/-- A close, for a sink that never fails: it appends what it flushes. -/
theorem exec_bwClose_never {s : State} (hs : s.Unlatched) (hn : s.SinkNeverFails) :
    exec .bwClose s = .next
      { s with
        bw := Packer.opened
        mem.snk := s.mem.snk ++ flushed s.bw
        snkAns := s.snkAns.drop (flushed s.bw).length
        resp := .ok .nothing } := by
  by_cases h : s.bw.cnt = 0
  · rw [exec_bwClose_empty hs h, flushed, if_pos h, List.append_nil]; rfl
  · rw [exec_bwClose_pending hs h (writeAnswer_of_never hn), flushed, if_neg h, List.length_singleton, List.drop_one]; rfl

/-- An open and some puts, for a sink that never fails, in terms of what an open packer emits and holds. -/
theorem execAll_open_puts {s : State} (hs : s.Unlatched) (hn : s.SinkNeverFails) (bits : List Bit) :
    execAll (.bwOpen :: bits.map .bwPut) s = .next
      { s with
        bw := (feed Packer.opened bits).2
        mem.snk := s.mem.snk ++ (feed Packer.opened bits).1
        snkAns := s.snkAns.drop (feed Packer.opened bits).1.length
        resp := .ok .nothing } := by
  rw [execAll, exec_bwOpen hs]
  exact execAll_puts bits ((packerOpen .bw s).respond (.ok .nothing)) hs hn rfl

/-- Settles O17: what an open packer emits and holds after the puts, in closed form. -/
theorem pendingBitsBeforeTheClose : Obligations.PendingBitsBeforeTheClose := by
  intro s bits hs hn
  have hlen : (pack (bits.take (8 * (bits.length / 8)))).length = bits.length / 8 := by
    rw [pack_length, List.length_take]; omega
  rw [execAll_open_puts hs hn, feed_opened, hlen]

/-- Settles O16: what the puts emit and the close flushes is pack of the bits. -/
theorem packerLaw : Obligations.PackerLaw := by
  intro s bits hs hn
  refine ⟨?_, pack_length bits⟩
  have hlen := pack_length bits
  rw [← feed_flushed, List.length_append] at hlen
  rw [execAll_append _ _ _ _ (execAll_open_puts hs hn bits), execAll, exec_bwClose_never]
  · simp only [execAll, List.append_assoc, List.drop_drop, feed_flushed, hlen]
    rfl
  · exact hs
  · exact fun a ha => hn a (List.mem_of_mem_drop ha)

/-! ## The frame of the commands that store -/

/-- Where bytes were appended to the sink, an address outside them reads as before (R32). -/
theorem snkByte_append_outside {m n : Memory} {bs : List Byte} (h : n.snk = m.snk ++ bs) {a : Nat}
    (ha : a < m.snkAddr ∨ m.snkAddr + bs.length ≤ a) : n.snkByte a = m.snkByte a := by
  rw [Memory.snkByte, Memory.snkByte, h]
  rcases ha with ha | ha
  · exact List.getElem?_append_left ha
  · have hm : m.snk.length + bs.length ≤ a := ha
    rw [List.getElem?_eq_none (by rw [List.length_append]; exact hm), List.getElem?_eq_none (by omega)]

/-- From s to t the sink is as it was or, where a byte is due, it has one byte more or has failed that byte. -/
def StoresOneIf (due : Prop) (s t : State) : Prop :=
  t.mem.snk = s.mem.snk ∨ due ∧ (t.resp = .fault .sinkWriteFailure 0 ∨ ∃ b, t.mem.snk = s.mem.snk ++ [b])

section
variable {due : Prop} {s t : State}

theorem StoresOneIf.snkByte_of_not_due (h : StoresOneIf due s t) (hd : ¬ due) (a : Nat) :
    t.mem.snkByte a = s.mem.snkByte a := by
  rcases h with h | ⟨hd', -⟩
  · exact congrArg (·[a]?) h
  · exact absurd hd' hd

theorem StoresOneIf.snkByte (h : StoresOneIf due s t) {a : Nat} (ha : a ≠ s.mem.snkAddr)
    (hr : t.resp ≠ .fault .sinkWriteFailure 0) : t.mem.snkByte a = s.mem.snkByte a := by
  rcases h with h | ⟨-, h | ⟨b, h⟩⟩
  · exact congrArg (·[a]?) h
  · exact absurd h hr
  · exact snkByte_append_outside h (by rw [List.length_singleton]; omega)

theorem exec_bwPut_storesOneIf {b : Bit} (h : exec (.bwPut b) s = .next t) : StoresOneIf (s.bw.cnt = 7) s t := by
  by_cases hs : s.Unlatched
  · by_cases h7 : s.bw.cnt = 7
    · rcases writeAnswer_eq s with ha | ha
      · rw [exec_bwPut_full hs h7 ha] at h; cases h; exact .inr ⟨h7, .inr ⟨_, rfl⟩⟩
      · rw [exec_bwPut_failed hs h7 ha] at h; cases h; exact .inr ⟨h7, .inl rfl⟩
    · rw [exec_bwPut_room hs h7] at h; cases h; exact .inl rfl
  · cases (runCommand_latched (bodyOf (.bwPut b)) hs).symm.trans h; exact .inl rfl

theorem exec_bwClose_storesOneIf (h : exec .bwClose s = .next t) : StoresOneIf (s.bw.cnt ≠ 0) s t := by
  by_cases hs : s.Unlatched
  · by_cases h0 : s.bw.cnt = 0
    · rw [exec_bwClose_empty hs h0] at h; cases h; exact .inl rfl
    · rcases writeAnswer_eq s with ha | ha
      · rw [exec_bwClose_pending hs h0 ha] at h; cases h; exact .inr ⟨h0, .inr ⟨_, rfl⟩⟩
      · rw [exec_bwClose_failed hs h0 ha] at h; cases h; exact .inr ⟨h0, .inl rfl⟩
  · cases (runCommand_latched (bodyOf .bwClose) hs).symm.trans h; exact .inl rfl

/-- What keeps to the frame of the standalone packer's commands is the state before but for BW, the sink, the answers taken, the
free values, and what a fault writes. -/
theorem exec_frame_of_bwFrame {i : Instr} (h : exec i s = .next t) (hb : BwFrame s (bodyOf i s).state) :
    t = { s with
          bw := t.bw, mem.snk := t.mem.snk, err := t.err, ser.phase := t.ser.phase, des.phase := t.des.phase
          snkAns := t.snkAns, free := t.free, resp := t.resp } := by
  obtain ⟨u, hu, ht⟩ := exec_frame h
  have hf : BwFrame s u := by
    rcases hu with rfl | rfl
    · exact ⟨rfl, List.prefix_refl _⟩
    · exact hb
  rw [ht, hf.eq]

theorem SerFrame.eq (h : SerFrame s t) :
    t = { s with ct := t.ct, ser := t.ser, mem.snk := t.mem.snk, snkAns := t.snkAns, free := t.free } := by
  obtain ⟨bw, br, ser, des, ct, err, ⟨snk, src, srcPos⟩, snkAns, srcAns, host, resp, free⟩ := t
  obtain ⟨rfl, rfl, rfl, rfl, rfl, rfl, rfl, rfl, rfl, -⟩ := h
  rfl

theorem exec_serWrite_frame (h : exec .serWrite s = .next t) :
    t = { s with
          ct := t.ct, ser := t.ser, mem.snk := t.mem.snk, err := t.err, des.phase := t.des.phase
          snkAns := t.snkAns, free := t.free, resp := t.resp } := by
  obtain ⟨u, hu, ht⟩ := exec_frame h
  have hf : SerFrame s u := by
    rcases hu with rfl | rfl
    · exact .refl _
    · exact body_frame .serWrite s
  rw [ht, hf.eq]

/-- SER.WRITE that ends `ok` appended exactly encode of CT (R108). -/
theorem exec_serWrite_ok_snk (h : exec .serWrite s = .next t) (hr : t.resp = .ok .nothing) :
    t.mem.snk = s.mem.snk ++ encodeContainer Config.magicBytes s.ct := by
  rcases exec_next_cases h with ⟨hi, -⟩ | ⟨-, -, rfl⟩ | ⟨-, -, r, u, e, rfl⟩ | ⟨-, -, c, sub, u, -, rfl⟩
  · cases hi
  · cases hr
  · rcases serWrite_cases Config.magicBytes s with ⟨sub, -, e'⟩ | ⟨-, v, hv, e'⟩ | ⟨-, v, -, e'⟩
    · cases e'.symm.trans e
    · cases e'.symm.trans e
      rw [(serStream_emits Config.magicBytes (s.enterSer .check)).of_ok hv]
      rfl
    · cases e'.symm.trans e
  · cases hr

end

/-- Settles O48: the frame of each command that stores, and the bytes it appends; the sink grows at its end alone. -/
theorem frameOfStoringCommands : Obligations.FrameOfStoringCommands := by
  intro i s t h
  obtain ⟨⟨bs, hbs⟩, hsrc, -⟩ := exec_forward h
  refine ⟨fun hi => ?_, ?_, ?_, ?_, fun a ha => ?_, fun a => congrArg (·[a]?) hsrc⟩
  · simp only [List.mem_cons, List.not_mem_nil, or_false] at hi
    rcases hi with rfl | rfl | rfl
    · exact ⟨exec_frame_of_bwFrame h (body_frame (.bwPut 0) s), fun a => (exec_bwPut_storesOneIf h).snkByte⟩
    · exact ⟨exec_frame_of_bwFrame h (body_frame (.bwPut 1) s), fun a => (exec_bwPut_storesOneIf h).snkByte⟩
    · exact ⟨exec_frame_of_bwFrame h (body_frame .bwClose s), fun a => (exec_bwClose_storesOneIf h).snkByte⟩
  · rintro b rfl hcnt
    exact (exec_bwPut_storesOneIf h).snkByte_of_not_due hcnt
  · rintro rfl hcnt
    exact (exec_bwClose_storesOneIf h).snkByte_of_not_due (not_not.mpr hcnt)
  · rintro rfl
    exact ⟨exec_serWrite_frame h, fun hr a => snkByte_append_outside (exec_serWrite_ok_snk h hr)⟩
  · exact snkByte_append_outside hbs.symm (.inl ha)

end Sys2Proof.Machine
end

section
/-! PROOF. The statements of 42_bit_reader.md: what BR.OPEN and BR.GET do (R91, R92, R37), and the law of the unpacker (R93). -/

namespace Sys2Proof.Machine

/-! ## What each command of the unpacker does with no fault latched -/

section
variable {s : State} {b : Byte} (hs : s.Unlatched)
include hs

/-- A get while a bit of the byte held is left (R92). -/
theorem exec_brGet_held (h : s.br.pos ≠ 8) :
    exec .brGet s = .next
      { s with
        br := { cur := s.br.cur, pos := s.br.pos + 1 }
        resp := .ok (.bit (bitOf s.br.cur s.br.pos.toNat)) } :=
  exec_brGet_ok hs (if_neg h)

/-- A get that pulls a byte first and yields its bit 0 (R92, R35). -/
theorem exec_brGet_pull (h : s.br.pos = 8) (hb : s.mem.srcByte s.mem.srcPos = some b) (ha : s.readAnswer = .delivered) :
    exec .brGet s = .next { s.takeByte with br := { cur := b, pos := 1 }, resp := .ok (.bit (bitOf b 0)) } := by
  rcases unpackerGet_cases .br 0 s with ⟨h', -⟩ | ⟨-, hb', -⟩ | ⟨b', -, hb', -, e⟩ | ⟨b', -, -, ha', -⟩
  · exact absurd h h'
  · rw [hb] at hb'; cases hb'
  · rw [hb] at hb'; cases hb'; exact exec_brGet_ok hs e
  · rw [ha] at ha'; cases ha'

/-- A get at the end of the source (R92, R145). -/
theorem exec_brGet_exhausted (h : s.br.pos = 8) (hb : s.mem.srcByte s.mem.srcPos = none) :
    exec .brGet s = .next (s.takeFault .unexpectedEndOfInput 0) := by
  rcases unpackerGet_cases .br 0 s with ⟨h', -⟩ | ⟨-, -, e⟩ | ⟨b', -, hb', -⟩ | ⟨b', -, hb', -⟩
  · exact absurd h h'
  · exact exec_brGet_raised hs e
  · rw [hb] at hb'; cases hb'
  · rw [hb] at hb'; cases hb'

/-- A get whose byte the environment fails (R37, R145). -/
theorem exec_brGet_failed (h : s.br.pos = 8) (hb : s.mem.srcByte s.mem.srcPos = some b) (ha : s.readAnswer = .failed) :
    exec .brGet s = .next
      ((({ s with srcAns := s.srcAns.tail } : State).loseUnpacker .br).takeFault .sourceReadFailure 0) := by
  rcases unpackerGet_cases .br 0 s with ⟨h', -⟩ | ⟨-, hb', -⟩ | ⟨b', -, -, ha', -⟩ | ⟨b', -, -, -, e⟩
  · exact absurd h h'
  · rw [hb] at hb'; cases hb'
  · rw [ha] at ha'; cases ha'
  · exact exec_brGet_raised hs e

end

/-- At the end of the source there is no byte to read (R24, R30). -/
theorem srcByte_end {m : Memory} (h : m.srcPos = m.src.length) : m.srcByte m.srcPos = none :=
  List.getElem?_eq_none h.ge

/-- Settles O18: the registers are cleared, and nothing else is written. -/
theorem brOpenResult : Obligations.BrOpenResult := fun _ hs => exec_brOpen hs

/-- Settles O19, by the bits left of the byte held, the bytes left in the source, and the environment's answer. -/
theorem brGetResult : Obligations.BrGetResult := by
  refine fun s hs => ⟨exec_brGet_held hs, fun b h hb ha => ?_, fun h hend => ?_, fun b h hb ha => ?_⟩
  · exact exec_brGet_pull hs h hb ha
  · exact exec_brGet_exhausted hs h (srcByte_end hend)
  · exact ⟨_, exec_brGet_failed hs h hb ha, rfl⟩

/-! ## The law of the unpacker -/

/-- A get when all bits of the bytes left since the open were yielded (R93). -/
theorem exec_brGet_after_last {s : State} {region : List Byte} {k : Nat} (hs : s.Unlatched)
    (hbr : s.br = unpackerAt region k) (hr : s.mem.unread = region.drop ((k + 7) / 8)) (hk : k = 8 * region.length) :
    exec .brGet s = .next (s.takeFault .unexpectedEndOfInput 0) :=
  exec_brGet_raised hs (get_exhausted .br 0 s region k hbr hr hk)

/-- Settles O20: the gets follow the unpacker through the bytes that were left at the open, bit by bit, and the one after the last
bit finds neither a bit nor a byte. -/
theorem unpackerLaw : Obligations.UnpackerLaw := by
  intro s n hs hn hfit
  rw [← unread_length] at hfit ⊢
  obtain ⟨t, hget, hbr, hunread, hpos, herr⟩ :=
    getBits_reads n ((unpackerOpen .br s).respond (.ok .nothing)) s.mem.unread 0 hs hn rfl rfl (by omega)
  rw [Nat.zero_add] at hbr hunread hpos
  have ht : t.Unlatched := (congrArg ErrLatch.code herr).trans hs
  refine ⟨_, t, exec_brOpen hs, ?_, hpos, herr, fun hlast => ?_⟩
  · rw [unpack_eq_bitsFrom, hget]
  · exact ⟨_, exec_brGet_after_last ht hbr hunread hlast, rfl⟩

end Sys2Proof.Machine
end

section
/-! PROOF. The statements of 43_serializer.md: SER.WRITE of a container that breaks the invariant (R101), of a valid one whose bytes
the sink accepts (R108, R109, R112) or fails (R108, R110), and its phases (R111). -/

namespace Sys2Proof.Machine

/-! ## A sink that never fails -/

section
variable {r : Res Unit} {s t : State} {bs : List Byte}

/-- A sink that never fails still never fails after some writes. -/
theorem Emits.never (h : Emits r s bs t) (hn : s.SinkNeverFails) : t.SinkNeverFails :=
  fun a ha => hn a (by rw [h.ans] at ha; exact List.mem_of_mem_drop ha)

theorem Emits.ok_never (h : Emits r s bs t) (hn : s.SinkNeverFails) : r = .ok () t :=
  h.ok fun a ha => hn a (List.mem_of_mem_take ha)

theorem Emits.snkAddr (h : Emits r s bs t) : t.mem.snkAddr = s.mem.snkAddr + bs.length := by
  rw [Memory.snkAddr, h.snk, List.length_append]; rfl

end

/-! ## SER.WRITE by what step 1 finds -/

section
variable {magic : List Byte} {s t : State}

/-- Step 1 comes first, and its L ≥ 2 before its tree-shape length (R101). -/
theorem serWrite_fewLeaves (hl : s.ct.leaves.length < 2) :
    serWrite magic s = .raised .invariantViolation 1 s := by
  rcases serCheck_cases s with ⟨-, e⟩ | ⟨hl', -⟩ | ⟨hv, -⟩
  · rw [serWrite, e]
  · omega
  · have := ((containerValid_iff _).mp hv).1
    omega

theorem serWrite_wrongShape (hl : 2 ≤ s.ct.leaves.length) (hshape : s.ct.shape.length ≠ 2 * s.ct.leaves.length - 1) :
    serWrite magic s = .raised .invariantViolation 2 s := by
  rcases serCheck_cases s with ⟨hl', -⟩ | ⟨-, -, e⟩ | ⟨hv, -⟩
  · omega
  · rw [serWrite, e]
  · exact absurd ((containerValid_iff _).mp hv).2 hshape

variable (hv : containerValid s.ct = true)
include hv

theorem serCheck_valid : serCheck s = .ok () (s.enterSer .check) := by
  obtain ⟨hl, hshape⟩ := (containerValid_iff _).mp hv
  rcases serCheck_cases s with ⟨hl', -⟩ | ⟨-, hshape', -⟩ | ⟨-, e⟩
  · omega
  · exact absurd hshape hshape'
  · exact e

theorem serWrite_of_stream_ok (h : serStream magic (s.enterSer .check) = .ok () t) :
    serWrite magic s = .ok .nothing t.endSer := by
  simp only [serWrite, serCheck_valid hv, h]

theorem serWrite_of_stream_raised {c : Cause} {sub : BitVec 2}
    (h : serStream magic (s.enterSer .check) = .raised c sub t) : serWrite magic s = .raised c sub t.abandonSer := by
  simp only [serWrite, serCheck_valid hv, h]

/-- Nothing is validated after step 1 (R101): of a valid container the one fault is a failed sink write. -/
theorem serWrite_raises_of_valid : (serWrite magic s).Raises IsSinkFailure := by
  have hraises := serStream_raises magic (s.enterSer .check)
  cases e : serStream magic (s.enterSer .check) with
  | ok _ t => rw [serWrite_of_stream_ok hv e]; exact raises_ok ..
  | raised c sub t => rw [serWrite_of_stream_raised hv e]; rwa [e] at hraises

end

/-- A fault that SER.WRITE hands back was raised by its body. -/
theorem serWrite_raised_of_fault {s t : State} {c : Cause} {sub : BitVec 2} (h : exec .serWrite s = .next t)
    (hr : t.resp = .fault c sub) : ∃ u, serWrite Config.magicBytes s = .raised c sub u ∧ t = u.takeFault c sub := by
  rcases exec_next_cases h with ⟨hi, -⟩ | ⟨-, -, rfl⟩ | ⟨-, -, r, u, -, rfl⟩ | ⟨-, -, c', sub', u, e, rfl⟩
  · cases hi
  · cases hr
  · cases hr
  · cases hr; exact ⟨u, e, rfl⟩

/-- Settles O34: the two tests of step 1 in their order, and the faults of the stream that follows them. -/
theorem serWriteRejectsInvalidContainers : Obligations.SerWriteRejectsInvalidContainers := by
  refine fun s hs => ⟨fun hl => ?_, fun hl h256 hshape => ?_, fun t c sub hl hshape h hr => ?_⟩
  · exact exec_serWrite_raised hs ((fits_iff _).mpr (by omega)) (serWrite_fewLeaves hl)
  · exact exec_serWrite_raised hs ((fits_iff _).mpr h256) (serWrite_wrongShape hl hshape)
  · obtain ⟨u, e, -⟩ := serWrite_raised_of_fault h hr
    have hraises := serWrite_raises_of_valid (magic := Config.magicBytes) ((containerValid_iff _).mpr ⟨hl, hshape⟩)
    rw [e] at hraises
    exact hraises.1

/-! ## SER.WRITE of a valid container -/

/-- Settles O35: the stream wrote the container and ended with CT and the private packer empty, and only the working registers are
given up then. -/
theorem serWriteAppendsTheContainer : Obligations.SerWriteAppendsTheContainer := by
  intro s hs hv h256 haccepted
  have e := (serStream_emits Config.magicBytes (s.enterSer .check)).ok haccepted
  exact ⟨_, exec_serWrite_ok hs ((fits_iff _).mpr h256) (serWrite_of_stream_ok hv e), rfl⟩

/-- Settles O36: the command ends as the stream does at the failed byte, and its frame says what else is as it was. -/
theorem serWriteFailsAtAByte : Obligations.SerWriteFailsAtAByte := by
  intro s k hs hv h256 hk haccepted hfailed
  obtain ⟨u, e, hsnk, hans, hframe⟩ :=
    (serStream_emits Config.magicBytes (s.enterSer .check)).fail k hk haccepted hfailed
  have hframe' : SerFrame s u.abandonSer := ((enterSer_frame s .check).trans hframe).trans (abandonSer_frame u)
  refine ⟨u.abandonSer.takeFault .sinkWriteFailure 0,
    exec_serWrite_raised hs ((fits_iff _).mpr h256) (serWrite_of_stream_raised hv e), hsnk, ?_⟩
  have hans' : s.snkAns.drop (k + 1) = u.abandonSer.snkAns := hans.symm
  rw [hans']
  exact congrArg (fun v : State => v.takeFault .sinkWriteFailure 0) hframe'.eq

/-! ## The phases -/

/-- An open packer emits one byte for each whole group of eight bits put (R84). -/
theorem feed_opened_length (bits : List Bit) : (feed Packer.opened bits).1.length = bits.length / 8 := by
  rw [feed_opened, pack_length, List.length_take]
  omega

/-- The close flushes one byte exactly when the last group is incomplete (R83, R84). -/
theorem flushed_length (bits : List Bit) :
    (flushed (feed Packer.opened bits).2).length = if bits.length % 8 = 0 then 0 else 1 := by
  have hlen := congrArg List.length (feed_flushed bits)
  rw [List.length_append, feed_opened_length, pack_length] at hlen
  split <;> omega

theorem toNat_tbcv (n : Nat) : (BitVec.ofNat 4 (tbc n)).toNat = tbc n := by
  have := tbc_range n
  rw [BitVec.toNat_ofNat, Nat.mod_eq_of_lt (by omega)]

/-- A phase of SER.WRITE that ends well, with the sink still never failing: in phase p, n bytes further on in the sink, and with
c in CT. -/
structure RunsPhase (r : Res Unit) (s : State) (p : SerPhase) (n : Nat) (c : Container) (t : State) : Prop where
  ok : r = .ok () t
  never : t.SinkNeverFails
  phase : t.ser.phase = p
  snkAddr : t.mem.snkAddr = s.mem.snkAddr + n
  ct : t.ct = c

section
variable {s : State} (hn : s.SinkNeverFails)
include hn

theorem Emits.runsPhase {r : Res Unit} {t : State} {bs : List Byte} (h : Emits r s bs t) :
    RunsPhase r s t.ser.phase bs.length t.ct t :=
  ⟨h.ok_never hn, h.never hn, rfl, h.snkAddr, rfl⟩

theorem serCheck_runs (hv : containerValid s.ct = true) : RunsPhase (serCheck s) s .check 0 s.ct (s.enterSer .check) :=
  ⟨serCheck_valid hv, hn, rfl, rfl, rfl⟩

theorem serMagic_runs : ∃ t, RunsPhase (serMagic Config.magicBytes s) s .magic 4 s.ct t :=
  ⟨_, (serMagic_emits Config.magicBytes s).runsPhase hn⟩

theorem serCount_runs : ∃ t, RunsPhase (serCount s) s .count 1 s.ct t := ⟨_, (serCount_emits s).runsPhase hn⟩

theorem serLeaves_runs : ∃ t, RunsPhase (serLeaves s) s .leaves s.ct.leaves.length { s.ct with leaves := [] } t :=
  ⟨_, (serLeaves_emits s).runsPhase hn⟩

theorem serTbc_runs : ∃ t, RunsPhase (serTbc s) s .tbc 1 s.ct t ∧ t.ser.tbcv.toNat = tbc (containerBits s.ct) :=
  ⟨_, (serTbc_emits s).runsPhase hn, toNat_tbcv _⟩

/-- BITS writes the whole groups and leaves the rest to the private packer. -/
theorem serBits_runs : ∃ t, RunsPhase (serBits s) s .bits (containerBits s.ct / 8) ⟨[], s.ct.leaves, []⟩ t ∧
    t.ser.bw = (feed Packer.opened (s.ct.shape ++ s.ct.msg)).2 := by
  have h := (serBits_emits s).runsPhase hn
  rw [feed_opened_length, List.length_append] at h
  exact ⟨_, h, rfl⟩

theorem serFlush_runs {bits : List Bit} (hbw : s.ser.bw = (feed Packer.opened bits).2) :
    ∃ t, RunsPhase (serFlush s) s .flush (if bits.length % 8 = 0 then 0 else 1) s.ct t := by
  have h := (serFlush_emits s).runsPhase hn
  rw [hbw, flushed_length] at h
  exact ⟨_, h⟩

end

/-- Settles O37: the phases one after the other, each from where the one before it ended. -/
theorem serPhases : Obligations.SerPhases := by
  intro s hv _ hn
  have h1 := serCheck_runs hn hv
  obtain ⟨s2, h2⟩ := serMagic_runs h1.never
  obtain ⟨s3, h3⟩ := serCount_runs h2.never
  obtain ⟨s4, h4⟩ := serLeaves_runs h3.never
  obtain ⟨s5, h5, htbcv⟩ := serTbc_runs h4.never
  obtain ⟨s6, h6, hbw⟩ := serBits_runs h5.never
  obtain ⟨s7, h7⟩ := serFlush_runs h6.never hbw
  have ct2 : s2.ct = s.ct := h2.ct
  have ct3 : s3.ct = s.ct := h3.ct.trans ct2
  have ct4 : s4.ct = { s.ct with leaves := [] } := by rw [h4.ct, ct3]
  have ct5 : s5.ct = { s.ct with leaves := [] } := h5.ct.trans ct4
  have ct6 : s6.ct = ⟨[], [], []⟩ := by rw [h6.ct, ct5]
  have bits4 : containerBits s4.ct = containerBits s.ct := by rw [ct4]; rfl
  have bits5 : containerBits s5.ct = containerBits s.ct := by rw [ct5]; rfl
  have addr2 : s2.mem.snkAddr = s.mem.snkAddr + 4 := h2.snkAddr
  have addr3 : s3.mem.snkAddr = s.mem.snkAddr + 5 := by rw [h3.snkAddr, addr2]
  have addr4 : s4.mem.snkAddr = s.mem.snkAddr + 5 + s.ct.leaves.length := by rw [h4.snkAddr, addr3, ct3]
  have addr5 : s5.mem.snkAddr = s.mem.snkAddr + 6 + s.ct.leaves.length := by rw [h5.snkAddr, addr4]; omega
  have addr6 : s6.mem.snkAddr = s.mem.snkAddr + 6 + s.ct.leaves.length + containerBits s.ct / 8 := by
    rw [h6.snkAddr, addr5, bits5]
  have addr7 : s7.mem.snkAddr = s6.mem.snkAddr + if containerBits s.ct % 8 = 0 then 0 else 1 := by
    rw [h7.snkAddr, List.length_append, ← containerBits, bits5]
  exact ⟨_, s2, s3, s4, s5, s6, s7, h1.ok, h2.ok, h3.ok, h4.ok, h5.ok, h6.ok, h7.ok, ⟨h1.phase, h1.snkAddr, h1.ct⟩,
    ⟨h2.phase, addr2, ct2⟩, ⟨h3.phase, addr3, ct3⟩, ⟨h4.phase, addr4, ct4⟩, ⟨h5.phase, addr5, ct5, by rw [htbcv, bits4]⟩,
    ⟨h6.phase, addr6, ct6⟩, ⟨h7.phase, h7.ct.trans ct6, addr7⟩⟩

end Sys2Proof.Machine
end

section
/-! PROOF. The statements of 44_deserializer.md: the round trip of the format (R130) and a container cut short (R131); what DES.READ
does where decode of the unread bytes is a container or a fault (R129, R133, R128), its phases (R132), and the round trip of the
machine (R130). -/

namespace Sys2Proof.Machine

/-! ## The bits of a region cut short -/

/-- Unpacking reads no byte past its last bit (R8, R57). -/
theorem unpack_take_bytes (bytes : List Byte) {m n : Nat} (h : n ≤ 8 * m) : unpack (bytes.take m) n = unpack bytes n :=
  List.map_congr_left fun k hk => bitAtIndex_take bytes m k (Nat.lt_of_lt_of_le (List.mem_range.mp hk) h)

/-- The bits that whole bytes cut off the end leave are the first of those packed. -/
theorem unpack_pack_take (bits : List Bit) {m n : Nat} (hn : n ≤ bits.length) (hm : n ≤ 8 * m) :
    unpack ((pack bits).take m) n = bits.take n := by
  rw [unpack_take_bytes _ hm, unpack_pack bits n (by rw [pack_length]; omega), Nat.sub_eq_zero_of_le hn,
    List.replicate_zero, List.append_nil]

/-- Each of the bytes that T bits fill counts for eight of them, also when k are missing (R54, R65, R131). -/
theorem meaningfulBits_cut {T k : Nat} (hk : k ≤ (T + 7) / 8) :
    meaningfulBits ((T + 7) / 8 - k) (BitVec.ofNat 8 (tbc T)) = (T : Int) - 8 * k := by
  rw [meaningfulBits, toNat_tbcByte, tbc]
  split <;> omega

/-! ## decode of the first bytes of a container -/

section Cut
variable {magic : List Byte} (hm : magic.length = 4)
include hm

theorem fields_take_count (b : Byte) (rest : List Byte) (j : Nat) :
    (magic ++ b :: rest).take (5 + j) = magic ++ b :: rest.take j := by
  rw [show 5 + j = magic.length + (j + 1) by omega, List.take_length_add_append, List.take_succ_cons]

theorem fields_take_region (b t : Byte) (leaves region : List Byte) (j : Nat) :
    (magic ++ b :: (leaves ++ t :: region)).take (6 + leaves.length + j) = magic ++ b :: (leaves ++ t :: region.take j) := by
  rw [show 6 + leaves.length + j = 5 + (leaves.length + (j + 1)) by omega, fields_take_count hm,
    List.take_length_add_append, List.take_succ_cons]

/-- decode of the magic field alone (R122). -/
theorem decode_magic_alone : decodeContainer magic magic = .fault .truncatedHeader 1 := by
  rw [decodeContainer, if_neg (by omega), if_neg (by rw [← hm, List.take_length]; simp), if_pos (by omega)]

/-- decode of bytes that end in the leaf table, or just after it (R123, R124). -/
theorem decode_leafTable_cut {b : Byte} {rest : List Byte} (hb : 1 ≤ b.toNat) (hr : rest.length ≤ b.toNat + 1) :
    decodeContainer magic (magic ++ b :: rest) =
      if rest.length < b.toNat + 1 then .fault .truncatedLeafTable 0 else .fault .truncatedHeader 2 := by
  have hlen : (magic ++ b :: rest).length = 5 + rest.length := by
    rw [List.length_append, List.length_cons]; omega
  simp only [decodeContainer, leafCountOf_fields magic rest b hm, hlen, fields_take_magic hm]
  rw [if_neg (by omega), if_neg (not_not_intro rfl), if_neg (by omega), if_neg (by omega)]
  by_cases h : rest.length < b.toNat + 1
  · rw [if_pos h, if_pos (by omega)]
  · rw [if_neg h, if_neg (by omega), if_pos (by omega)]

variable {c : Container} (hv : containerValid c = true) (h256 : c.leaves.length ≤ 256)
include hv h256

/-- decode of a container without its last k bytes, none but the region's: while 2L − 1 meaningful bits remain the message is
shorter, and then there are too few for the tree shape (R131). -/
theorem decode_encode_cut {k : Nat} (hk : k ≤ (containerBits c + 7) / 8) :
    decodeContainer magic ((encodeContainer magic c).take ((encodeContainer magic c).length - k)) =
      if c.msg.length < 8 * k then .fault .unexpectedEndOfInput 1
      else .ok { c with msg := c.msg.take (c.msg.length - 8 * k) } := by
  obtain ⟨h2, hshape⟩ := (containerValid_iff c).mp hv
  have hT : containerBits c = c.shape.length + c.msg.length := rfl
  have hbits : (c.shape ++ c.msg).length = containerBits c := List.length_append
  have hcut : (encodeContainer magic c).length - k = 6 + c.leaves.length + ((containerBits c + 7) / 8 - k) := by
    rw [encodeContainer_length, hm]; omega
  have hregion : ((pack (c.shape ++ c.msg)).take ((containerBits c + 7) / 8 - k)).length =
      (containerBits c + 7) / 8 - k := by
    rw [List.length_take, pack_length, hbits]; omega
  have hcount : c.leaves.length = (biasedCount c.leaves.length).toNat + 1 := by rw [toNat_biasedCount h256]; omega
  rw [hcut, encodeContainer_fields, fields_take_region hm, decode_fields _ _ _ _ _ hm hcount, hregion,
    meaningfulBits_cut hk, if_neg (by omega), shapeLength, ← hshape]
  by_cases hmsg : c.msg.length < 8 * k
  · rw [if_pos hmsg, if_pos (by omega)]
  · have hleft : ((containerBits c : Int) - 8 * k).toNat = c.shape.length + (c.msg.length - 8 * k) := by omega
    rw [if_neg hmsg, if_neg (by omega), if_neg (by omega), hleft, unpack_pack_take _ (by omega) (by omega),
      List.take_length_add_append, List.take_left, List.drop_left]

theorem decode_encodeContainer : decodeContainer magic (encodeContainer magic c) = .ok c := by
  have h := decode_encode_cut hm hv h256 (Nat.zero_le _)
  rwa [Nat.sub_zero, List.take_length, if_neg (Nat.not_lt_zero _), Nat.mul_zero, Nat.sub_zero, List.take_length] at h

end Cut

/-- Settles O30: the container of which no byte is cut off. -/
theorem decodeOfEncodeIsTheContainer : Obligations.DecodeOfEncodeIsTheContainer :=
  fun _ _ hm hv h256 => decode_encodeContainer hm hv h256

/-- Settles O31: a cut that takes message bits alone lies in the bitstream region. -/
theorem shortenedContainerReads : Obligations.ShortenedContainerReads := by
  intro magic c k hm hv h256 hk
  rw [decode_encode_cut hm hv h256 (by rw [containerBits]; omega), if_neg (Nat.not_lt.mpr hk)]

/-- Settles O32, by the field in which the cut falls. -/
theorem detectedCuts : Obligations.DetectedCuts := by
  intro magic c k hm hv h256 hk
  have hlen := encodeContainer_length magic c
  have hfields := encodeContainer_fields magic c
  have hcount : (biasedCount c.leaves.length).toNat = c.leaves.length - 1 := toNat_biasedCount h256
  have h2 := ((containerValid_iff c).mp hv).1
  refine ⟨fun h => ?_, fun h => ?_, fun h5 hL => ?_, fun h => ?_, fun h6 hmsg => ?_⟩
  · rw [decodeContainer, if_pos (by rw [List.length_take]; omega)]
  · rw [h, hfields, fields_take_magic hm, decode_magic_alone hm]
  · obtain ⟨j, rfl⟩ := Nat.exists_eq_add_of_le h5
    rw [hfields, fields_take_count hm, List.take_append_of_le_length (by omega),
      decode_leafTable_cut hm (by omega) (by rw [List.length_take]; omega), if_pos (by rw [List.length_take]; omega)]
  · rw [h, hfields, fields_take_count hm, List.take_left, decode_leafTable_cut hm (by omega) (by omega),
      if_neg (by omega)]
  · have h := decode_encode_cut hm hv h256 (k := (encodeContainer magic c).length - k) (by omega)
    rwa [Nat.sub_sub_self (Nat.le_of_lt hk), if_pos hmsg] at h

/-! ## DES.READ by what decode says -/

section
variable {magic : List Byte} {s t : State} {c : Cause} {sub : BitVec 2}

/-- The first line of R120 drops what CT held, so nothing that follows sees it (R128, R167). -/
theorem exec_desRead_ignores_ct (hs : s.Unlatched) (d : Container) :
    exec .desRead { s with ct := d } = exec .desRead s := by
  have hbody : desRead Config.magicBytes { s with ct := d } = desRead Config.magicBytes s := rfl
  have hs' : ({ s with ct := d } : State).Unlatched := hs
  rw [exec, exec, execDesRead, execDesRead, runCommand, runCommand, if_pos hs, if_pos hs', hbody]

theorem exec_desRead_ends (s : State) : ∃ t, exec .desRead s = .next t := by
  rcases runCommand_cases (desRead Config.magicBytes) s with ⟨-, e⟩ | ⟨-, _, _, -, e⟩ | ⟨-, _, _, _, -, e⟩
  · exact ⟨_, e⟩
  · exact ⟨_, e⟩
  · exact ⟨_, e⟩

/-- DES.READ keeps to its frame when it ends `ok`. -/
theorem desRead_ok_frame {r : Result} (h : desRead magic s = .ok r t) : DesFrame s t := by
  simpa only [h, state_ok] using desRead_frame magic s

theorem desRead_raised_frame (h : desRead magic s = .raised c sub t) : DesFrame s t := by
  simpa only [h, state_raised] using desRead_frame magic s

/-- Where decode says a container, the bytes it takes are read and it is in CT, with the phase back at IDLE (R128, R129, R133). -/
theorem desRead_reads {d : Container} (hd : decodeContainer magic s.mem.unread = .ok d) :
    ∃ t, Reads (desRead magic s) s (6 + d.leaves.length + (containerBits d + 7) / 8) .nothing t ∧ t.ct = d ∧
      t.des.phase = .idle := by
  obtain ⟨b, tb, region, hl⟩ := decode_ok_layout hd
  have h := desStream_layout (s := s.clearCt) hl rfl
  refine ⟨(s.clearCt.desAt7 b d tb region).endDes, ⟨fun hdelivered => ?_, fun k hk h1 h2 => ?_, h.ans, h.pos, h.src⟩, rfl, rfl⟩
  · rw [desRead, h.ok hdelivered]
  · exact desRead_fails magic s k (by rwa [hl.bytesTaken]) h1 h2

/-- Where decode says a fault, the bytes before it are read and it is raised (R129). -/
theorem desRead_stops (hd : decodeContainer magic s.mem.unread = .fault c sub) :
    Stops (desRead magic s) s (bytesTaken magic s.mem.unread) c sub := by
  refine ⟨fun hdelivered => ?_, desRead_fails magic s⟩
  obtain ⟨u, e, hans⟩ := (desStream_fault (s := s.clearCt) hd).raised hdelivered
  exact ⟨u.abandonDes c s.mem.srcPos, by rw [desRead, e], hans⟩

/-- A fault that DES.READ hands back was raised by its body. -/
theorem desRead_raised_of_fault (h : exec .desRead s = .next t) (hr : t.resp = .fault c sub) :
    ∃ u, desRead Config.magicBytes s = .raised c sub u ∧ t = u.takeFault c sub := by
  rcases exec_next_cases h with ⟨hi, -⟩ | ⟨-, -, rfl⟩ | ⟨-, -, r, u, -, rfl⟩ | ⟨-, -, c', sub', u, e, rfl⟩
  · cases hi
  · cases hr
  · cases hr
  · cases hr; exact ⟨u, e, rfl⟩

end

/-- Settles O38: the command reads the container, and its frame says what else is as it was. -/
theorem desReadReadsTheContainer : Obligations.DesReadReadsTheContainer := by
  intro s c hs hd hdelivered
  obtain ⟨u, hu, hct, hphase⟩ := desRead_reads hd
  have e := hu.ok hdelivered
  refine ⟨u.respond (.ok .nothing), exec_desRead_ok hs e, ?_⟩
  rw [Nat.add_assoc _ 6, Nat.add_assoc, ← hu.pos, ← hu.ans, ← hct, ← hphase]
  exact congrArg (State.respond · (.ok .nothing)) (desRead_ok_frame e).eq

/-- Settles O39: the command stops at the fault, and its frame says what else is as it was. -/
theorem desReadRaisesTheFault : Obligations.DesReadRaisesTheFault := by
  intro s c sub hs hd hdelivered
  obtain ⟨u, e, hans⟩ := (desRead_stops hd).raised hdelivered
  have hframe := desRead_raised_frame e
  refine ⟨u.takeFault c sub, exec_desRead_raised hs e, hframe.srcPos, ?_⟩
  rw [← hans]
  exact congrArg (State.takeFault · c sub) hframe.eq

/-- A position given up stays within its limit (U9). -/
theorem loseSource_le (s : State) {start limit : Nat} (h : start ≤ limit) :
    (s.loseSource start limit).mem.srcPos ≤ limit := by
  have := Nat.mod_lt (Config.anyAdvance s.free) (show 0 < limit - start + 1 by omega)
  show start + Config.anyAdvance s.free % (limit - start + 1) ≤ limit
  omega

/-- Settles O41: after NotThisFormat the position is given up no further than the end of the magic field. -/
theorem notThisFormatReadsNothingMore : Obligations.NotThisFormatReadsNothingMore := by
  intro s t sub hwf h hr
  have hstart : s.mem.srcPos ≤ s.mem.src.length := of_decide_eq_true hwf
  obtain ⟨u, e, rfl⟩ := desRead_raised_of_fault h hr
  have hlimit : u.mem.srcPos ≤ min (s.mem.srcPos + 4) s.mem.src.length := by
    rcases desRead_cases Config.magicBytes s with ⟨v, -, e'⟩ | ⟨c, sub', v, -, -, e'⟩
    · cases e'.symm.trans e
    · cases e'.symm.trans e
      have hsrc : v.mem.src = s.mem.src := (desRead_raised_frame e).src
      rw [← hsrc]
      exact loseSource_le _ (by show _ ≤ min _ _; rw [hsrc]; omega)
  exact ⟨(desRead_raised_frame e).srcPos, hlimit.trans (Nat.min_le_left ..), hlimit.trans (Nat.min_le_right ..)⟩

/-- Settles O44: both runs begin by emptying CT, so they are one. -/
theorem desReadIgnoresTheOldContainer : Obligations.DesReadIgnoresTheOldContainer := by
  intro s c hs
  obtain ⟨t, ht⟩ := exec_desRead_ends s
  exact ⟨t, t, ht, (exec_desRead_ignores_ct hs c).trans ht, rfl, rfl, fun _ => ⟨rfl, rfl⟩⟩

/-! ## The phases -/

/-- Settles O42: the phases one after the other on the container's bytes, each from where the one before it ended. -/
theorem desPhases : Obligations.DesPhases := by
  intro s c hn hd
  obtain ⟨b, t, region, hl⟩ := decode_ok_layout hd
  have h1 := desMagic_layout (s := s.clearCt) hl
  have h2 := desCount_layout (s := s.clearCt) hl
  have h3 := desLeaves_layout (s := s.clearCt) hl rfl
  have h4 := desTbc_layout (s := s.clearCt) hl
  have h5 := desMeasure_layout (s := s.clearCt) hl
  have h6 := desShape_layout (s := s.clearCt) hl
  have h7 := desMsg_layout (s := s.clearCt) hl
  have hn1 := h1.never hn
  have hn2 := h2.never hn1
  have hn3 := h3.never hn2
  have hn4 := h4.never hn3
  have hn5 := h5.never hn4
  have hn6 := h6.never hn5
  have hL : (unbiasedCount b).toNat = c.leaves.length := by rw [toNat_unbiasedCount, hl.count]
  have hshape : c.shape.length = 2 * c.leaves.length - 1 := hl.shape_length
  have hshapeBytes : (c.shape.length + 7) / 8 = (c.leaves.length + 3) / 4 := by
    rw [hshape, ← hL, toNat_unbiasedCount]; omega
  have hmsgBytes : (c.shape.length + 7) / 8 + ((containerBits c + 7) / 8 - (c.shape.length + 7) / 8) =
      (containerBits c + 7) / 8 := Nat.add_sub_of_le (Nat.div_le_div_right (by rw [containerBits]; omega))
  refine ⟨_, _, _, _, _, _, _, h1.ok_never hn, h2.ok_never hn1, h3.ok_never hn2, h4.ok_never hn3, h5.ok_never hn4,
    h6.ok_never hn5, h7.ok_never hn6, ⟨rfl, h1.pos, rfl, rfl⟩, ⟨rfl, h2.pos, rfl, hL, rfl⟩, ⟨rfl, h3.pos, rfl, rfl⟩,
    ⟨rfl, ?_, rfl, rfl⟩, ⟨rfl, h5.pos, rfl, rfl, rfl⟩, ⟨rfl, h6.pos.trans (by rw [hshapeBytes]; rfl), rfl, rfl, hshape⟩,
    ⟨rfl, ?_, rfl, rfl, rfl⟩⟩
  · rw [h4.pos, h3.pos, h2.pos, h1.pos, clearCt_mem]
    omega
  · rw [h7.pos, h6.pos, h5.pos, Nat.add_zero, Nat.add_assoc, hmsgBytes]

/-! ## The round trip of the machine -/

/-- A position after which n bytes are left is n bytes before the end of the source. -/
theorem srcPos_add_unread {m : Memory} {n : Nat} (h : m.unread.length = n) (hn : 0 < n) : m.srcPos + n = m.src.length := by
  rw [unread_length, Memory.remaining] at h
  omega

/-- Settles O43: what SER.WRITE appended is encode of the container, which decode inverts. -/
theorem writeThenReadBack : Obligations.WriteThenReadBack := by
  intro s t u hs hv h256 haccepted ht hu hdelivered hunread
  obtain ⟨t', e, ht'⟩ := serWriteAppendsTheContainer s hs hv h256 haccepted
  obtain rfl : t' = t := by rw [e] at ht; cases ht; rfl
  have hsource : u.mem.unread = encodeContainer Config.magicBytes s.ct := by
    rw [hunread, ht', List.drop_left]
  have hlen := encodeContainer_length Config.magicBytes s.ct
  rw [magicBytes_length] at hlen
  have hd : decodeContainer Config.magicBytes u.mem.unread = .ok s.ct := by
    rw [hsource, decode_encodeContainer magicBytes_length hv h256]
  obtain ⟨v, hv', hvEq⟩ := desReadReadsTheContainer u s.ct hu hd (by rwa [← hlen])
  have hend := srcPos_add_unread (congrArg List.length hsource) (by omega)
  refine ⟨v, hv', by rw [hvEq], by rw [hvEq], by rw [hvEq], ?_⟩
  rw [hvEq]
  show u.mem.srcPos + 6 + s.ct.leaves.length + (containerBits s.ct + 7) / 8 = _
  omega

end Sys2Proof.Machine
end

section
/-! PROOF. The statements of 60_exceptions.md: the codes of the faults (R140), which command can raise which fault (R141, R142),
the latch that only SYS.RESET clears (R147), refusal (R148), and that every command ends (R151). -/

namespace Sys2Proof.Machine

/-! ## Which command can raise which fault -/

/-- The faults of BIT.NEW (R142). -/
abbrev IsAdmissionFault (c : Cause) (sub : BitVec 2) : Prop :=
  (c, sub) ∈ [(Cause.invalidBitValue, 0), (.characterConfusion, 0)]

/-- The faults of BR.GET with their sub-causes (R141, R142). -/
abbrev IsGetFault (c : Cause) (sub : BitVec 2) : Prop :=
  (c, sub) ∈ [(Cause.unexpectedEndOfInput, 0), (.sourceReadFailure, 0)]

/-- The faults of SER.WRITE with their sub-causes (R141, R142). -/
abbrev IsWriteFault (c : Cause) (sub : BitVec 2) : Prop :=
  (c, sub) ∈ [(Cause.invariantViolation, 1), (.invariantViolation, 2), (.sinkWriteFailure, 0)]

theorem bitNew_raises_admissionFault (v : Int) (s : State) : (bodyOf (.bitNew v) s).Raises IsAdmissionFault := by
  simp only [bodyOf, bitNew, admission]
  split_ifs
  · trivial
  · trivial
  · show IsAdmissionFault .characterConfusion 0; decide
  · show IsAdmissionFault .invalidBitValue 0; decide

theorem bwPut_raises_sinkFailure (b : Bit) (s : State) : (bodyOf (.bwPut b) s).Raises IsSinkFailure :=
  Res.raises_andThen (packerPut_raises .bw b s) fun _ _ => trivial

theorem bwClose_raises_sinkFailure (s : State) : (bodyOf .bwClose s).Raises IsSinkFailure :=
  Res.raises_andThen (packerClose_raises .bw s) fun _ _ => trivial

theorem brGet_raises_getFault (s : State) : (bodyOf .brGet s).Raises IsGetFault := by
  refine Res.raises_andThen ?_ fun _ _ => trivial
  rcases unpackerGet_cases .br 0 s with ⟨-, e⟩ | ⟨-, -, e⟩ | ⟨b, -, -, -, e⟩ | ⟨b, -, -, -, e⟩ <;> rw [e]
  · trivial
  · show IsGetFault .unexpectedEndOfInput 0; decide
  · trivial
  · show IsGetFault .sourceReadFailure 0; decide

theorem serWrite_raises_writeFault (s : State) : (bodyOf .serWrite s).Raises IsWriteFault := by
  rw [bodyOf]
  rcases serWrite_cases Config.magicBytes s with ⟨sub, hsub, e⟩ | ⟨-, t, -, e⟩ | ⟨-, t, -, e⟩ <;> rw [e]
  · show IsWriteFault .invariantViolation sub
    rcases hsub with rfl | rfl <;> decide
  · trivial
  · show IsWriteFault .sinkWriteFailure 0; decide

theorem desRead_raises_readFault (s : State) : (bodyOf .desRead s).Raises IsReadFault := by
  rw [bodyOf]
  rcases desRead_cases Config.magicBytes s with ⟨t, -, e⟩ | ⟨c, sub, t, hfault, -, e⟩ <;> rw [e]
  · trivial
  · exact hfault

section
variable {s t : State} {c : Cause} {sub : BitVec 2}

/-- A fault that is raised is one of those the piece can raise. -/
theorem Res.Raises.of_raised {α : Type} {P : Cause → BitVec 2 → Prop} {r : Res α} (h : r.Raises P)
    (e : r = .raised c sub s) : P c sub := by
  rwa [e] at h

/-- A fault that a command hands back was raised by its body. -/
theorem body_raised_of_fault {i : Instr} (h : exec i s = .next t) (hr : t.resp = .fault c sub) :
    ∃ u, bodyOf i s = .raised c sub u := by
  rcases exec_next_cases h with ⟨-, rfl⟩ | ⟨-, -, rfl⟩ | ⟨-, -, r, u, -, rfl⟩ | ⟨-, -, c', sub', u, e, rfl⟩
  · cases hr
  · cases hr
  · cases hr
  · cases hr; exact ⟨u, e⟩

end

/-- Settles O25: a fault handed back was raised by the command's body, whose faults are its row of the table. -/
theorem faultMatrix : Obligations.FaultMatrix := by
  intro i s t c sub h hr
  obtain ⟨u, e⟩ := body_raised_of_fault h hr
  cases i with
  | bitNew v => exact (bitNew_raises_admissionFault v s).of_raised e
  | bwPut b => obtain ⟨rfl, rfl⟩ := (bwPut_raises_sinkFailure b s).of_raised e; rfl
  | bwClose => obtain ⟨rfl, rfl⟩ := (bwClose_raises_sinkFailure s).of_raised e; rfl
  | brGet => exact (brGet_raises_getFault s).of_raised e
  | serWrite => exact (serWrite_raises_writeFault s).of_raised e
  | desRead => exact (desRead_raises_readFault s).of_raised e
  | sysReset | bitEq | bitNe | bitShow | bwOpen | brOpen => cases e

/-! ## The latch -/

/-- A command that changes the latch while it holds a fault is SYS.RESET (R147). -/
theorem exec_latched_err {i : Instr} {s t : State} (h : exec i s = .next t) (hs : s.err.code ≠ 0) :
    t.err = s.err ∨ i = .sysReset ∧ t.err = ErrLatch.clear := by
  rcases exec_next_cases h with ⟨hi, rfl⟩ | ⟨-, -, rfl⟩ | ⟨-, h0, -⟩ | ⟨-, h0, -⟩
  · exact .inr ⟨hi, rfl⟩
  · exact .inl rfl
  · exact absurd h0 hs
  · exact absurd h0 hs

/-- A step leaves the latch as it was, or runs the command that the host issues. -/
theorem step_err_or_exec {s t : State} (h : step s = .next t) :
    t.err = s.err ∨ ∃ (p : Port) (rest : List HostAction) (i : Instr),
      s.host = .issue p :: rest ∧ decode p = .instr i ∧ exec i s.popHost = .next t := by
  cases hh : s.host with
  | nil => rw [step_idle hh] at h; cases h; exact .inl rfl
  | cons action rest =>
    cases action with
    | loadCT c =>
      rw [step_loadCT hh, loadContainer] at h
      split_ifs at h
      cases h; exact .inl rfl
    | issue p =>
      cases hd : decode p with
      | instr i => exact .inr ⟨p, rest, i, rfl, hd, (step_issue hh hd).symm.trans h⟩
      | reserved code => simp only [step, hh, hd] at h; cases h; exact .inl rfl

/-- Settles O26: a step that changes the latch runs a command, and with a fault latched only SYS.RESET runs. -/
theorem onlyResetClearsTheLatch : Obligations.OnlyResetClearsTheLatch := by
  intro s t h hs hne
  rcases step_err_or_exec h with herr | ⟨p, rest, i, hh, hd, hi⟩
  · exact absurd herr hne
  · rcases exec_latched_err hi hs with herr | ⟨rfl, herr⟩
    · exact absurd herr hne
    · exact ⟨herr, p, rest, hh, hd⟩

/-! ## Refusal -/

/-- While a fault is latched every command but SYS.RESET is refused (R148). -/
theorem exec_latched {i : Instr} {s : State} (hs : s.err.code ≠ 0) (hi : i ≠ .sysReset) :
    exec i s = .next (s.respond .refused) := by
  rw [exec_eq_run hi fun _ h0 => absurd h0 hs, runCommand_latched _ hs]

/-- Settles O22: the guard on the latch, the step on a reserved code, and of the ways a command ends the one that is a refusal. -/
theorem latchedCommandsAreRefused : Obligations.LatchedCommandsAreRefused := by
  refine ⟨fun i s hs hi => exec_latched hs hi, reservedCodesAreRefused.1, fun i s t h hr => ?_⟩
  rcases exec_next_cases h with ⟨-, rfl⟩ | ⟨hi, hs, -⟩ | ⟨-, -, r, u, -, rfl⟩ | ⟨-, -, c, sub, u, -, rfl⟩
  · cases hr
  · exact ⟨hs, hi⟩
  · cases hr
  · cases hr

/-! ## The fault codes -/

theorem Cause.mem_all (c : Cause) : c ∈ Cause.all := by
  cases c <;> decide

/-- No code stands twice in the list of the ten, which is the list of the numbers 1 to 10 (R140). -/
theorem Cause.code_injective : Function.Injective Cause.code := fun c d h =>
  List.inj_on_of_nodup_map (l := Cause.all) (by decide) c.mem_all d.mem_all h

theorem Cause.code_range (c : Cause) : 1 ≤ c.code.toNat ∧ c.code.toNat ≤ 10 := by
  have hall : ∀ d ∈ Cause.all, 1 ≤ d.code.toNat ∧ d.code.toNat ≤ 10 := by decide
  exact hall c c.mem_all

/-- Settles O23: the codes in the order of the table, and what follows for the list of all faults. -/
theorem faultCodes : Obligations.FaultCodes :=
  ⟨rfl, fun _ _ h => Cause.code_injective h, Cause.code_range⟩

/-! ## Every command ends -/

theorem runCommand_ends (body : State → Res Result) (s : State) : ∃ t, runCommand body s = .next t := by
  rcases runCommand_cases body s with ⟨-, e⟩ | ⟨-, _, _, -, e⟩ | ⟨-, _, _, _, -, e⟩
  · exact ⟨_, e⟩
  · exact ⟨_, e⟩
  · exact ⟨_, e⟩

/-- Every command ends, SER.WRITE with no fault latched where CT fits (R151, U11). -/
theorem exec_ends {i : Instr} {s : State} (hf : i = .serWrite → s.err.code = 0 → s.ct.fits = true) :
    ∃ t, exec i s = .next t := by
  by_cases hi : i = .sysReset
  · subst hi; exact ⟨_, rfl⟩
  · rw [exec_eq_run hi hf]; exact runCommand_ends _ s

/-- Settles O27: SER.WRITE alone looks at how many leaves CT holds. -/
theorem everyCommandEnds : Obligations.EveryCommandEnds := by
  refine ⟨fun i s h256 => exec_ends fun _ _ => (fits_iff _).mpr h256, fun i s hover hs => ⟨?_, fun hi => ?_⟩⟩
  · rintro rfl
    exact exec_serWrite_over hs (Bool.eq_false_iff.mpr fun hf => Nat.not_le.mpr hover ((fits_iff _).mp hf))
  · exact exec_ends fun hser => absurd hser hi

end Sys2Proof.Machine
end

section
/-! PROOF. The statements of 70_reset_and_hazards.md: what SYS.RESET writes (R160), and the bytes after a container that DES.READ
takes as bitstream (R163). -/

namespace Sys2Proof.Machine

/-! ## Reset -/

/-- Settles O6: the reset state is read off, and the guard on the latch refuses the other commands. -/
theorem sysResetResult : Obligations.SysResetResult :=
  fun _ => ⟨⟨_, rfl, rfl⟩, fun _ hi hs => exec_latched hs hi⟩

/-! ## Bytes after a container -/

/-- The bits of the first bytes do not depend on the bytes that follow (R8). -/
theorem unpack_append_of_le {xs : List Byte} (ys : List Byte) {n : Nat} (h : n ≤ 8 * xs.length) :
    unpack (xs ++ ys) n = unpack xs n :=
  List.map_congr_left fun k hk => bitAtIndex_append xs ys k (Nat.lt_of_lt_of_le (List.mem_range.mp hk) h)

/-- Each byte added to the region counts for eight meaningful bits (R65, R125). -/
theorem meaningfulBits_add (n k : Nat) (t : Byte) : meaningfulBits (n + k) t = meaningfulBits n t + 8 * k := by
  rw [meaningfulBits, meaningfulBits]
  omega

/-- The bits of the region and of the bytes after it begin with those that were packed. -/
theorem unpack_pack_append_take (bits : List Bit) (extra : List Byte) {k n : Nat} (hk : k ≤ bits.length) (hn : k ≤ n) :
    (unpack (pack bits ++ extra) n).take k = bits.take k := by
  have hfit : k ≤ 8 * (pack bits).length := by rw [pack_length]; omega
  rw [unpack_take, Nat.min_eq_left hn, unpack_append_of_le extra hfit, unpack_pack bits k hfit, Nat.sub_eq_zero_of_le hk,
    List.replicate_zero, List.append_nil]

/-- Settles O33: the extra bytes lengthen the region and add their bits to the count, so no test of decode fails, and the tree
shape stands in the packed bits. -/
theorem bytesAfterAContainerAreRead : Obligations.BytesAfterAContainerAreRead := by
  intro magic c extra hm hv h256
  obtain ⟨h2, hshape⟩ := (containerValid_iff c).mp hv
  have hT : containerBits c = c.shape.length + c.msg.length := rfl
  have hbits : (c.shape ++ c.msg).length = containerBits c := List.length_append
  have hcount : c.leaves.length = (biasedCount c.leaves.length).toNat + 1 := by rw [toNat_biasedCount h256]; omega
  have hregion : (pack (c.shape ++ c.msg) ++ extra).length = (containerBits c + 7) / 8 + extra.length := by
    rw [List.length_append, pack_length, hbits]
  have hB : meaningfulBits (pack (c.shape ++ c.msg) ++ extra).length (BitVec.ofNat 8 (tbc (containerBits c))) =
      ((containerBits c + 8 * extra.length : Nat) : Int) := by
    have h := meaningfulBits_cut (T := containerBits c) (Nat.zero_le _)
    rw [Nat.sub_zero] at h
    rw [hregion, meaningfulBits_add, h]
    omega
  have hfields : encodeContainer magic c ++ extra = magic ++ biasedCount c.leaves.length ::
      (c.leaves ++ BitVec.ofNat 8 (tbc (containerBits c)) :: (pack (c.shape ++ c.msg) ++ extra)) := by
    simp [encodeContainer_fields]
  rw [hfields, decode_fields _ _ _ _ _ hm hcount, hB, hregion, if_neg (by omega), shapeLength, ← hshape,
    if_neg (by omega), if_neg (by omega), Int.toNat_natCast,
    unpack_pack_append_take _ _ (by omega) (by omega), List.take_left]

end Sys2Proof.Machine
end
